-- ==== Sys2Proof/Word.lean ====
section
/-! DEFINITION. The word types of the block: a byte, and the 32-bit word of its registers and addresses
(00_scope.md R6, R7; 10_state.md R31). -/

namespace Sys2Proof

/-- A byte, bits 7 to 0 (R7). -/
abbrev Byte := BitVec 8

/-- A register or an address: 32 bits (ADDR_W, R6). -/
abbrev Word := BitVec 32

end Sys2Proof
end

