-- ==== Sys2Proof/Config.lean ====
section
/-! DEFINITION. What an instance of the block fixes (00_scope.md R6) and the free values (R12; 93_implementation_defined.md
section 1). -/

namespace Sys2Proof

/-- RAW_LONG_MODE (R6, R90): how a long RAW length is assembled. -/
inductive RawLongMode where
  | wide13
  | byte8
deriving DecidableEq, Repr

/-- The parameters of R6 that an instance chooses. A parameter is configuration, not state: no command changes it.
The capacities are 32-bit words, so that 2^32 − 1 bounds them by their type. -/
structure Config where
  /-- IN_CAP: capacity of IN in bytes. -/
  inCap : Word
  /-- OUT_CAP: capacity of OUT in bytes. -/
  outCap : Word
  /-- RAW_LONG_MODE. -/
  rawLongMode : RawLongMode
  /-- FILL: what a flush writes to every window cell. -/
  fill : Byte
deriving DecidableEq, Repr

namespace Config

/-- The range R6 gives the capacities: at least 1. -/
def wf (c : Config) : Bool := decide (1 ≤ c.inCap.toNat) && decide (1 ≤ c.outCap.toNat)

/-- The parameters of the machine `State.reset`. RAW_LONG_MODE and FILL are the defaults of R6.
DESIGN CHOICE (unsafe, log 4): R6 gives the capacities no default; here both are the largest the rule allows. -/
def default : Config :=
  { inCap := 0xFFFFFFFF#32, outCap := 0xFFFFFFFF#32, rawLongMode := .wide13, fill := 0x00#8 }

/-- RAW_MAX (R6): the longest literal run one RAW token of the encoder holds. -/
def rawMax (c : Config) : Nat :=
  match c.rawLongMode with
  | .wide13 => 8191
  | .byte8 => 255

/-- N: the window's cells (R6). -/
def winSize : Nat := 0x2000
/-- SEARCH_LIMIT (R6). -/
def searchLimit : Nat := 0x1FFF
/-- MAX_POS (R6): the largest encodable back-reference position. -/
def maxPos : Nat := 0x1FFF
/-- MIN_RUN (R6): the smallest LZ or RLE count. -/
def minRun : Nat := 4
/-- RLE_MAX (R6): the largest RLE count. -/
def rleMax : Nat := 0xFFF + 4
/-- RLE_SHORT_MAX (R6): the largest RLE count of the short form. -/
def rleShortMax : Nat := 19
/-- LZ_DIRECT_MAX (R6): the largest count an LZ control byte encodes by itself. -/
def lzDirectMax : Nat := 7
/-- CONT_MAX (R6): the largest count one continuation byte adds. -/
def contMax : Nat := 31
/-- HDR_MAX (R6): the largest length the header holds. -/
def hdrMax : Nat := 0xFFFF

/-- FREE VALUE (safe, log 2): the byte a memory cell holds that nothing has written since the memory's contents became
`any value` (R40, R245), or that a host read past OUT_LEN gives (R74). The first argument is the free draw, the second
the address. It has no body: no proof can see a value of it. -/
opaque freeByte : Nat → Nat → Byte

/-- FREE VALUE (safe, log 5): the word from which a register that R245 leaves at `any value` in a range is taken. -/
opaque freeWord : Nat → Word

end Config

end Sys2Proof
end

