-- ==== Sys2Proof/Syntax.lean ====
section
/-! DEFINITION. The syntax: the tokens of the compressed stream and the host commands (00_scope.md R2; 30_encoding.md
R85 to R101), one constructor of `Instr` per row of opcode_table.json. -/

namespace Sys2Proof

/-- The byte order of a port read (20_memory.md R55, R56; CMD.E, 10_state.md R32). -/
inductive Endian where
  | le
  | be
deriving DecidableEq, Repr

/-- The width code of SRC_READ (CMD.W, R32, R100); code 3 is reserved. -/
inductive Width where
  | w8
  | w16
  | w32
  | reserved
deriving DecidableEq, Repr

/-- A token of the stream (R85 to R90) with the fields of its control byte and operand bytes. The literal bytes of a RAW
token are data the token's meaning reads; they are no field. -/
inductive Token where
  /-- `LZ` (R85): count code C and the 13-bit position PH ++ PL. -/
  | lz (c : BitVec 2) (pos : BitVec 13)
  /-- `LZC` (R86): additional count K. -/
  | lzc (k : BitVec 5)
  /-- `RLES` (R87): the ignored bit X, NL = count − 4, the value V. -/
  | rles (x : BitVec 1) (n : BitVec 4) (v : Byte)
  /-- `RLEL` (R88): the ignored bit X, NH ++ NL = count − 4, the value V. -/
  | rlel (x : BitVec 1) (n : BitVec 12) (v : Byte)
  /-- `RAWS` (R89): length L. -/
  | raws (l : BitVec 5)
  /-- `RAWL` (R90): LH and LL; RAW_LONG_MODE says how they make the length. -/
  | rawl (lh : BitVec 5) (ll : Byte)
deriving DecidableEq, Repr

/-- Every instruction of opcode_table.json: six tokens and eight host commands. A command's operand is the register ARG,
so a command has a field only where its word does (SRC_READ, R100). -/
inductive Instr where
  | lz (c : BitVec 2) (pos : BitVec 13)
  | lzc (k : BitVec 5)
  | rles (x : BitVec 1) (n : BitVec 4) (v : Byte)
  | rlel (x : BitVec 1) (n : BitVec 12) (v : Byte)
  | raws (l : BitVec 5)
  | rawl (lh : BitVec 5) (ll : Byte)
  | decode
  | encode
  | srcSeek
  | srcRead (w : Width) (e : Endian)
  | winAppend
  | winGet
  | winFill
  | winSeek
deriving DecidableEq, Repr

/-- A token as an instruction. -/
def Token.toInstr : Token → Instr
  | .lz c pos => .lz c pos
  | .lzc k => .lzc k
  | .rles x n v => .rles x n v
  | .rlel x n v => .rlel x n v
  | .raws l => .raws l
  | .rawl lh ll => .rawl lh ll

end Sys2Proof
end

