-- ==== Sys2Proof/WellFormed.lean ====
section
/-! DEFINITION. Which instructions and token sequences are well formed (30_encoding.md R96, R102, R103;
70_reset_and_hazards.md R274, R277). -/

namespace Sys2Proof

/-- An instruction of R2 that is no reserved encoding: SRC_READ with width code 3 is one (R102). Every token is legal:
no control byte is illegal (R98), and an illegal operand value is a matter of the run, not of the encoding. -/
def Instr.wf : Instr → Bool
  | .srcRead .reserved _ => false
  | .srcRead .w8 _ => true
  | .srcRead .w16 _ => true
  | .srcRead .w32 _ => true
  | .lz _ _ => true
  | .lzc _ => true
  | .rles _ _ _ => true
  | .rlel _ _ _ => true
  | .raws _ => true
  | .rawl _ _ => true
  | .decode => true
  | .encode => true
  | .srcSeek => true
  | .winAppend => true
  | .winGet => true
  | .winFill => true
  | .winSeek => true

/-- Whether the decoder makes its continuation test after this token: after LZ and after LZC (R86). -/
def Token.opensContinuation : Token → Bool
  | .lz _ _ => true
  | .lzc _ => true
  | .rles _ _ _ => false
  | .rlel _ _ _ => false
  | .raws _ => false
  | .rawl _ _ => false

/-- Whether a token may stand where the continuation test is (`cont`) or is not made: LZC only directly after LZ or LZC,
an RLE control byte with bit 5 set never there (R96, R103, R274). -/
def Token.fitsAfter (cont : Bool) : Token → Bool
  | .lz _ _ => true
  | .lzc _ => cont
  | .rles x _ _ => !(cont && x == 1#1)
  | .rlel x _ _ => !(cont && x == 1#1)
  | .raws _ => true
  | .rawl _ _ => true

/-- Every token of the sequence fits after the one before it. -/
def Token.orderWf (cont : Bool) : List Token → Bool
  | [] => true
  | t :: ts => t.fitsAfter cont && Token.orderWf t.opensContinuation ts

/-- A token sequence a writer may put into a stream: in order (R274), and not opened by `RAWS 0`, whose zero byte is the
empty escape (R277). -/
def Token.streamWf (ts : List Token) : Bool :=
  Token.orderWf false ts && !(ts.head? == some (.raws 0#5))

end Sys2Proof
end

