-- ==== Sys2Proof/Decode.lean ====
section
/-! DEFINITION. The decoder and the encoder of tokens and command words (30_encoding.md R83 to R102), and the reading of an
opcode-table word. -/

namespace Sys2Proof

/-- Why the decoder reads no instruction. -/
inductive DecodeReject where
  /-- The bytes end before the token's fixed bytes do (a port read would overrun, R53). -/
  | truncated
  /-- At the continuation test the byte is no LZC byte; it is pushed back (R86, R137). -/
  | notContinuation
  /-- A reserved command code: 0x0 or 0x9..0xF (R102). -/
  | reservedCommand (op : BitVec 4)
deriving DecidableEq, Repr

/-- The classes of a control byte (R83, R135). -/
inductive TokenClass where
  | lz
  | rle
  | raw
deriving DecidableEq, Repr

/-- The class of a control byte: the tests of R83 in their order. -/
def classOf (c : Byte) : TokenClass :=
  if c.getLsbD 7 then .lz else if c.getLsbD 6 then .rle else .raw

/-- The pattern `0b011xxxxx` of an LZ continuation byte (R86). -/
def isContinuation (b : Byte) : Bool := b.extractLsb' 5 3 == 0b011#3

/-- Where the decoder stands: at dispatch, or at the continuation test after LZ or LZC (R84, R96). -/
inductive Context where
  | dispatch
  | continuation
deriving DecidableEq, Repr

/-- An LZ token: control byte 1CCPPPPP and the position-low byte (R85, R92). -/
def decodeLz (c : Byte) : List Byte → Except DecodeReject (Token × List Byte)
  | pl :: rest => .ok (.lz (c.extractLsb' 5 2) (c.extractLsb' 0 5 ++ pl), rest)
  | [] => .error .truncated

/-- An RLE token: 01X0NNNN V (R87), or 01X1NNNN NL V (R88). -/
def decodeRle (c : Byte) (bs : List Byte) : Except DecodeReject (Token × List Byte) :=
  if c.getLsbD 4 then
    match bs with
    | nl :: v :: rest => .ok (.rlel (c.extractLsb' 5 1) (c.extractLsb' 0 4 ++ nl) v, rest)
    | _ => .error .truncated
  else
    match bs with
    | v :: rest => .ok (.rles (c.extractLsb' 5 1) (c.extractLsb' 0 4) v, rest)
    | [] => .error .truncated

/-- The head of a RAW token: 000LLLLL (R89), or 001HHHHH LL (R90). -/
def decodeRaw (c : Byte) (bs : List Byte) : Except DecodeReject (Token × List Byte) :=
  if c.getLsbD 5 then
    match bs with
    | ll :: rest => .ok (.rawl (c.extractLsb' 0 5) ll, rest)
    | [] => .error .truncated
  else .ok (.raws (c.extractLsb' 0 5), bs)

/-- The token that a control byte opens at dispatch (R83 to R90), and the bytes after it. -/
def decodeAtDispatch (c : Byte) (bs : List Byte) : Except DecodeReject (Token × List Byte) :=
  match classOf c with
  | .lz => decodeLz c bs
  | .rle => decodeRle c bs
  | .raw => decodeRaw c bs

/-- The token at the head of the bytes, and the bytes after it (R84). -/
def decodeToken (ctx : Context) (bs : List Byte) : Except DecodeReject (Token × List Byte) :=
  match bs with
  | [] => .error .truncated
  | c :: rest =>
    match ctx with
    | .dispatch => decodeAtDispatch c rest
    | .continuation =>
      if isContinuation c then .ok (.lzc (c.extractLsb' 0 5), rest) else .error .notContinuation

/-- The width code W = CMD[6:5] (R100). -/
def widthOf (w : Word) : Width :=
  match (w.extractLsb' 5 2).toNat with
  | 0 => .w8
  | 1 => .w16
  | 2 => .w32
  | _ => .reserved

/-- The byte-order flag E = CMD[4]: 0 little-endian, 1 big-endian (R100). -/
def endianOf (w : Word) : Endian := if w.getLsbD 4 then .be else .le

/-- The command of a word written to CMD: OP = CMD[3:0] (R100, R101); the reserved codes are rejected by name (R102).
SRC_READ with W = 3 is read with its reserved width, and raises BadCommand when run (R214). -/
def decodeCommand (w : Word) : Except DecodeReject Instr :=
  match (w.extractLsb' 0 4).toNat with
  | 1 => .ok .decode
  | 2 => .ok .encode
  | 3 => .ok .srcSeek
  | 4 => .ok (.srcRead (widthOf w) (endianOf w))
  | 5 => .ok .winAppend
  | 6 => .ok .winGet
  | 7 => .ok .winFill
  | 8 => .ok .winSeek
  | _ => .error (.reservedCommand (w.extractLsb' 0 4))

/-- Where an instruction's bits come from: the bytes of a stream, or a word written to CMD. -/
inductive Source where
  | stream (ctx : Context) (bytes : List Byte)
  | command (w : Word)
deriving DecidableEq, Repr

/-- The instruction of a source, and the stream bytes after it. Total on every source. -/
def decode : Source → Except DecodeReject (Instr × List Byte)
  | .stream ctx bs =>
    match decodeToken ctx bs with
    | .ok (t, rest) => .ok (t.toInstr, rest)
    | .error e => .error e
  | .command w =>
    match decodeCommand w with
    | .ok i => .ok (i, [])
    | .error e => .error e

/-! ## The encoder -/

/-- The control byte and operand bytes of a token (R85 to R90), without the literal bytes of a RAW token. -/
def encodeToken : Token → List Byte
  | .lz c pos => [1#1 ++ c ++ pos.extractLsb' 8 5, pos.extractLsb' 0 8]
  | .lzc k => [0b011#3 ++ k]
  | .rles x n v => [0b01#2 ++ x ++ 0#1 ++ n, v]
  | .rlel x n v => [0b01#2 ++ x ++ 1#1 ++ n.extractLsb' 8 4, n.extractLsb' 0 8, v]
  | .raws l => [0b000#3 ++ l]
  | .rawl lh ll => [0b001#3 ++ lh, ll]

/-- The context in which the decoder recognises a token (R84). -/
def Token.context : Token → Context
  | .lzc _ => .continuation
  | .lz _ _ => .dispatch
  | .rles _ _ _ => .dispatch
  | .rlel _ _ _ => .dispatch
  | .raws _ => .dispatch
  | .rawl _ _ => .dispatch

/-- The code of a width (R100). -/
def Width.code : Width → BitVec 2
  | .w8 => 0#2
  | .w16 => 1#2
  | .w32 => 2#2
  | .reserved => 3#2

/-- The code of a byte order (R100). -/
def Endian.code : Endian → BitVec 1
  | .le => 0#1
  | .be => 1#1

/-- The word whose command code is `op` and whose other bits are zero (R100). -/
def opWord (op : BitVec 4) : Word := 0#28 ++ op

/-- The source of an instruction, its ignored bits zero (R85 to R90, R100, R101). -/
def encode : Instr → Source
  | .lz c pos => .stream .dispatch (encodeToken (.lz c pos))
  | .lzc k => .stream .continuation (encodeToken (.lzc k))
  | .rles x n v => .stream .dispatch (encodeToken (.rles x n v))
  | .rlel x n v => .stream .dispatch (encodeToken (.rlel x n v))
  | .raws l => .stream .dispatch (encodeToken (.raws l))
  | .rawl lh ll => .stream .dispatch (encodeToken (.rawl lh ll))
  | .decode => .command (opWord 1#4)
  | .encode => .command (opWord 2#4)
  | .srcSeek => .command (opWord 3#4)
  | .srcRead w e => .command (0#25 ++ w.code ++ e.code ++ 4#4)
  | .winAppend => .command (opWord 5#4)
  | .winGet => .command (opWord 6#4)
  | .winFill => .command (opWord 7#4)
  | .winSeek => .command (opWord 8#4)

/-! ## Words of the opcode table -/

/-- The first three bytes of a table word, first byte first: the longest token head, RLEL's (R95). -/
def tableBytes (w : Nat) : List Byte := [BitVec.ofNat 8 w, BitVec.ofNat 8 (w >>> 8), BitVec.ofNat 8 (w >>> 16)]

/-- Whether a table word is a command word. The table numbers tokens and commands from the same bit 0, so the word alone
does not say: a word of 32 bits or more that holds a command code, and a word of at most 8 bits that is a command code and
nothing else (log 9). -/
def isTableCommand (nbits w : Nat) : Bool :=
  match decodeCommand (BitVec.ofNat 32 w) with
  | .ok _ => decide (32 ≤ nbits) || (decide (nbits ≤ 8) && decide (w < 16))
  | .error _ => false

/-- The source of a table word. A byte that fits the LZC row is read where LZC is recognised (R84; log 9). -/
def tableSource (nbits w : Nat) : Source :=
  if isTableCommand nbits w then .command (BitVec.ofNat 32 w)
  else .stream (if isContinuation (BitVec.ofNat 8 w) then .continuation else .dispatch) (tableBytes w)

/-- The instruction the decoder reads from a table word whose bits above `nbits` are zero. -/
def decodeTableWord (nbits w : Nat) : Option Instr :=
  match decode (tableSource nbits w) with
  | .ok (i, _) => some i
  | .error _ => none

end Sys2Proof
end

