-- ==== Sys2Proof/Machine/State.lean ====
section
/-! DEFINITION. The state of the block (10_state.md R20 to R40), its stops, and the state after reset. -/

namespace Sys2Proof.Machine

/-- STATUS.STATE (R28). The value 3 is never held, so it has no constructor. -/
inductive Status where
  | idle
  | done
  | error
deriving DecidableEq, Repr

/-- The error kinds (R240). -/
inductive ErrKind where
  | outOfBounds
  | corruptStream
  | invalidInput
  | outputOverflow
  | badCommand
deriving DecidableEq, Repr

/-- What a memory cell reads as that the memory does not list. -/
inductive Background where
  /-- Any value: the free byte of this draw at the cell's address (R40, R245; log 2). -/
  | free (draw : Nat)
  /-- The value a fill wrote to every cell (R113). -/
  | filled (v : Byte)
deriving DecidableEq, Repr

/-- A byte memory: the cells written since its background was set, by rising address, none of them equal to a filled
background. -/
structure Memory where
  background : Background
  cells : List Host.Cell
deriving DecidableEq, Repr

/-- DSTATE: the decoder's states (R35, R130). -/
inductive DState where
  | readingHeader
  | dispatchingToken
  | handlingLZ
  | handlingLZC
  | handlingRLE
  | handlingRAW
  | done
  | failed
deriving DecidableEq, Repr

/-- The internal registers of a running DECODE (R35). -/
structure DecoderRegs where
  dstate : DState
  base : Word
  decl : BitVec 16
  endAddr : BitVec 33
  ctrl : Byte
  pos : BitVec 13
  cnt : BitVec 13
  val : Byte
deriving DecidableEq, Repr

/-- The internal registers of a running ENCODE (R36). -/
structure EncoderRegs where
  p : Word
  rl : BitVec 13
  ml : Word
  mo : BitVec 13
deriving DecidableEq, Repr

/-- Which command runs, with its internal registers; they exist only while it runs (R20, R40). -/
inductive Engine where
  | idle
  | decoding (r : DecoderRegs)
  | encoding (r : EncoderRegs)
deriving DecidableEq, Repr

/-- What the host can do (R210, R220 to R223, R270). -/
inductive HostAction where
  /-- Write byte v to IN at address a (R220). -/
  | loadIn (a : Word) (v : Byte)
  /-- Write a register by index (R222); index 8 issues a command (R210). -/
  | writeReg (index : Nat) (w : Word)
  /-- Read a register by index (R223). -/
  | readReg (index : Nat)
  /-- Read OUT at index i (R221). -/
  | readOut (i : Word)
  /-- Reset the block (R270). -/
  | reset
deriving DecidableEq, Repr

/-- The state: the eleven pieces of R20, the internal registers of a running command (R35, R36), the instance's parameters
(R6; log 4), and the model's own fields `pending`, `reply` (log 3) and `draws` (log 2). -/
structure State where
  /-- The parameters of the instance; no step changes them (R6). -/
  cfg : Config
  /-- IN (R21). -/
  inMem : Memory
  /-- IN_LEN (R22). -/
  inLen : Word
  /-- SRC_CUR (R23). -/
  srcCur : Word
  /-- OUT (R24). -/
  outMem : Memory
  /-- OUT_LEN (R25). -/
  outLen : Word
  /-- WIN (R26). -/
  win : Memory
  /-- WIN_CUR (R27). -/
  winCur : BitVec 13
  /-- STATUS.STATE (R28). -/
  status : Status
  /-- ERRCODE.CODE (R29); `none` is the code NONE = 0. -/
  errCode : Option ErrKind
  /-- ARG (R30). -/
  arg : Word
  /-- RESULT (R33). -/
  result : Word
  /-- The running command's internal registers (R35, R36). -/
  engine : Engine
  /-- The host actions still to come, in order. -/
  pending : List HostAction
  /-- What the last host action gave back; `none` where it gives nothing back. -/
  reply : Option Word
  /-- The number of free draws taken so far. -/
  draws : Nat
deriving DecidableEq, Repr

/-- Why the machine stops with a fault. The errors of R240 are no faults: they end a command in a next state (R245). -/
inductive Fault where
  /-- Raised by the meaning of a token where no running DECODE stands in that token's handling state (R130). Safe (log 8):
  the spec gives a token no effect there, and no step of the machine asks for one. -/
  | tokenOutOfPlace
deriving DecidableEq, Repr

/-- Why the machine refuses an instruction. -/
inductive Refusal where
  /-- Raised by `exec` for an instruction without a meaning. Safe. -/
  | notModelled (mnemonic : String)
deriving DecidableEq, Repr

/-- A memory of free contents: nothing listed (R40). -/
def Memory.unwritten (draw : Nat) : Memory := { background := .free draw, cells := [] }

/-- The state right after reset of an instance with parameters `c` (R40, R271): every register 0, IDLE, NONE, no command
running, the contents of IN, OUT and WIN any value: the free draws d, d + 1, d + 2. -/
def State.resetWith (c : Config) (d : Nat) (todo : List HostAction) : State :=
  { cfg := c
    inMem := Memory.unwritten d, inLen := 0#32, srcCur := 0#32
    outMem := Memory.unwritten (d + 1), outLen := 0#32
    win := Memory.unwritten (d + 2), winCur := 0#13
    status := .idle, errCode := none, arg := 0#32, result := 0#32
    engine := .idle, pending := todo, reply := none, draws := d + 3 }

/-- The state right after power-on reset, the host having asked for nothing yet (log 3, log 4). -/
def State.reset : State := State.resetWith Config.default 0 []

end Sys2Proof.Machine
end

