-- ==== Sys2Proof/Machine/Flags.lean ====
section
/-! DEFINITION. STATUS and ERRCODE: their words and their update at the end of a command (10_state.md R28, R29;
43_commands.md R224; 60_exceptions.md R247). The block has no other flags (R37). -/

namespace Sys2Proof.Machine

/-- STATUS as the host reads it: STATE in bits 1:0, the reserved bits 0 (R28). -/
def Status.word : Status → Word
  | .idle => 0#32
  | .done => 1#32
  | .error => 2#32

/-- The code of an error kind (R247). -/
def ErrKind.code : ErrKind → Word
  | .outOfBounds => 1#32
  | .corruptStream => 2#32
  | .invalidInput => 3#32
  | .outputOverflow => 4#32
  | .badCommand => 5#32

/-- ERRCODE as the host reads it: CODE in bits 2:0, the reserved bits 0 (R29). -/
def errWord : Option ErrKind → Word
  | none => 0#32
  | some e => e.code

/-- The end of a command that succeeded: DONE and NONE (R224). -/
def State.succeed (s : State) : State := { s with status := .done, errCode := none }

/-- The status of a command that failed with error kind e: ERROR and its code (R224). -/
def State.failWith (e : ErrKind) (s : State) : State := { s with status := .error, errCode := some e }

end Sys2Proof.Machine
end

