-- ==== Sys2Proof/Machine/Ops.lean ====
section
/-! DEFINITION. The shared operations: byte memories, the byte port (20_memory.md), the window (40_window.md), appending to
OUT, and raising an error (60_exceptions.md R245). -/

namespace Sys2Proof.Machine

/-! ## Byte memories -/

/-- The byte listed at address a, if one is. -/
def cellsRead (a : Nat) : List Host.Cell → Option Byte
  | [] => none
  | (x, v) :: t => if x = a then some v else cellsRead a t

/-- List byte b at address a, by rising address. -/
def cellsWrite (a : Nat) (b : Byte) : List Host.Cell → List Host.Cell
  | [] => [(a, b)]
  | (x, v) :: t =>
    if a < x then (a, b) :: (x, v) :: t else if a = x then (a, b) :: t else (x, v) :: cellsWrite a b t

/-- List nothing at address a. -/
def cellsErase (a : Nat) : List Host.Cell → List Host.Cell
  | [] => []
  | (x, v) :: t => if a = x then t else (x, v) :: cellsErase a t

/-- Addresses rise strictly, all of them above `lo` where one is given. -/
def cellsRising (lo : Option Nat) : List Host.Cell → Bool
  | [] => true
  | (x, _) :: t => (match lo with | none => true | some l => decide (l < x)) && cellsRising (some x) t

/-- Every listed address is below n. -/
def cellsBelow (n : Nat) (cs : List Host.Cell) : Bool := cs.all fun c => decide (c.1 < n)

/-- The byte of an unlisted cell: the free byte of its draw (R40, R245), or the fill (R113). -/
def Background.byteAt (a : Nat) : Background → Byte
  | .free d => Config.freeByte d a
  | .filled v => v

/-- The byte at address a. -/
def Memory.read (m : Memory) (a : Nat) : Byte :=
  match cellsRead a m.cells with
  | some b => b
  | none => m.background.byteAt a

/-- The memory with byte b at address a, in canonical form: writing what a filled background reads as lists nothing. -/
def Memory.write (m : Memory) (a : Nat) (b : Byte) : Memory :=
  if m.background = .filled b then { m with cells := cellsErase a m.cells }
  else { m with cells := cellsWrite a b m.cells }

/-- The memory with every cell v (R113). -/
def Memory.fillAll (v : Byte) : Memory := { background := .filled v, cells := [] }

/-- The canonical form: rising addresses, no listed byte equal to what an unlisted cell reads as. A free background has no
value a listed byte could be compared with (log 2). -/
def Memory.wf (m : Memory) : Bool :=
  cellsRising none m.cells && m.cells.all fun c => !(m.background == .filled c.2)

/-- The bytes at addresses a, a + 1, ..., a + n − 1. -/
def Memory.bytes (m : Memory) (a : Nat) : Nat → List Byte
  | 0 => []
  | n + 1 => m.read a :: m.bytes (a + 1) n

/-- The memory with the bytes of the list at a, a + 1, ... -/
def Memory.writeAll (m : Memory) (a : Nat) : List Byte → Memory
  | [] => m
  | b :: bs => (m.write a b).writeAll (a + 1) bs

/-! ## The byte port (20_memory.md R53 to R61) -/

/-- `IN[a]` (R8). -/
def State.inByte (s : State) (a : Nat) : Byte := s.inMem.read a

/-- `OUT[i]` (R8). -/
def State.outByte (s : State) (i : Nat) : Byte := s.outMem.read i

/-- `MemRead(IN, a, n)` (R53): nothing where the read overruns. -/
def State.memRead (s : State) (a n : Nat) : Option (List Byte) :=
  if a + n ≤ s.inLen.toNat then some (s.inMem.bytes a n) else none

/-- SRC_CUR moved on by n bytes. -/
def State.advance (n : Nat) (s : State) : State := { s with srcCur := s.srcCur + BitVec.ofNat 32 n }

/-- A port read of n bytes: the bytes and SRC_CUR moved past them, or an overrun that changes nothing (R53, R65). -/
def State.portRead (n : Nat) (s : State) : Option (List Byte × State) :=
  match s.memRead s.srcCur.toNat n with
  | some bs => some (bs, s.advance n)
  | none => none

/-- The unsigned value of bytes, the first least significant. -/
def littleEndian : List Byte → Nat
  | [] => 0
  | b :: bs => b.toNat + 256 * littleEndian bs

/-- The value of port bytes in a byte order (R55, R56). The byte significance is the standard meaning of the two terms
(PRESUMED, log 11). -/
def portValue (e : Endian) (bs : List Byte) : Word :=
  match e with
  | .le => BitVec.ofNat 32 (littleEndian bs)
  | .be => BitVec.ofNat 32 (littleEndian bs.reverse)

/-- `ReadU8()` (R54) before zero-extension; `none` is an overrun. -/
def State.readU8 (s : State) : Option (Byte × State) :=
  match s.portRead 1 with
  | some ([b], s1) => some (b, s1)
  | _ => none

/-- `ReadU16(e)` (R55). -/
def State.readU16 (e : Endian) (s : State) : Option (Word × State) :=
  match s.portRead 2 with
  | some (bs, s1) => some (portValue e bs, s1)
  | none => none

/-- `ReadU32(e)` (R56). -/
def State.readU32 (e : Endian) (s : State) : Option (Word × State) :=
  match s.portRead 4 with
  | some (bs, s1) => some (portValue e bs, s1)
  | none => none

/-- `Peek()` (R57). -/
def State.peek (s : State) : Option Byte :=
  if s.srcCur.toNat < s.inLen.toNat then some (s.inByte s.srcCur.toNat) else none

/-- The bytes from SRC_CUR on that a port read could still return, at most n of them. -/
def State.streamBytes (n : Nat) (s : State) : List Byte :=
  s.inMem.bytes s.srcCur.toNat (min n (s.inLen.toNat - s.srcCur.toNat))

/-- `SetCursor(a)` (R60): nothing where the seek fails. -/
def State.setCursor (a : Word) (s : State) : Option State :=
  if a.toNat ≤ s.inLen.toNat then some { s with srcCur := a } else none

/-! ## OUT (20_memory.md R58, R59) -/

/-- `OutAppend(v)` (R58). -/
def State.outAppend (v : Byte) (s : State) : Except ErrKind State :=
  if s.outLen = s.cfg.outCap then .error .outputOverflow
  else .ok { s with outMem := s.outMem.write s.outLen.toNat v, outLen := s.outLen + 1#32 }

/-- `OutAppend` of each byte of a list, in order. -/
def State.appendAll : List Byte → State → Except ErrKind State
  | [], s => .ok s
  | b :: bs, s =>
    match s.outAppend b with
    | .ok s1 => s1.appendAll bs
    | .error e => .error e

/-- `BackRef(pos)` (R59). -/
def State.backRef (pos : Nat) (s : State) : Except ErrKind Byte :=
  if pos = 0 ∨ s.outLen.toNat < pos then .error .corruptStream
  else .ok (s.outByte (s.outLen.toNat - pos))

/-- `repeat n: OutAppend(BackRef(pos))` (R136, R137). -/
def State.copyBack (pos : Nat) : Nat → State → Except ErrKind State
  | 0, s => .ok s
  | n + 1, s =>
    match s.backRef pos with
    | .error e => .error e
    | .ok b =>
      match s.outAppend b with
      | .error e => .error e
      | .ok s1 => s1.copyBack pos n

/-- `repeat n: OutAppend(v)` (R138, R139). -/
def State.appendRun (v : Byte) : Nat → State → Except ErrKind State
  | 0, s => .ok s
  | n + 1, s =>
    match s.outAppend v with
    | .error e => .error e
    | .ok s1 => s1.appendRun v n

/-- `repeat n: v <- ReadU8(); OutAppend(v)` (R140, R141): the read before the append (R248). -/
def State.copyLiterals : Nat → State → Except ErrKind State
  | 0, s => .ok s
  | n + 1, s =>
    match s.readU8 with
    | none => .error .corruptStream
    | some (v, s1) =>
      match s1.outAppend v with
      | .error e => .error e
      | .ok s2 => s2.copyLiterals n

/-! ## The window (40_window.md R111 to R114) -/

/-- `WinAppend(b)` (R111); the 13-bit cursor wraps at N. -/
def State.winAppend (b : Byte) (s : State) : State :=
  { s with win := s.win.write s.winCur.toNat b, winCur := s.winCur + 1#13 }

/-- `WinGet(o)` (R112): floor modulo for a negative position (PRESUMED, log 11). -/
def State.winGet (o : Int) (s : State) : Byte := s.win.read (o % (Config.winSize : Int)).toNat

/-- `WinFill(v)` (R113): every cell, the cursor unchanged. -/
def State.winFill (v : Byte) (s : State) : State := { s with win := Memory.fillAll v }

/-- `WinSeek(c)` (R114). -/
def State.winSeek (c : Nat) (s : State) : State := { s with winCur := BitVec.ofNat 13 (c % Config.winSize) }

/-! ## The running command -/

/-- The decoder's registers, while a DECODE runs. -/
def State.withDecoder (r : DecoderRegs) (s : State) : State := { s with engine := .decoding r }

/-- The encoder's registers, while an ENCODE runs. -/
def State.withEncoder (r : EncoderRegs) (s : State) : State := { s with engine := .encoding r }

/-- No command runs: its internal registers are gone (R40). -/
def State.endCommand (s : State) : State := { s with engine := .idle }

/-! ## Raising an error (60_exceptions.md R245) -/

/-- What of R245 applies: which command raises the error, and whether DECODE's entry seek or ENCODE's window reset had
been made. -/
inductive RaisePoint where
  /-- A port or window command, or a reserved command word. -/
  | command
  /-- DECODE, at its entry seek (R131). -/
  | decodeEntry
  /-- DECODE, after its entry seek. -/
  | decodeRunning
  /-- ENCODE, before its window reset (R171). -/
  | encodeEntry
  /-- ENCODE, after its window reset. -/
  | encodeRunning
deriving DecidableEq, Repr

/-- `OUT_LEN <- 0; OUT <- any value` (R245). -/
def State.dropOut (s : State) : State :=
  { s with outLen := 0#32, outMem := Memory.unwritten s.draws, draws := s.draws + 1 }

/-- `SRC_CUR <- any value in [0, IN_LEN]` (R245; log 5). -/
def State.freeCursor (s : State) : State :=
  { s with srcCur := BitVec.ofNat 32 ((Config.freeWord s.draws).toNat % (s.inLen.toNat + 1)), draws := s.draws + 1 }

/-- `WIN <- any value; WIN_CUR <- any value in [0, N)` (R245; log 5). -/
def State.freeWindow (s : State) : State :=
  { s with
    win := Memory.unwritten s.draws
    winCur := BitVec.ofNat 13 ((Config.freeWord (s.draws + 1)).toNat % Config.winSize)
    draws := s.draws + 2 }

/-- DSTATE becomes Failed (R130); outside a DECODE there is nothing to mark. -/
def Engine.fail : Engine → Engine
  | .decoding r => .decoding { r with dstate := .failed }
  | .encoding _ => .idle
  | .idle => .idle

/-- `raise E` (R245): the one shared operation that ends a command with an error. Nothing but what it names changes; no
faulting address and no partial count is recorded. -/
def raiseError (e : ErrKind) (at_ : RaisePoint) (s : State) : State :=
  match at_ with
  | .command => s.failWith e
  | .decodeEntry => (s.failWith e).dropOut
  | .encodeEntry => (s.failWith e).dropOut
  | .decodeRunning => { ((s.failWith e).dropOut).freeCursor with engine := s.engine.fail }
  | .encodeRunning => { ((s.failWith e).dropOut).freeWindow with engine := s.engine.fail }

end Sys2Proof.Machine
end

