-- ==== Sys2Proof/Machine/Operands.lean ====
section
/-! DEFINITION. Operand assembly: counts, positions and lengths of tokens (30_encoding.md R91 to R95), and the operands the
commands take from ARG (43_commands.md R211 to R218). -/

namespace Sys2Proof.Machine

/-- LZ count (R91): C + 4. -/
def lzCount (c : BitVec 2) : Nat := c.toNat + 4

/-- LZ count as the source computes it (R91): `rotl_8(ctrl & 0x60, 3) + 4`. -/
def lzCountOfControl (ctrl : Byte) : Nat := ((ctrl &&& 0x60#8).rotateLeft 3).toNat + 4

/-- LZC count (R86): K. -/
def lzcCount (k : BitVec 5) : Nat := k.toNat

/-- Short RLE count (R93). -/
def rlesCount (n : BitVec 4) : Nat := n.toNat + 4

/-- Long RLE count (R93). -/
def rlelCount (n : BitVec 12) : Nat := n.toNat + 4

/-- Short RAW length (R94). -/
def rawsLength (l : BitVec 5) : Nat := l.toNat

/-- Long RAW length (R94): LH ++ LL in Wide13, LL in Byte8. -/
def rawlLength (mode : RawLongMode) (lh : BitVec 5) (ll : Byte) : Nat :=
  match mode with
  | .wide13 => (lh ++ ll).toNat
  | .byte8 => ll.toNat

/-- The bytes of a token's control byte and operands, without literals (R95). -/
def headLength : Token → Nat
  | .lz _ _ => 2
  | .lzc _ => 1
  | .rles _ _ _ => 2
  | .rlel _ _ _ => 3
  | .raws _ => 1
  | .rawl _ _ => 2

/-- The literal bytes that follow a token's head (R95). -/
def literalLength (mode : RawLongMode) : Token → Nat
  | .lz _ _ => 0
  | .lzc _ => 0
  | .rles _ _ _ => 0
  | .rlel _ _ _ => 0
  | .raws l => rawsLength l
  | .rawl lh ll => rawlLength mode lh ll

/-- ARG[7:0]: the operand of WIN_APPEND and WIN_FILL (R215, R217). -/
def State.argByte (s : State) : Byte := s.arg.extractLsb' 0 8

/-- ARG as a signed 32-bit value: the operand of WIN_GET (R216). -/
def State.argInt (s : State) : Int := s.arg.toInt

/-- ARG as an unsigned value: the operand of DECODE, SRC_SEEK and WIN_SEEK (R211, R213, R218). -/
def State.argNat (s : State) : Nat := s.arg.toNat

end Sys2Proof.Machine
end

