-- ==== Sys2Proof/Machine/Tokens.lean ====
section
/-! DEFINITION. The meanings of the six tokens (41_decoder.md R136 to R141). A meaning runs in its handling state of a running
DECODE, with SRC_CUR behind the token's head: the dispatch has read the control byte and the operand bytes. -/

namespace Sys2Proof.Machine

/-- The registers of a running DECODE that stands in handling state d. -/
def State.inHandler (d : DState) (s : State) : Option DecoderRegs :=
  match s.engine with
  | .decoding r => if r.dstate = d then some r else none
  | .encoding _ => none
  | .idle => none

/-- The end of a token: the next DSTATE, or the error that ended it (R136 to R141, R245). -/
def endToken (r : DecoderRegs) (d : DState) (s : State) :
    Except ErrKind State → Host.Outcome State Fault Refusal
  | .ok s1 => .next (s1.withDecoder { r with dstate := d })
  | .error e => .next (raiseError e .decodeRunning (s.withDecoder r))

/-- `LZ` (R136): C + 4 bytes, each the byte `pos` back from the output as it stands then. -/
def execLz (c : BitVec 2) (pos : BitVec 13) (s : State) : Host.Outcome State Fault Refusal :=
  match s.inHandler .handlingLZ with
  | none => .fault .tokenOutOfPlace
  | some r =>
    endToken { r with pos := pos, cnt := BitVec.ofNat 13 (lzCount c) } .handlingLZC s
      (s.copyBack pos.toNat (lzCount c))

/-- `LZC` (R137): K more bytes at the position of the LZ token. -/
def execLzc (k : BitVec 5) (s : State) : Host.Outcome State Fault Refusal :=
  match s.inHandler .handlingLZC with
  | none => .fault .tokenOutOfPlace
  | some r =>
    endToken { r with cnt := BitVec.ofNat 13 (lzcCount k) } .handlingLZC s (s.copyBack r.pos.toNat (lzcCount k))

/-- `RLES` (R138): NL + 4 copies of V; bit 5 of the control byte is ignored. -/
def execRles (_x : BitVec 1) (n : BitVec 4) (v : Byte) (s : State) : Host.Outcome State Fault Refusal :=
  match s.inHandler .handlingRLE with
  | none => .fault .tokenOutOfPlace
  | some r =>
    endToken { r with cnt := BitVec.ofNat 13 (rlesCount n), val := v } .dispatchingToken s
      (s.appendRun v (rlesCount n))

/-- `RLEL` (R139): (NH ++ NL) + 4 copies of V; bit 5 of the control byte is ignored. -/
def execRlel (_x : BitVec 1) (n : BitVec 12) (v : Byte) (s : State) : Host.Outcome State Fault Refusal :=
  match s.inHandler .handlingRLE with
  | none => .fault .tokenOutOfPlace
  | some r =>
    endToken { r with cnt := BitVec.ofNat 13 (rlelCount n), val := v } .dispatchingToken s
      (s.appendRun v (rlelCount n))

/-- `RAWS` (R140): L literal bytes from the stream. -/
def execRaws (l : BitVec 5) (s : State) : Host.Outcome State Fault Refusal :=
  match s.inHandler .handlingRAW with
  | none => .fault .tokenOutOfPlace
  | some r =>
    endToken { r with cnt := BitVec.ofNat 13 (rawsLength l) } .dispatchingToken s (s.copyLiterals (rawsLength l))

/-- `RAWL` (R141): LH ++ LL literal bytes in Wide13, LL in Byte8. -/
def execRawl (lh : BitVec 5) (ll : Byte) (s : State) : Host.Outcome State Fault Refusal :=
  match s.inHandler .handlingRAW with
  | none => .fault .tokenOutOfPlace
  | some r =>
    endToken { r with cnt := BitVec.ofNat 13 (rawlLength s.cfg.rawLongMode lh ll) } .dispatchingToken s
      (s.copyLiterals (rawlLength s.cfg.rawLongMode lh ll))

end Sys2Proof.Machine
end

