-- ==== Sys2Proof/Machine/Decoder.lean ====
section
/-! DEFINITION. The decoder: its internal transitions (41_decoder.md R130 to R143) and the DECODE command (43_commands.md
R211). -/

namespace Sys2Proof.Machine

/-- The meaning of a decoded token. -/
def runToken (t : Token) (s : State) : Host.Outcome State Fault Refusal :=
  match t with
  | .lz c pos => execLz c pos s
  | .lzc k => execLzc k s
  | .rles x n v => execRles x n v s
  | .rlel x n v => execRlel x n v s
  | .raws l => execRaws l s
  | .rawl lh ll => execRawl lh ll s

/-- The handling state of a class (R134). -/
def handlerOf : TokenClass → DState
  | .lz => .handlingLZ
  | .rle => .handlingRLE
  | .raw => .handlingRAW

/-- CorruptStream in a running DECODE (R242). -/
def corrupt (s : State) : Host.Outcome State Fault Refusal := .next (raiseError .corruptStream .decodeRunning s)

/-- DSTATE set in a running DECODE. -/
def toState (r : DecoderRegs) (d : DState) (s : State) : Host.Outcome State Fault Refusal :=
  .next (s.withDecoder { r with dstate := d })

/-- ReadingHeader (R132, R133): the little-endian header, then the empty escape. DECL and END are written, then the third
byte is tested before any use of them. -/
def readHeader (r : DecoderRegs) (s : State) : Host.Outcome State Fault Refusal :=
  match s.readU16 .le with
  | none => corrupt s
  | some (decl, s1) =>
    let r1 := { r with decl := decl.setWidth 16, endAddr := r.base.setWidth 33 + decl.setWidth 33 }
    match s1.peek with
    | none => corrupt (s1.withDecoder r1)
    | some t => if t = 0x00#8 then toState r1 .done s1 else toState r1 .dispatchingToken s1

/-- The state in which a token's meaning runs: SRC_CUR moved past its operand bytes, DSTATE the handling state of its
class. -/
def handling (r : DecoderRegs) (operands : Nat) (s : State) : State :=
  (s.advance operands).withDecoder { r with dstate := handlerOf (classOf r.ctrl) }

/-- HandlingLZ, HandlingRLE, HandlingRAW (R136, R138 to R141): the token that the control byte in CTRL and the bytes at
SRC_CUR make; CorruptStream where an operand byte cannot be read. -/
def handleToken (r : DecoderRegs) (s : State) : Host.Outcome State Fault Refusal :=
  match decodeToken .dispatch (r.ctrl :: s.streamBytes 2) with
  | .ok (t, _) => runToken t (handling r (headLength t - 1) s)
  | .error _ => corrupt s

/-- The end-of-stream check (R142). -/
def endCheck (r : DecoderRegs) (s : State) : Host.Outcome State Fault Refusal :=
  if s.srcCur.toNat = r.endAddr.toNat then toState r .done s else corrupt s

/-- DispatchingToken (R134): below END the next token is read and run; otherwise the end-of-stream check. -/
def dispatchToken (r : DecoderRegs) (s : State) : Host.Outcome State Fault Refusal :=
  if s.srcCur.toNat < r.endAddr.toNat then
    match s.readU8 with
    | none => corrupt s
    | some (c, s1) => handleToken { r with ctrl := c } s1
  else endCheck r s

/-- HandlingLZC (R137): the byte at SRC_CUR is run as an LZC byte, or stays where it is and dispatch follows; END is not
looked at. CorruptStream where no byte is there. -/
def continuationTest (r : DecoderRegs) (s : State) : Host.Outcome State Fault Refusal :=
  match decodeToken .continuation (s.streamBytes 1) with
  | .ok (t, _) => runToken t ((s.advance 1).withDecoder r)
  | .error .notContinuation => toState r .dispatchingToken s
  | .error .truncated => corrupt s
  | .error (.reservedCommand _) => corrupt s

/-- One internal transition of a running DECODE (R130). Done ends the command with success (R143); Failed ends it after the
error that R245 has recorded. -/
def decoderStep (r : DecoderRegs) (s : State) : Host.Outcome State Fault Refusal :=
  match r.dstate with
  | .readingHeader => readHeader r s
  | .dispatchingToken => dispatchToken r s
  | .handlingLZ => handleToken r s
  | .handlingLZC => continuationTest r s
  | .handlingRLE => handleToken r s
  | .handlingRAW => handleToken r s
  | .done => .next s.succeed.endCommand
  | .failed => .next s.endCommand

/-- The transitions of a running DECODE, at most n of them, until the command has ended. -/
def decoderRun : Nat → State → Host.Outcome State Fault Refusal
  | 0, s => .next s
  | n + 1, s =>
    match s.engine with
    | .decoding r =>
      match decoderStep r s with
      | .next s1 => decoderRun n s1
      | .fault f => .fault f
      | .refused f => .refused f
    | .encoding _ => .next s
    | .idle => .next s

/-- The registers a DECODE enters with (R131). CTRL, POS, CNT, VAL, DECL and END are written before any rule reads them
(DESIGN CHOICE: 0 until then, log 7). -/
def DecoderRegs.enter (base : Word) : DecoderRegs :=
  { dstate := .readingHeader, base := base, decl := 0#16, endAddr := 0#33, ctrl := 0#8, pos := 0#13, cnt := 0#13,
    val := 0#8 }

/-- The entry of DECODE behind its seek (R131). -/
def decodeEntry (s : State) : State :=
  { s with srcCur := s.arg, outLen := 0#32, engine := .decoding (DecoderRegs.enter s.arg) }

/-- A number of transitions within which every DECODE ends (R144): the header, at most two for each byte of IN (a token or
LZC byte, and a push-back), the end check, and the end. -/
def decodeFuel (s : State) : Nat := 2 * s.inLen.toNat + 4

/-- `DECODE` (R211): the entry seek of R131, then the transitions until the command has ended. -/
def execDecode (s : State) : Host.Outcome State Fault Refusal :=
  match s.setCursor s.arg with
  | none => .next (raiseError .outOfBounds .decodeEntry s)
  | some _ => decoderRun (decodeFuel s) (decodeEntry s)

end Sys2Proof.Machine
end

