-- ==== Sys2Proof/Machine/Encoder.lean ====
section
/-! DEFINITION. The encoder: run detector, match finder, literal accumulator, token emission (42_encoder.md R170 to R191), and
the ENCODE command (43_commands.md R212). -/

namespace Sys2Proof.Machine

/-! ## Run detector and match finder (R173, R174) -/

/-- How many of the n bytes from address a on equal v before the first that does not. -/
def runAt (m : Memory) (v : Byte) (a : Nat) : Nat → Nat
  | 0 => 0
  | n + 1 => if m.read a = v then runAt m v (a + 1) n + 1 else 0

/-- `RleLen(p)` (R173): the run of IN[p] from p on, at most RLE_MAX long and inside the input. -/
def rleLen (s : State) (p : Nat) : Nat :=
  runAt s.inMem (s.inByte p) (p + 1) (min Config.rleMax (s.inLen.toNat - p) - 1) + 1

/-- How many of the n bytes from a on equal those from b on before the first that does not (R174's inner loop). -/
def matchAt (m : Memory) (a b : Nat) : Nat → Nat
  | 0 => 0
  | n + 1 => if m.read a = m.read b then matchAt m (a + 1) (b + 1) n + 1 else 0

/-- The length of the match at p with offset i (R174). -/
def matchLen (s : State) (p i : Nat) : Nat := matchAt s.inMem p (p - i) (s.inLen.toNat - p)

/-- The best of a candidate offset and what was best before it: ties go to the later offset (R174). -/
def betterMatch (s : State) (p : Nat) (best : Nat × Nat) (i : Nat) : Nat × Nat :=
  if best.1 ≤ matchLen s p i then (matchLen s p i, i) else best

/-- `BestMatch(p)` (R174): (lzLen, lzOffset) over the offsets 1 .. min(SEARCH_LIMIT, p) − 1. -/
def bestMatch (s : State) (p : Nat) : Nat × Nat :=
  (List.range' 1 (min Config.searchLimit p - 1)).foldl (betterMatch s p) (0, 0)

/-! ## The bytes of the tokens the encoder emits (R177 to R179) -/

/-- A byte of a number known to fit. -/
def byteOf (n : Nat) : Byte := BitVec.ofNat 8 n

/-- The RAW token head of k pending literals (R177): nothing for k = 0. -/
def rawHead (k : Nat) : List Byte :=
  if k = 0 then [] else if k ≤ 31 then [byteOf k] else [byteOf (0x20 ||| (k >>> 8)), byteOf (k &&& 0xFF)]

/-- The bytes of `EmitRLE(n, v)` (R178). -/
def rleBytes (n : Nat) (v : Byte) : List Byte :=
  if n - 4 ≤ 15 then [byteOf (0x40 ||| (n - 4)), v]
  else [byteOf (0x50 ||| ((n - 4) >>> 8)), byteOf ((n - 4) &&& 0xFF), v]

/-- The LZC bytes that add r to the count (R179), in chunks of at most 31; `fuel` bounds their number. -/
def contBytes : Nat → Nat → List Byte
  | 0, _ => []
  | fuel + 1, r => if r = 0 then [] else byteOf (0x60 ||| min r 31) :: contBytes fuel (r - min r 31)

/-- The bytes of `EmitLZ(len, off)` (R179). -/
def lzBytes (len off : Nat) : List Byte :=
  byteOf (0x80 ||| (min (len - 4) 3 <<< 5) ||| (off >>> 8)) :: byteOf (off &&& 0xFF) ::
    contBytes len (len - 4 - min (len - 4) 3)

/-! ## Literals and flush (R176, R177) -/

/-- The pending literals WIN[0 .. WIN_CUR − 1] (R177). -/
def State.pendingLiterals (s : State) : List Byte := s.win.bytes 0 s.winCur.toNat

/-- The window reset of R171 and R177. -/
def State.resetWindow (s : State) : State := (s.winFill s.cfg.fill).winSeek 0

/-- `Flush()` (R177). -/
def State.flush (s : State) : Except ErrKind State :=
  match s.appendAll (rawHead s.winCur.toNat ++ s.pendingLiterals) with
  | .ok s1 => .ok s1.resetWindow
  | .error e => .error e

/-- `Literal(b)` (R176): a flush first where RAW_MAX literals are pending. -/
def State.literal (b : Byte) (s : State) : Except ErrKind State :=
  if s.winCur.toNat = s.cfg.rawMax then
    match s.flush with
    | .ok s1 => .ok (s1.winAppend b)
    | .error e => .error e
  else .ok (s.winAppend b)

/-- A flush, then the bytes of a token (R172, cases RLE and LZ). -/
def State.flushAndEmit (bs : List Byte) (s : State) : Except ErrKind State :=
  match s.flush with
  | .ok s1 => s1.appendAll bs
  | .error e => .error e

/-! ## Positions and finish (R172, R175, R180 to R191) -/

/-- What the encoder does at one position (R175). -/
inductive Choice where
  | literal
  | rle
  | lz
deriving DecidableEq, Repr

/-- The decision (R175): a run is preferred to a match of the same length. -/
def choose (rl ml : Nat) : Choice :=
  if rl < Config.minRun ∧ ml < Config.minRun then .literal else if ml ≤ rl then .rle else .lz

/-- How far one position moves P (R172). -/
def choiceLength (rl ml : Nat) : Nat :=
  match choose rl ml with
  | .literal => 1
  | .rle => rl
  | .lz => ml

/-- One iteration of the per-position loop at P = p (R172), without the registers. -/
def encodeAt (p : Nat) (s : State) : Except ErrKind State :=
  match choose (rleLen s p) (bestMatch s p).1 with
  | .literal => s.literal (s.inByte p)
  | .rle => s.flushAndEmit (rleBytes (rleLen s p) (s.inByte p))
  | .lz => s.flushAndEmit (lzBytes (bestMatch s p).1 (bestMatch s p).2)

/-- The encoder's registers after the iteration at P = p (R36, R172). -/
def EncoderRegs.after (s : State) (p : Nat) : EncoderRegs :=
  { p := BitVec.ofNat 32 (p + choiceLength (rleLen s p) (bestMatch s p).1)
    rl := BitVec.ofNat 13 (rleLen s p)
    ml := BitVec.ofNat 32 (bestMatch s p).1
    mo := BitVec.ofNat 13 (bestMatch s p).2 }

/-- `PatchHeader(L)` (R190): little-endian at OUT[0], OUT[1]. -/
def State.patchHeader (l : Nat) (s : State) : State :=
  { s with outMem := (s.outMem.write 0 (byteOf l)).write 1 (byteOf (l >>> 8)) }

/-- `Finish()` (R180, R186, R190, R191): flush, the header limit, the header, the trailer. -/
def State.encodeFinish (s : State) : Except ErrKind State :=
  match s.flush with
  | .error e => .error e
  | .ok s1 =>
    if Config.hdrMax < s1.outLen.toNat then .error .invalidInput
    else (s1.patchHeader s1.outLen.toNat).outAppend 0x00#8

/-- One internal transition of a running ENCODE: a position, or the finish, which ends the command with success (R172,
R191). -/
def encoderStep (r : EncoderRegs) (s : State) : State :=
  if r.p.toNat < s.inLen.toNat then
    match encodeAt r.p.toNat s with
    | .ok s1 => s1.withEncoder (EncoderRegs.after s r.p.toNat)
    | .error e => raiseError e .encodeRunning s
  else
    match s.encodeFinish with
    | .ok s1 => s1.succeed.endCommand
    | .error e => raiseError e .encodeRunning s

/-- The transitions of a running ENCODE, at most n of them, until the command has ended. -/
def encoderRun : Nat → State → State
  | 0, s => s
  | n + 1, s =>
    match s.engine with
    | .encoding r => encoderRun n (encoderStep r s)
    | .decoding _ => s
    | .idle => s

/-- The registers an ENCODE enters with (R171). RL, ML and MO are written before any rule reads them (DESIGN CHOICE: 0
until then, log 7). -/
def EncoderRegs.enter : EncoderRegs := { p := 0#32, rl := 0#13, ml := 0#32, mo := 0#13 }

/-- The entry of ENCODE (R171): the input test, the header's placeholder, the window reset. -/
def encodeEntry (s : State) : Except ErrKind State :=
  if s.inLen = 0#32 then .error .invalidInput
  else
    match ({ s with outLen := 0#32 } : State).appendAll [0x00#8, 0x00#8] with
    | .error e => .error e
    | .ok s1 => .ok (s1.resetWindow.withEncoder EncoderRegs.enter)

/-- A number of transitions within which every ENCODE ends (R172): one for each byte of the input, and the finish. -/
def encodeFuel (s : State) : Nat := s.inLen.toNat + 1

/-- `ENCODE` (R212). ARG is ignored. -/
def execEncode (s : State) : Host.Outcome State Fault Refusal :=
  match encodeEntry s with
  | .error e => .next (raiseError e .encodeEntry s)
  | .ok s1 => .next (encoderRun (encodeFuel s) s1)

end Sys2Proof.Machine
end

