-- ==== Sys2Proof/Machine/Port.lean ====
section
/-! DEFINITION. The byte-port commands SRC_SEEK and SRC_READ (43_commands.md R213, R214). -/

namespace Sys2Proof.Machine

/-- `SRC_SEEK` (R213). -/
def execSrcSeek (s : State) : Host.Outcome State Fault Refusal :=
  match s.setCursor s.arg with
  | some s1 => .next s1.succeed
  | none => .next (raiseError .outOfBounds .command s)

/-- The port read of a width and byte order (R214), zero-extended; `none` is an overrun. E is ignored for 8 bits (R54). -/
def State.portReadOf (w : Width) (e : Endian) (s : State) : Option (Word × State) :=
  match w with
  | .w8 =>
    match s.readU8 with
    | some (b, s1) => some (b.setWidth 32, s1)
    | none => none
  | .w16 => s.readU16 e
  | .w32 => s.readU32 e
  | .reserved => none

/-- `SRC_READ` (R214): the reserved width raises BadCommand before anything else (R246, R248); an overrun raises OutOfBounds
and moves nothing. -/
def execSrcRead (w : Width) (e : Endian) (s : State) : Host.Outcome State Fault Refusal :=
  if w = .reserved then .next (raiseError .badCommand .command s)
  else
    match s.portReadOf w e with
    | some (v, s1) => .next ({ s1 with result := v } : State).succeed
    | none => .next (raiseError .outOfBounds .command s)

end Sys2Proof.Machine
end

