-- ==== Sys2Proof/Machine/Window.lean ====
section
/-! DEFINITION. The window commands (43_commands.md R215 to R218). -/

namespace Sys2Proof.Machine

/-- `WIN_APPEND` (R215). -/
def execWinAppend (s : State) : Host.Outcome State Fault Refusal := .next (s.winAppend s.argByte).succeed

/-- `WIN_GET` (R216). -/
def execWinGet (s : State) : Host.Outcome State Fault Refusal :=
  .next ({ s with result := (s.winGet s.argInt).setWidth 32 } : State).succeed

/-- `WIN_FILL` (R217). -/
def execWinFill (s : State) : Host.Outcome State Fault Refusal := .next (s.winFill s.argByte).succeed

/-- `WIN_SEEK` (R218). -/
def execWinSeek (s : State) : Host.Outcome State Fault Refusal := .next (s.winSeek s.argNat).succeed

end Sys2Proof.Machine
end

