-- ==== Sys2Proof/Machine/Dispatch.lean ====
section
/-! DEFINITION. The meaning of every instruction, one arm per constructor of `Instr`. -/

namespace Sys2Proof.Machine

def exec (i : Instr) (s : State) : Host.Outcome State Fault Refusal :=
  match i with
  | .lz c pos => Sys2Proof.Machine.execLz c pos s
  | .lzc k => Sys2Proof.Machine.execLzc k s
  | .rles x n v => Sys2Proof.Machine.execRles x n v s
  | .rlel x n v => Sys2Proof.Machine.execRlel x n v s
  | .raws l => Sys2Proof.Machine.execRaws l s
  | .rawl lh ll => Sys2Proof.Machine.execRawl lh ll s
  | .decode => Sys2Proof.Machine.execDecode s
  | .encode => Sys2Proof.Machine.execEncode s
  | .srcSeek => Sys2Proof.Machine.execSrcSeek s
  | .srcRead w e => Sys2Proof.Machine.execSrcRead w e s
  | .winAppend => Sys2Proof.Machine.execWinAppend s
  | .winGet => Sys2Proof.Machine.execWinGet s
  | .winFill => Sys2Proof.Machine.execWinFill s
  | .winSeek => Sys2Proof.Machine.execWinSeek s

end Sys2Proof.Machine
end

