-- ==== Sys2Proof/Machine/HostAccess.lean ====
section
/-! DEFINITION. The host's actions (10_state.md R31 to R34; 43_commands.md R210, R219 to R223; 70_reset_and_hazards.md R270). -/

namespace Sys2Proof.Machine

/-- A host load of IN (R220): ignored at addresses of IN_CAP and above. -/
def State.loadIn (a : Word) (v : Byte) (s : State) : State :=
  if a.toNat < s.cfg.inCap.toNat then { s with inMem := s.inMem.write a.toNat v } else s

/-- The value of a register (R31, R223): CMD and the indices above 8 read 0 (R32, R34). -/
def State.regValue (index : Nat) (s : State) : Word :=
  match index with
  | 0 => s.status.word
  | 1 => errWord s.errCode
  | 2 => s.inLen
  | 3 => s.srcCur
  | 4 => s.outLen
  | 5 => s.winCur.setWidth 32
  | 6 => s.result
  | 7 => s.arg
  | _ => 0#32

/-- A write to IN_LEN (R22, R222): ignored above IN_CAP. -/
def State.writeInLen (w : Word) (s : State) : State :=
  if w.toNat ≤ s.cfg.inCap.toNat then { s with inLen := w } else s

/-- A command word written to CMD (R210): its command runs, or BadCommand is raised for a reserved code (R219). -/
def issueCommand (w : Word) (s : State) : Host.Outcome State Fault Refusal :=
  match decodeCommand w with
  | .ok i => exec i s
  | .error _ => .next (raiseError .badCommand .command s)

/-- A register write (R222): IN_LEN, ARG, CMD; a write to any other index is ignored (R34). -/
def writeRegister (index : Nat) (w : Word) (s : State) : Host.Outcome State Fault Refusal :=
  match index with
  | 2 => .next (s.writeInLen w)
  | 7 => .next { s with arg := w }
  | 8 => issueCommand w s
  | _ => .next s

/-- A host read of OUT (R221): OUT[i] below OUT_LEN; at or past it any value (R74), a free draw of its own (log 2). -/
def State.readOutAt (i : Word) (s : State) : State :=
  if i.toNat < s.outLen.toNat then { s with reply := some ((s.outByte i.toNat).setWidth 32) }
  else { s with reply := some ((Config.freeByte s.draws i.toNat).setWidth 32), draws := s.draws + 1 }

/-- Reset (R270): every piece of state at its value of R40; the parameters and the host's further actions stay. -/
def State.resetBlock (s : State) : State := State.resetWith s.cfg s.draws s.pending

/-- One host action (R11). -/
def hostStep (a : HostAction) (s : State) : Host.Outcome State Fault Refusal :=
  match a with
  | .loadIn a v => .next (s.loadIn a v)
  | .writeReg index w => writeRegister index w s
  | .readReg index => .next { s with reply := some (s.regValue index) }
  | .readOut i => .next (s.readOutAt i)
  | .reset => .next s.resetBlock

/-- The next host action is taken from the list; it has given nothing back yet. -/
def State.takeAction (rest : List HostAction) (s : State) : State := { s with pending := rest, reply := none }

/-! ## Placing an instruction where the machine takes its next one (log 3) -/

/-- A running DECODE of the state, or the registers of a fresh one at SRC_CUR. -/
def State.decoderOrFresh (s : State) : DecoderRegs :=
  match s.engine with
  | .decoding r => r
  | .encoding _ => DecoderRegs.enter s.srcCur
  | .idle => DecoderRegs.enter s.srcCur

/-- The state with stream bytes at SRC_CUR, IN_LEN covering them, and a running DECODE that stands at them with END behind
`len` bytes. -/
def State.placeStream (ctx : Context) (bytes : List Byte) (len : Nat) (s : State) : State :=
  { s with
    inMem := s.inMem.writeAll s.srcCur.toNat bytes
    inLen := BitVec.ofNat 32 (max s.inLen.toNat (s.srcCur.toNat + bytes.length))
    engine := .decoding { s.decoderOrFresh with
      dstate := match ctx with
        | .dispatch => .dispatchingToken
        | .continuation => .handlingLZC
      endAddr := BitVec.ofNat 33 (s.srcCur.toNat + len) } }

/-- The bytes a token takes in the stream, literals included (R95). -/
def tokenLength (mode : RawLongMode) (ctx : Context) (bytes : List Byte) : Nat :=
  match decodeToken ctx bytes with
  | .ok (t, _) => headLength t + literalLength mode t
  | .error _ => 0

/-- The instruction of a source placed where the next step takes it: a command word as the host's next action, a token's
bytes (literals of zeros) at SRC_CUR of a running DECODE. -/
def State.placeInstr (src : Source) (s : State) : State :=
  match src with
  | .command w => { s with engine := .idle, pending := .writeReg 8 w :: s.pending }
  | .stream ctx bytes =>
    s.placeStream ctx (bytes ++ List.replicate (tokenLength s.cfg.rawLongMode ctx bytes - bytes.length) 0x00#8)
      (tokenLength s.cfg.rawLongMode ctx bytes)

/-- One step (R11): a running command's next internal transition; otherwise the host's next action; otherwise the block
waits for the host (R271). -/
def machineStep (s : State) : Host.Outcome State Fault Refusal :=
  match s.engine with
  | .decoding r => decoderStep r s
  | .encoding r => .next (encoderStep r s)
  | .idle =>
    match s.pending with
    | [] => .next s
    | a :: rest => hostStep a (s.takeAction rest)

end Sys2Proof.Machine
end

