-- ==== Sys2Proof/Machine/Step.lean ====
section
/-! DEFINITION. One step of the machine (00_scope.md R11), and placing an instruction for the next step. -/

namespace Sys2Proof.Machine

/-- One step: a next state, a fault or a refusal. -/
def step (s : State) : Host.Outcome State Fault Refusal := machineStep s

/-- The state with the instruction of a table word placed where the next step takes it. -/
def State.withFetchWord (s : State) (nbits w : Nat) : State := s.placeInstr (tableSource nbits w)

end Sys2Proof.Machine
end

