-- ==== Sys2Proof/Safety.lean ====
section
/-! DEFINITION. The terms the claims use: the invariant of the machine, what a step leaves alone, and the meaning of a
compressed stream as a function on byte lists (the reading of 41_decoder.md R136 to R141 that the machine is held
against). -/

namespace Sys2Proof.Machine

/-! ## The invariant -/

/-- The background of a memory holds a draw that has been taken. -/
def Background.drawn (n : Nat) : Background → Bool
  | .free d => decide (d < n)
  | .filled _ => true

/-- The three memories are in canonical form, list addresses of their own only, and hold draws already taken
(R21, R24, R26). -/
def State.memoriesOk (s : State) : Bool :=
  s.inMem.wf && cellsBelow s.cfg.inCap.toNat s.inMem.cells && s.inMem.background.drawn s.draws
    && (s.outMem.wf && cellsBelow s.cfg.outCap.toNat s.outMem.cells && s.outMem.background.drawn s.draws)
    && (s.win.wf && cellsBelow Config.winSize s.win.cells && s.win.background.drawn s.draws)

/-- The bounds of R22, R23 and R25. -/
def State.lengthsOk (s : State) : Bool :=
  decide (s.inLen.toNat ≤ s.cfg.inCap.toNat) && decide (s.srcCur.toNat ≤ s.cfg.inCap.toNat)
    && decide (s.outLen.toNat ≤ s.cfg.outCap.toNat)

/-- CODE = NONE exactly when STATE ≠ ERROR (R29). -/
def State.codeOk (s : State) : Bool := s.errCode.isNone == !(s.status == .error)

/-- The registers of a running DECODE fit its state (R131 to R137). -/
def State.decoderOk (s : State) (r : DecoderRegs) : Bool :=
  decide (s.srcCur.toNat ≤ s.inLen.toNat) && decide (r.base.toNat ≤ s.inLen.toNat)
    && match r.dstate with
      | .readingHeader => s.srcCur == r.base && s.outLen == 0#32
      | .dispatchingToken => decide (r.endAddr.toNat = r.base.toNat + r.decl.toNat)
      | .handlingLZ => decide (r.endAddr.toNat = r.base.toNat + r.decl.toNat)
      | .handlingLZC =>
        decide (r.endAddr.toNat = r.base.toNat + r.decl.toNat) && decide (1 ≤ r.pos.toNat)
          && decide (r.pos.toNat ≤ s.outLen.toNat)
      | .handlingRLE => decide (r.endAddr.toNat = r.base.toNat + r.decl.toNat)
      | .handlingRAW => decide (r.endAddr.toNat = r.base.toNat + r.decl.toNat)
      | .done => decide (r.endAddr.toNat = r.base.toNat + r.decl.toNat)
      | .failed => s.status == .error && s.outLen == 0#32

/-- The registers of a running ENCODE fit the input, at most RAW_MAX literals are pending (R176), and the header's two bytes
stand (R171). -/
def State.encoderOk (s : State) (r : EncoderRegs) : Bool :=
  decide (r.p.toNat ≤ s.inLen.toNat) && decide (1 ≤ s.inLen.toNat) && decide (s.winCur.toNat ≤ s.cfg.rawMax)
    && decide (2 ≤ s.outLen.toNat)

/-- The registers of the running command, if one runs. -/
def State.engineOk (s : State) : Bool :=
  match s.engine with
  | .idle => true
  | .decoding r => s.decoderOk r
  | .encoding r => s.encoderOk r

/-- The invariant of the machine. -/
structure State.Inv (s : State) : Prop where
  memories : s.memoriesOk = true
  lengths : s.lengthsOk = true
  code : s.codeOk = true
  engine : s.engineOk = true

/-! ## What stays the same -/

/-- What no instruction and no running command changes: the parameters, the input, ARG, and the host's actions and
reply (R30, R147, R191). -/
structure State.SameInputs (s t : State) : Prop where
  cfg : t.cfg = s.cfg
  inMem : t.inMem = s.inMem
  inLen : t.inLen = s.inLen
  arg : t.arg = s.arg
  pending : t.pending = s.pending
  reply : t.reply = s.reply

/-- What a token that appends leaves alone besides: the window, RESULT, the status of the last command, and the free
draws (R136 to R141). -/
structure State.SameOutsideOut (s t : State) : Prop where
  inputs : s.SameInputs t
  win : t.win = s.win
  winCur : t.winCur = s.winCur
  result : t.result = s.result
  status : t.status = s.status
  errCode : t.errCode = s.errCode
  draws : t.draws = s.draws

/-- The state after n bytes were appended to OUT, byte k of them given by `f`: OUT_LEN has grown by n and every byte of OUT
outside the appended ones reads as before. -/
structure State.Appended (s t : State) (n : Nat) (f : Nat → Byte) : Prop where
  length : t.outLen.toNat = s.outLen.toNat + n
  bytes : ∀ k, k < n → t.outByte (s.outLen.toNat + k) = f k
  others : ∀ i, (i < s.outLen.toNat ∨ s.outLen.toNat + n ≤ i) → t.outByte i = s.outByte i

/-- A DECODE that failed in a running state with error kind e (R245): the status, OUT_LEN 0, SRC_CUR in [0, IN_LEN], DSTATE
Failed, and everything else as it was (OUT is any value). -/
structure State.DecodeFailed (s t : State) (e : ErrKind) : Prop where
  inputs : s.SameInputs t
  win : t.win = s.win
  winCur : t.winCur = s.winCur
  result : t.result = s.result
  status : t.status = .error
  errCode : t.errCode = some e
  outLen : t.outLen = 0#32
  srcCur : t.srcCur.toNat ≤ s.inLen.toNat
  failed : ∃ r, t.engine = .decoding r ∧ r.dstate = .failed

/-! ## The meaning of a stream on byte lists -/

/-- A token with the literal bytes that follow its head. -/
structure Item where
  tok : Token
  lits : List Byte
deriving DecidableEq, Repr

/-- The bytes of an item in the stream (R85 to R90). -/
def Item.bytes (i : Item) : List Byte := encodeToken i.tok ++ i.lits

/-- The item has as many literals as its token says (R94). -/
def Item.fits (mode : RawLongMode) (i : Item) : Bool := i.lits.length == literalLength mode i.tok

/-- The tokens of a stream, one after another (R80). -/
def bodyBytes (items : List Item) : List Byte := items.flatMap Item.bytes

/-- The declared length of a stream (R81): the header's two bytes and the tokens. -/
def declaredLength (items : List Item) : Nat := 2 + (bodyBytes items).length

/-- A stream without trailer (R80): the little-endian header, then the tokens. -/
def streamBytes (items : List Item) : List Byte :=
  BitVec.ofNat 8 (declaredLength items) :: BitVec.ofNat 8 (declaredLength items >>> 8) :: bodyBytes items

/-- The output with n bytes more, each the byte `pos` back from its end (R136); nothing where there is none. -/
def copyOut (pos : Nat) : Nat → List Byte → Option (List Byte)
  | 0, out => some out
  | n + 1, out =>
    if 1 ≤ pos ∧ pos ≤ out.length then copyOut pos n (out ++ [out.getD (out.length - pos) 0#8]) else none

/-- The output and the last LZ position after an item (R136 to R141). -/
def Item.apply (i : Item) (st : List Byte × Nat) : Option (List Byte × Nat) :=
  match i.tok with
  | .lz c pos => (copyOut pos.toNat (lzCount c) st.1).map fun out => (out, pos.toNat)
  | .lzc k => (copyOut st.2 (lzcCount k) st.1).map fun out => (out, st.2)
  | .rles _ n v => some (st.1 ++ List.replicate (rlesCount n) v, st.2)
  | .rlel _ n v => some (st.1 ++ List.replicate (rlelCount n) v, st.2)
  | .raws _ => some (st.1 ++ i.lits, st.2)
  | .rawl _ _ => some (st.1 ++ i.lits, st.2)

/-- The output after a list of items. -/
def applyItems : List Item → List Byte × Nat → Option (List Byte × Nat)
  | [], st => some st
  | i :: is, st =>
    match i.apply st with
    | some st1 => applyItems is st1
    | none => none

/-- IN holds a byte list at address a. -/
def State.holdsAt (s : State) (a : Nat) (bs : List Byte) : Prop := s.inMem.bytes a bs.length = bs

/-- Whether the last token of a stream leaves the decoder at its continuation test (R275). -/
def endsAtContinuation (items : List Item) : Bool :=
  match items.getLast? with
  | some i => i.tok.opensContinuation
  | none => false

/-- The byte behind a stream lets it end (R275): after a last LZ or LZC token it exists and is no continuation byte. -/
def State.closedAt (s : State) (a : Nat) (items : List Item) : Prop :=
  endsAtContinuation items = true → a < s.inLen.toNat ∧ isContinuation (s.inByte a) = false

end Sys2Proof.Machine
end

