-- ==== Sys2Proof/Certificates/Slice0/Obligations.lean ====
section
/-! DEFINITION. The statements for the provers. Where a statement names the fields `pending`, `reply`, `draws` or `engine`, or the
parameters in the state, that part is the model's own form (log 2, log 3, log 4, log 6), not the spec's. -/

open Sys2Proof Sys2Proof.Machine

/-! ## Encodings -/

/-- R83, R92: at dispatch the three classes cover all 256 control bytes, each with its short and long form, and the fields
are the bits the formats give, here as numbers. -/
def Obligations.TokenFormats : Prop :=
  ∀ (c b1 b2 : Byte) (rest : List Byte),
    (0x80 ≤ c.toNat → ∃ k pos, decodeToken .dispatch (c :: b1 :: b2 :: rest) = .ok (.lz k pos, b2 :: rest) ∧
      classOf c = .lz ∧ k.toNat = c.toNat / 32 % 4 ∧ pos.toNat = c.toNat % 32 * 256 + b1.toNat) ∧
    (0x40 ≤ c.toNat → c.toNat < 0x80 → c.toNat / 16 % 2 = 0 →
      ∃ x n, decodeToken .dispatch (c :: b1 :: b2 :: rest) = .ok (.rles x n b1, b2 :: rest) ∧
      classOf c = .rle ∧ n.toNat = c.toNat % 16) ∧
    (0x40 ≤ c.toNat → c.toNat < 0x80 → c.toNat / 16 % 2 = 1 →
      ∃ x n, decodeToken .dispatch (c :: b1 :: b2 :: rest) = .ok (.rlel x n b2, rest) ∧
      classOf c = .rle ∧ n.toNat = c.toNat % 16 * 256 + b1.toNat) ∧
    (c.toNat < 0x20 → ∃ l, decodeToken .dispatch (c :: b1 :: b2 :: rest) = .ok (.raws l, b1 :: b2 :: rest) ∧
      classOf c = .raw ∧ l.toNat = c.toNat) ∧
    (0x20 ≤ c.toNat → c.toNat < 0x40 →
      ∃ lh, decodeToken .dispatch (c :: b1 :: b2 :: rest) = .ok (.rawl lh b1, b2 :: rest) ∧
      classOf c = .raw ∧ lh.toNat = c.toNat % 32)

/-- R86: at the continuation test exactly the bytes 0x60..0x7F are LZC, K their low five bits; nowhere else is a byte read
as LZC. -/
def Obligations.ContinuationBytes : Prop :=
  (∀ (b : Byte) (rest : List Byte), 0x60 ≤ b.toNat → b.toNat < 0x80 →
    ∃ k, decodeToken .continuation (b :: rest) = .ok (.lzc k, rest) ∧ k.toNat = b.toNat - 0x60) ∧
  (∀ (b : Byte) (rest : List Byte), (b.toNat < 0x60 ∨ 0x80 ≤ b.toNat) →
    decodeToken .continuation (b :: rest) = .error .notContinuation) ∧
  (∀ (bs rest : List Byte) (k : BitVec 5), decodeToken .dispatch bs ≠ .ok (.lzc k, rest))

/-- Decoding the encoding of a well-formed instruction gives it back, with nothing left over; and a token's bytes are read
back as the token in front of any further bytes. -/
def Obligations.DecodeInvertsEncode : Prop :=
  (∀ i : Instr, i.wf = true → decode (encode i) = .ok (i, [])) ∧
  (∀ (t : Token) (rest : List Byte), decodeToken t.context (encodeToken t ++ rest) = .ok (t, rest))

/-- The context of the bytes 0x60..0x7F (30_encoding.md section 4): directly after LZ or LZC, a token that may stand there
and is no LZC is pushed back, and an RLE token with bit 5 set is read as an LZC byte instead. -/
def Obligations.TokensAtTheContinuationTest : Prop :=
  (∀ (t : Token) (rest : List Byte), t.fitsAfter true = true → t.context = .dispatch →
    decodeToken .continuation (encodeToken t ++ rest) = .error .notContinuation) ∧
  (∀ (n : BitVec 4) (v : Byte) (rest : List Byte), ∃ k, k.toNat = n.toNat ∧
    decodeToken .continuation (encodeToken (.rles 1#1 n v) ++ rest) = .ok (.lzc k, v :: rest)) ∧
  (∀ (n : BitVec 12) (v : Byte) (rest : List Byte), ∃ k, k.toNat = 16 + n.toNat / 256 ∧
    decodeToken .continuation (encodeToken (.rlel 1#1 n v) ++ rest) = .ok (.lzc k, n.setWidth 8 :: v :: rest))

/-- R100, R101: the command of a word by its low four bits, SRC_READ's E and W by bits 4 and 6:5, the bits above ignored;
the codes the table does not list are rejected by name. -/
def Obligations.CommandWords : Prop :=
  ∀ w : Word,
    (w.toNat % 16 = 1 → decodeCommand w = .ok .decode) ∧
    (w.toNat % 16 = 2 → decodeCommand w = .ok .encode) ∧
    (w.toNat % 16 = 3 → decodeCommand w = .ok .srcSeek) ∧
    (w.toNat % 16 = 4 → ∃ wd e, decodeCommand w = .ok (.srcRead wd e) ∧ wd.code.toNat = w.toNat / 32 % 4 ∧
      e.code.toNat = w.toNat / 16 % 2) ∧
    (w.toNat % 16 = 5 → decodeCommand w = .ok .winAppend) ∧
    (w.toNat % 16 = 6 → decodeCommand w = .ok .winGet) ∧
    (w.toNat % 16 = 7 → decodeCommand w = .ok .winFill) ∧
    (w.toNat % 16 = 8 → decodeCommand w = .ok .winSeek) ∧
    (w.toNat % 16 = 0 ∨ 9 ≤ w.toNat % 16 →
      ∃ op, decodeCommand w = .error (.reservedCommand op) ∧ op.toNat = w.toNat % 16) ∧
    (∀ w' : Word, w'.toNat % 128 = w.toNat % 128 → decodeCommand w' = decodeCommand w)

/-- Bytes and words written out from the formats decode to what they stand for (30_encoding.md sections 3 and 6). -/
def Obligations.SampleWordsDecode : Prop :=
  decodeToken .dispatch [0b11110010#8, 0b00110100#8] = .ok (.lz 3#2 0x1234#13, []) ∧
  decodeToken .continuation [0b01110111#8] = .ok (.lzc 23#5, []) ∧
  decodeToken .dispatch [0b01001111#8, 0x09#8] = .ok (.rles 0#1 15#4 0x09#8, []) ∧
  decodeToken .dispatch [0b01010011#8, 0x81#8, 0x09#8] = .ok (.rlel 0#1 0x381#12 0x09#8, []) ∧
  decodeToken .dispatch [0b00000101#8] = .ok (.raws 5#5, []) ∧
  decodeToken .dispatch [0b00100001#8, 0x00#8] = .ok (.rawl 1#5 0x00#8, []) ∧
  decodeCommand 0x00000071#32 = .ok .decode ∧
  decodeCommand 0xFFFFFF82#32 = .ok .encode ∧
  decodeCommand 0x00000054#32 = .ok (.srcRead .w32 .be) ∧
  decodeCommand 0x0000000C#32 = .error (.reservedCommand 0xC#4)

/-- R91: the LZ count c[6:5] + 4 is the source's formula `rotl_8(c & 0x60, 3) + 4`, one of 4 to 7. The bit movement of the
rotation is general knowledge (log 11). -/
def Obligations.LzCountFormula : Prop :=
  ∀ c : Byte, lzCountOfControl c = lzCount (c.extractLsb' 5 2) ∧ lzCount (c.extractLsb' 5 2) = c.toNat / 32 % 4 + 4

/-! ## One step -/

/-- A DECODE that stands at dispatch below END. -/
structure AtDispatch (s : State) (r : DecoderRegs) : Prop where
  engine : s.engine = .decoding r
  dstate : r.dstate = .dispatchingToken
  below : s.srcCur.toNat < r.endAddr.toNat

/-- The byte n places behind SRC_CUR. -/
def nextByte (s : State) (n : Nat) : Byte := s.inByte (s.srcCur.toNat + n)

/-- The state in which the token whose control byte stands at SRC_CUR runs, its head having n bytes: SRC_CUR is behind the
head, CTRL holds the control byte, DSTATE is d. -/
def behindHead (s : State) (r : DecoderRegs) (n : Nat) (d : DState) : State :=
  (s.advance n).withDecoder { r with ctrl := nextByte s 0, dstate := d }

/-- R134: a step of a DECODE that stands at dispatch below END runs the token its bytes decode to, in the handling state of
its control byte's class; a missing control byte or operand byte is CorruptStream; at or past END no token is read and the
end-of-stream check is made. -/
def Obligations.StepRunsTheDispatchedToken : Prop :=
  (∀ (s : State) (r : DecoderRegs) (t : Token) (rest : List Byte), AtDispatch s r →
    decodeToken .dispatch (s.streamBytes 3) = .ok (t, rest) →
    step s = exec t.toInstr (behindHead s r (headLength t) (handlerOf (classOf (nextByte s 0))))) ∧
  (∀ (s : State) (r : DecoderRegs) (e : DecodeReject), AtDispatch s r →
    decodeToken .dispatch (s.streamBytes 3) = .error e →
    ∃ t, step s = .next t ∧ s.DecodeFailed t .corruptStream) ∧
  (∀ (s : State) (r : DecoderRegs), s.engine = .decoding r → r.dstate = .dispatchingToken →
    r.endAddr.toNat ≤ s.srcCur.toNat → step s = endCheck r s)

/-- A step of a DECODE that stands at the continuation test runs the LZC byte there, or goes back to dispatch with SRC_CUR
where it is. -/
def Obligations.StepRunsTheContinuationByte : Prop :=
  ∀ (s : State) (r : DecoderRegs), s.engine = .decoding r → r.dstate = .handlingLZC →
    (∀ (t : Token) (rest : List Byte), decodeToken .continuation (s.streamBytes 1) = .ok (t, rest) →
      step s = exec t.toInstr ((s.advance 1).withDecoder r)) ∧
    (decodeToken .continuation (s.streamBytes 1) = .error .notContinuation →
      step s = .next (s.withDecoder { r with dstate := .dispatchingToken }))

/-- A step of an idle block whose next host action writes a command word to CMD runs the word's command. -/
def Obligations.StepRunsTheCommand : Prop :=
  ∀ (s : State) (w : Word) (rest : List HostAction) (i : Instr),
    s.engine = .idle → s.pending = .writeReg 8 w :: rest → decodeCommand w = .ok i →
    step s = exec i (s.takeAction rest)

/-- R219: a reserved command word raises BadCommand, and no other state changes. -/
def Obligations.ReservedCommandWords : Prop :=
  ∀ (s : State) (w : Word) (rest : List HostAction),
    s.engine = .idle → s.pending = .writeReg 8 w :: rest →
    (w.toNat % 16 = 0 ∨ 9 ≤ w.toNat % 16 ∨ (w.toNat % 16 = 4 ∧ w.toNat / 32 % 4 = 3)) →
    step s = .next { s with pending := rest, reply := none, status := .error, errCode := some .badCommand }

/-- No step stops: whatever the state, the machine has a next state (93_implementation_defined.md: no behaviour of the block
is a hang, every error is a next state). -/
def Obligations.StepAlwaysAnswersNext : Prop := ∀ s : State, ∃ t, step s = .next t

/-- While a command runs no host action is taken and none gets a reply (43_commands.md section 1). -/
def Obligations.RunningCommandKeepsTheHostOut : Prop :=
  ∀ s t : State, s.engine ≠ .idle → step s = .next t → s.SameInputs t

/-! ## Memories, reset and the host -/

/-- The canonical form is the model's own (log 2). Over one fill, two memories in that form that read the same at every address
are the same data; over a free draw, two that list the same byte or none at every address are (a listed byte that equals the
free byte reads the same and is other data). -/
def Obligations.EqualMemoriesAreEqualData : Prop :=
  ∀ m m' : Memory, m.wf = true → m'.wf = true → m.background = m'.background →
    ((∃ v, m.background = .filled v) → (∀ a, m.read a = m'.read a) → m = m') ∧
    ((∀ a, cellsRead a m.cells = cellsRead a m'.cells) → m = m')

/-- R270, R271: the state after reset by field, and a reset by the host between its actions sets exactly it. The three
memories are any value: their cells read as free bytes of three different draws never taken before, of which no statement
says a value; and the block then waits for the host. That the parameters and the host's further actions stay, and which draws are taken, is the model's own
(log 2, log 3, log 4). -/
def Obligations.Reset : Prop :=
  (∀ (c : Config) (d : Nat) (todo : List HostAction),
    let s := State.resetWith c d todo
    s.inLen = 0#32 ∧ s.srcCur = 0#32 ∧ s.outLen = 0#32 ∧ s.winCur = 0#13 ∧ s.status = .idle ∧ s.errCode = none ∧
    s.arg = 0#32 ∧ s.result = 0#32 ∧
    (∀ a, s.inMem.read a = Config.freeByte d a) ∧ (∀ a, s.outMem.read a = Config.freeByte (d + 1) a) ∧
    (∀ a, s.win.read a = Config.freeByte (d + 2) a)) ∧
  (∀ (s : State) (rest : List HostAction), s.engine = .idle → s.pending = .reset :: rest →
    step s = .next (State.resetWith s.cfg s.draws rest)) ∧
  (∀ (c : Config) (d : Nat), step (State.resetWith c d []) = .next (State.resetWith c d []))

/-- R223: a host register read gives the register's current value and changes nothing; the values by index (R28, R29 and R31
give the words). -/
def Obligations.HostReadsRegisters : Prop :=
  ∀ (s : State) (index : Nat) (rest : List HostAction), s.engine = .idle → s.pending = .readReg index :: rest →
    ∃ v : Word, step s = .next { s with pending := rest, reply := some v } ∧
      (index = 0 → v = (match s.status with | .idle => 0#32 | .done => 1#32 | .error => 2#32)) ∧
      (index = 1 → v = (match s.errCode with
        | none => 0#32
        | some .outOfBounds => 1#32
        | some .corruptStream => 2#32
        | some .invalidInput => 3#32
        | some .outputOverflow => 4#32
        | some .badCommand => 5#32)) ∧
      (index = 2 → v = s.inLen) ∧ (index = 3 → v = s.srcCur) ∧ (index = 4 → v = s.outLen) ∧
      (index = 5 → v.toNat = s.winCur.toNat) ∧ (index = 6 → v = s.result) ∧ (index = 7 → v = s.arg) ∧
      (8 ≤ index → v = 0#32)

/-- R222: a host write of IN_LEN is taken up to IN_CAP and ignored above it, and leaves SRC_CUR alone; ARG takes any word; a
write to CMD issues the word's command; every other register ignores writes. -/
def Obligations.HostWritesRegisters : Prop :=
  ∀ (s : State) (index : Nat) (w : Word) (rest : List HostAction),
    s.engine = .idle → s.pending = .writeReg index w :: rest →
    (index = 2 → w.toNat ≤ s.cfg.inCap.toNat →
      step s = .next { s with pending := rest, reply := none, inLen := w }) ∧
    (index = 2 → s.cfg.inCap.toNat < w.toNat → step s = .next { s with pending := rest, reply := none }) ∧
    (index = 7 → step s = .next { s with pending := rest, reply := none, arg := w }) ∧
    (∀ i, index = 8 → decodeCommand w = .ok i → step s = exec i { s with pending := rest, reply := none }) ∧
    (index ≠ 2 → index ≠ 7 → index ≠ 8 → step s = .next { s with pending := rest, reply := none })

/-- R220: a host load writes one byte of IN below IN_CAP and is ignored from IN_CAP on. -/
def Obligations.HostLoadsIn : Prop :=
  ∀ (s : State) (a : Word) (v : Byte) (rest : List HostAction),
    s.engine = .idle → s.pending = .loadIn a v :: rest → s.inMem.wf = true →
    ∃ t, step s = .next t ∧ t = { s with pending := rest, reply := none, inMem := t.inMem } ∧
      (∀ x, t.inByte x = if x = a.toNat ∧ a.toNat < s.cfg.inCap.toNat then v else s.inByte x)

/-- R221: a host read of OUT below OUT_LEN gives the byte; at or past it the read gives a byte the model leaves free, and
no state of the block changes (the draw that is taken is the model's own, log 2). -/
def Obligations.HostReadsOut : Prop :=
  ∀ (s : State) (i : Word) (rest : List HostAction), s.engine = .idle → s.pending = .readOut i :: rest →
    (i.toNat < s.outLen.toNat →
      step s = .next { s with pending := rest, reply := some ((s.outByte i.toNat).setWidth 32) }) ∧
    (s.outLen.toNat ≤ i.toNat →
      ∃ v : Byte, step s = .next { s with pending := rest, reply := some (v.setWidth 32), draws := s.draws + 1 })

/-! ## Port and window commands -/

/-- R213: SRC_SEEK sets SRC_CUR to ARG up to IN_LEN, and raises OutOfBounds above it with SRC_CUR unchanged; nothing else
changes but STATUS and ERRCODE. -/
def Obligations.SrcSeek : Prop :=
  ∀ s : State,
    (s.arg.toNat ≤ s.inLen.toNat →
      exec .srcSeek s = .next { s with srcCur := s.arg, status := .done, errCode := none }) ∧
    (s.inLen.toNat < s.arg.toNat →
      exec .srcSeek s = .next { s with status := .error, errCode := some .outOfBounds })

/-- The bytes a width code reads. -/
def widthBytes : Width → Nat
  | .w8 => 1
  | .w16 => 2
  | .w32 => 4
  | .reserved => 0

/-- R214: SRC_READ of 8, 16 or 32 bits puts the unsigned value of the bytes at SRC_CUR into RESULT, in the byte order E
(which an 8-bit read ignores), and moves SRC_CUR past them; where they would pass IN_LEN it raises OutOfBounds and moves
nothing; the reserved width raises BadCommand first. The byte significance is the standard meaning (log 11). -/
def Obligations.SrcRead : Prop :=
  ∀ (s : State) (w : Width) (e : Endian),
    (w = .reserved → exec (.srcRead w e) s = .next { s with status := .error, errCode := some .badCommand }) ∧
    (w ≠ .reserved → s.inLen.toNat < s.srcCur.toNat + widthBytes w →
      exec (.srcRead w e) s = .next { s with status := .error, errCode := some .outOfBounds }) ∧
    (w ≠ .reserved → s.srcCur.toNat + widthBytes w ≤ s.inLen.toNat →
      ∃ t, exec (.srcRead w e) s = .next t ∧
        t = { s with result := t.result, srcCur := t.srcCur, status := .done, errCode := none } ∧
        t.srcCur.toNat = s.srcCur.toNat + widthBytes w ∧
        (let b := fun k => s.inByte (s.srcCur.toNat + k)
         (w = .w8 → t.result = (b 0).setWidth 32) ∧
         (w = .w16 → e = .le → t.result = (b 1 ++ b 0).setWidth 32) ∧
         (w = .w16 → e = .be → t.result = (b 0 ++ b 1).setWidth 32) ∧
         (w = .w32 → e = .le → t.result = b 3 ++ b 2 ++ b 1 ++ b 0) ∧
         (w = .w32 → e = .be → t.result = b 0 ++ b 1 ++ b 2 ++ b 3)))

/-- R215, R111: WIN_APPEND writes ARG[7:0] to the cell at WIN_CUR and advances the cursor, which wraps at N; nothing else
changes but STATUS and ERRCODE. -/
def Obligations.WinAppend : Prop :=
  ∀ s : State, s.win.wf = true →
    ∃ t, exec .winAppend s = .next t ∧
      t = { s with win := t.win, winCur := t.winCur, status := .done, errCode := none } ∧
      (∀ j, (t.win.read j).toNat = if j = s.winCur.toNat then s.arg.toNat % 256 else (s.win.read j).toNat) ∧
      t.winCur.toNat = (s.winCur.toNat + 1) % 8192

/-- R216: WIN_GET puts the zero-extended byte of the cell at ARG, signed, floor modulo N, into RESULT; that cell is
WIN[ARG[12:0]]; nothing else changes but STATUS and ERRCODE. The floor modulo of a negative position is general knowledge
(log 11). -/
def Obligations.WinGet : Prop :=
  ∀ s : State,
    ∃ t, exec .winGet s = .next t ∧ t = { s with result := t.result, status := .done, errCode := none } ∧
      t.result.toNat = (s.win.read (s.arg.toNat % 8192)).toNat ∧
      (s.arg.toInt % 8192).toNat = s.arg.toNat % 8192

/-- R217, R218: WIN_FILL makes every cell ARG[7:0] and leaves WIN_CUR and the rest alone; WIN_SEEK sets WIN_CUR to ARG mod N
and leaves the cells and the rest alone; both but STATUS and ERRCODE. -/
def Obligations.WinFillAndSeek : Prop :=
  (∀ s : State,
    ∃ t, exec .winFill s = .next t ∧ t = { s with win := t.win, status := .done, errCode := none } ∧
      (∀ j, (t.win.read j).toNat = s.arg.toNat % 256)) ∧
  (∀ s : State,
    ∃ t, exec .winSeek s = .next t ∧ t = { s with winCur := t.winCur, status := .done, errCode := none } ∧
      t.winCur.toNat = s.arg.toNat % 8192)

/-- The capacity law of the window (40_window.md section on R115): after k ≤ N appends from cursor c, the byte of append
j (from 0) is at cell (c + j) mod N, the cursor is (c + k) mod N, and the cells not appended to read as before. -/
def Obligations.WindowCapacity : Prop :=
  ∀ (s : State) (bs : List Byte), s.win.wf = true → bs.length ≤ 8192 →
    let t := bs.foldl (fun u b => u.winAppend b) s
    (∀ j, j < bs.length → t.win.read ((s.winCur.toNat + j) % 8192) = bs.getD j 0#8) ∧
    (∀ x, x < 8192 → (∀ j, j < bs.length → x ≠ (s.winCur.toNat + j) % 8192) → t.win.read x = s.win.read x) ∧
    t.winCur.toNat = (s.winCur.toNat + bs.length) % 8192

/-! ## Tokens -/

/-- R136: the control byte and the position-low byte at SRC_CUR make the token; LZ appends C + 4 bytes, each the byte POS back from OUT as it stands then, and goes to the continuation test; with
POS = 0 or POS > OUT_LEN it is CorruptStream; with too little room in OUT it is OutputOverflow; a missing position byte is
CorruptStream. Nothing but OUT, OUT_LEN and the decoder's registers changes where it succeeds. -/
def Obligations.LzToken : Prop :=
  (∀ (s : State) (r : DecoderRegs) (c : BitVec 2) (pos : BitVec 13),
    s.engine = .decoding r → r.dstate = .handlingLZ → s.outMem.wf = true → s.outLen.toNat ≤ s.cfg.outCap.toNat →
    (1 ≤ pos.toNat → pos.toNat ≤ s.outLen.toNat → s.outLen.toNat + (c.toNat + 4) ≤ s.cfg.outCap.toNat →
      ∃ t, exec (.lz c pos) s = .next t ∧
        s.Appended t (c.toNat + 4) (fun k => t.outByte (s.outLen.toNat + k - pos.toNat)) ∧
        t = { s with outMem := t.outMem, outLen := t.outLen, engine := t.engine } ∧
        t.engine = .decoding { r with pos := pos, cnt := BitVec.ofNat 13 (c.toNat + 4), dstate := .handlingLZC }) ∧
    ((pos.toNat = 0 ∨ s.outLen.toNat < pos.toNat) →
      ∃ t, exec (.lz c pos) s = .next t ∧ s.DecodeFailed t .corruptStream) ∧
    (1 ≤ pos.toNat → pos.toNat ≤ s.outLen.toNat → s.cfg.outCap.toNat < s.outLen.toNat + (c.toNat + 4) →
      ∃ t, exec (.lz c pos) s = .next t ∧ s.DecodeFailed t .outputOverflow)) ∧
  (∀ (s : State) (r : DecoderRegs), AtDispatch s r → 0x80 ≤ (nextByte s 0).toNat →
    (s.srcCur.toNat + 2 ≤ s.inLen.toNat →
      ∃ (c : BitVec 2) (pos : BitVec 13), c.toNat = (nextByte s 0).toNat / 32 % 4 ∧
        pos.toNat = (nextByte s 0).toNat % 32 * 256 + (nextByte s 1).toNat ∧
        step s = exec (.lz c pos) (behindHead s r 2 .handlingLZ)) ∧
    (s.srcCur.toNat + 1 = s.inLen.toNat → ∃ t, step s = .next t ∧ s.DecodeFailed t .corruptStream))

/-- R137: the test at SRC_CUR, whatever END is: a byte 0x60..0x7F runs as LZC with its low five bits, any other byte stays
where it is and dispatch follows, and where no byte is there it is CorruptStream; LZC appends K bytes more at the position of
the LZ token and makes the test again; it cannot fail but by OutputOverflow. -/
def Obligations.LzcToken : Prop :=
  (∀ (s : State) (r : DecoderRegs) (k : BitVec 5),
    s.engine = .decoding r → r.dstate = .handlingLZC → s.outMem.wf = true → s.outLen.toNat ≤ s.cfg.outCap.toNat →
    1 ≤ r.pos.toNat → r.pos.toNat ≤ s.outLen.toNat →
    (s.outLen.toNat + k.toNat ≤ s.cfg.outCap.toNat →
      ∃ t, exec (.lzc k) s = .next t ∧
        s.Appended t k.toNat (fun j => t.outByte (s.outLen.toNat + j - r.pos.toNat)) ∧
        t = { s with outMem := t.outMem, outLen := t.outLen, engine := t.engine } ∧
        t.engine = .decoding { r with cnt := BitVec.ofNat 13 k.toNat }) ∧
    (s.cfg.outCap.toNat < s.outLen.toNat + k.toNat →
      ∃ t, exec (.lzc k) s = .next t ∧ s.DecodeFailed t .outputOverflow)) ∧
  (∀ (s : State) (r : DecoderRegs), s.engine = .decoding r → r.dstate = .handlingLZC →
    (s.srcCur.toNat < s.inLen.toNat → (nextByte s 0).toNat / 32 = 3 →
      ∃ k : BitVec 5, k.toNat = (nextByte s 0).toNat % 32 ∧ step s = exec (.lzc k) ((s.advance 1).withDecoder r)) ∧
    (s.srcCur.toNat < s.inLen.toNat → (nextByte s 0).toNat / 32 ≠ 3 →
      step s = .next (s.withDecoder { r with dstate := .dispatchingToken })) ∧
    (s.inLen.toNat ≤ s.srcCur.toNat → ∃ t, step s = .next t ∧ s.DecodeFailed t .corruptStream))

/-- R138: the control byte and the value byte at SRC_CUR make the token; RLES appends N + 4 copies of V, whatever bit 5 is, and goes back to dispatch; with too little room it is
OutputOverflow; a missing value byte is CorruptStream. -/
def Obligations.RlesToken : Prop :=
  (∀ (s : State) (r : DecoderRegs) (x : BitVec 1) (n : BitVec 4) (v : Byte),
    s.engine = .decoding r → r.dstate = .handlingRLE → s.outMem.wf = true → s.outLen.toNat ≤ s.cfg.outCap.toNat →
    (s.outLen.toNat + (n.toNat + 4) ≤ s.cfg.outCap.toNat →
      ∃ t, exec (.rles x n v) s = .next t ∧ s.Appended t (n.toNat + 4) (fun _ => v) ∧
        t = { s with outMem := t.outMem, outLen := t.outLen, engine := t.engine } ∧
        t.engine = .decoding { r with
          val := v, cnt := BitVec.ofNat 13 (n.toNat + 4), dstate := .dispatchingToken }) ∧
    (s.cfg.outCap.toNat < s.outLen.toNat + (n.toNat + 4) →
      ∃ t, exec (.rles x n v) s = .next t ∧ s.DecodeFailed t .outputOverflow)) ∧
  (∀ (s : State) (r : DecoderRegs), AtDispatch s r → (nextByte s 0).toNat / 64 = 1 → (nextByte s 0).toNat / 16 % 2 = 0 →
    (s.srcCur.toNat + 2 ≤ s.inLen.toNat →
      ∃ (x : BitVec 1) (n : BitVec 4), n.toNat = (nextByte s 0).toNat % 16 ∧
        step s = exec (.rles x n (nextByte s 1)) (behindHead s r 2 .handlingRLE)) ∧
    (s.srcCur.toNat + 1 = s.inLen.toNat → ∃ t, step s = .next t ∧ s.DecodeFailed t .corruptStream))

/-- R139: the control byte, the count-low byte and the value byte at SRC_CUR make the token; RLEL appends N + 4 copies of V for its 12-bit N, whatever bit 5 is, and goes back to dispatch; with too little room
it is OutputOverflow; a missing count-low or value byte is CorruptStream. -/
def Obligations.RlelToken : Prop :=
  (∀ (s : State) (r : DecoderRegs) (x : BitVec 1) (n : BitVec 12) (v : Byte),
    s.engine = .decoding r → r.dstate = .handlingRLE → s.outMem.wf = true → s.outLen.toNat ≤ s.cfg.outCap.toNat →
    (s.outLen.toNat + (n.toNat + 4) ≤ s.cfg.outCap.toNat →
      ∃ t, exec (.rlel x n v) s = .next t ∧ s.Appended t (n.toNat + 4) (fun _ => v) ∧
        t = { s with outMem := t.outMem, outLen := t.outLen, engine := t.engine } ∧
        t.engine = .decoding { r with
          val := v, cnt := BitVec.ofNat 13 (n.toNat + 4), dstate := .dispatchingToken }) ∧
    (s.cfg.outCap.toNat < s.outLen.toNat + (n.toNat + 4) →
      ∃ t, exec (.rlel x n v) s = .next t ∧ s.DecodeFailed t .outputOverflow)) ∧
  (∀ (s : State) (r : DecoderRegs), AtDispatch s r → (nextByte s 0).toNat / 64 = 1 → (nextByte s 0).toNat / 16 % 2 = 1 →
    (s.srcCur.toNat + 3 ≤ s.inLen.toNat →
      ∃ (x : BitVec 1) (n : BitVec 12), n.toNat = (nextByte s 0).toNat % 16 * 256 + (nextByte s 1).toNat ∧
        step s = exec (.rlel x n (nextByte s 2)) (behindHead s r 3 .handlingRLE)) ∧
    (s.srcCur.toNat < s.inLen.toNat → s.inLen.toNat ≤ s.srcCur.toNat + 2 →
      ∃ t, step s = .next t ∧ s.DecodeFailed t .corruptStream))

/-- A literal run of n bytes that ends in the outcome o, from state s: the bytes from SRC_CUR on are appended in order; the
first literal that cannot be read is CorruptStream, the first that cannot be appended OutputOverflow, the read tested before
the append (R140, R141, R248). -/
def LiteralRun (s : State) (r : DecoderRegs) (n : Nat) (o : Host.Outcome State Fault Refusal) : Prop :=
  (s.srcCur.toNat + n ≤ s.inLen.toNat → s.outLen.toNat + n ≤ s.cfg.outCap.toNat →
    ∃ t, o = .next t ∧ s.Appended t n (fun k => s.inByte (s.srcCur.toNat + k)) ∧
      t.srcCur.toNat = s.srcCur.toNat + n ∧
      t = { s with outMem := t.outMem, outLen := t.outLen, srcCur := t.srcCur, engine := t.engine } ∧
      t.engine = .decoding { r with cnt := BitVec.ofNat 13 n, dstate := .dispatchingToken }) ∧
  (s.inLen.toNat < s.srcCur.toNat + n →
    s.inLen.toNat - s.srcCur.toNat ≤ s.cfg.outCap.toNat - s.outLen.toNat →
    ∃ t, o = .next t ∧ s.DecodeFailed t .corruptStream) ∧
  (s.cfg.outCap.toNat < s.outLen.toNat + n →
    s.cfg.outCap.toNat - s.outLen.toNat < s.inLen.toNat - s.srcCur.toNat →
    ∃ t, o = .next t ∧ s.DecodeFailed t .outputOverflow)

/-- R140: the control byte at SRC_CUR makes the token; RAWS copies L literal bytes from the stream to OUT and goes back to
dispatch; an unreadable literal is CorruptStream, a full OUT OutputOverflow. -/
def Obligations.RawsToken : Prop :=
  (∀ (s : State) (r : DecoderRegs) (l : BitVec 5),
    s.engine = .decoding r → r.dstate = .handlingRAW → s.outMem.wf = true → s.outLen.toNat ≤ s.cfg.outCap.toNat →
    s.srcCur.toNat ≤ s.inLen.toNat → LiteralRun s r l.toNat (exec (.raws l) s)) ∧
  (∀ (s : State) (r : DecoderRegs), AtDispatch s r → s.srcCur.toNat < s.inLen.toNat → (nextByte s 0).toNat < 32 →
    ∃ l : BitVec 5, l.toNat = (nextByte s 0).toNat ∧ step s = exec (.raws l) (behindHead s r 1 .handlingRAW))

/-- R141: the control byte and the length-low byte at SRC_CUR make the token; RAWL copies LH ++ LL literal bytes in Wide13 and
LL in Byte8, as RAWS does; a missing length-low byte is CorruptStream. -/
def Obligations.RawlToken : Prop :=
  (∀ (s : State) (r : DecoderRegs) (lh : BitVec 5) (ll : Byte),
    s.engine = .decoding r → r.dstate = .handlingRAW → s.outMem.wf = true → s.outLen.toNat ≤ s.cfg.outCap.toNat →
    s.srcCur.toNat ≤ s.inLen.toNat →
    (s.cfg.rawLongMode = .wide13 → LiteralRun s r (lh.toNat * 256 + ll.toNat) (exec (.rawl lh ll) s)) ∧
    (s.cfg.rawLongMode = .byte8 → LiteralRun s r ll.toNat (exec (.rawl lh ll) s))) ∧
  (∀ (s : State) (r : DecoderRegs), AtDispatch s r → (nextByte s 0).toNat / 32 = 1 →
    (s.srcCur.toNat + 2 ≤ s.inLen.toNat →
      ∃ lh : BitVec 5, lh.toNat = (nextByte s 0).toNat % 32 ∧
        step s = exec (.rawl lh (nextByte s 1)) (behindHead s r 2 .handlingRAW)) ∧
    (s.srcCur.toNat + 1 = s.inLen.toNat → ∃ t, step s = .next t ∧ s.DecodeFailed t .corruptStream))

/-- The frame of every token, whether it succeeds or fails: the input, ARG, RESULT, WIN, WIN_CUR, the parameters and the
host's list stay (41_decoder.md section 4). -/
def Obligations.TokenFrame : Prop :=
  ∀ (t : Token) (s u : State), exec t.toInstr s = .next u →
    s.SameInputs u ∧ u.win = s.win ∧ u.winCur = s.winCur ∧ u.result = s.result

/-! ## DECODE -/

/-- R131: DECODE with ARG above IN_LEN raises OutOfBounds: OUT_LEN is 0 and OUT any value, SRC_CUR and the rest keep their
values; otherwise the command enters ReadingHeader at ARG with OUT_LEN 0, and runs on from there. -/
def Obligations.DecodeEntry : Prop :=
  ∀ s : State, s.engine = .idle →
    (s.inLen.toNat < s.arg.toNat →
      ∃ t, exec .decode s = .next t ∧
        t = { s with status := .error, errCode := some .outOfBounds, outLen := 0#32, outMem := t.outMem,
                     draws := t.draws } ∧
        (∀ i, t.outByte i = Config.freeByte s.draws i)) ∧
    (s.arg.toNat ≤ s.inLen.toNat →
      ∃ r, r.dstate = .readingHeader ∧ r.base = s.arg ∧
        exec .decode s = decoderRun (decodeFuel s)
          { s with srcCur := s.arg, outLen := 0#32, engine := .decoding r })

/-- R132, R133: ReadingHeader reads the little-endian header, sets DECL and END = BASE + DECL exactly, and peeks at the third
byte: 0x00 is the empty escape (Done, SRC_CUR behind the header), anything else goes to dispatch; a header or third byte past
IN_LEN is CorruptStream. The byte significance of little-endian is general knowledge (log 11). -/
def Obligations.HeaderStep : Prop :=
  ∀ (s : State) (r : DecoderRegs), s.engine = .decoding r → r.dstate = .readingHeader →
    (s.inLen.toNat < s.srcCur.toNat + 3 → ∃ t, step s = .next t ∧ s.DecodeFailed t .corruptStream) ∧
    (s.srcCur.toNat + 3 ≤ s.inLen.toNat →
      ∃ t r', step s = .next t ∧ t = { s with srcCur := t.srcCur, engine := .decoding r' } ∧
        t.srcCur.toNat = s.srcCur.toNat + 2 ∧
        r'.decl.toNat = (s.inByte s.srcCur.toNat).toNat + 256 * (s.inByte (s.srcCur.toNat + 1)).toNat ∧
        r'.endAddr.toNat = r.base.toNat + r'.decl.toNat ∧
        r' = { r with decl := r'.decl, endAddr := r'.endAddr, dstate := r'.dstate } ∧
        (s.inByte (s.srcCur.toNat + 2) = 0x00#8 → r'.dstate = .done) ∧
        (s.inByte (s.srcCur.toNat + 2) ≠ 0x00#8 → r'.dstate = .dispatchingToken))

/-- R142, R143: at or past END the dispatch checks the end: exactly at END the command is Done, past it CorruptStream; and
Done ends the command with DONE and NONE, everything else as it stands. -/
def Obligations.EndOfStream : Prop :=
  ∀ (s : State) (r : DecoderRegs), s.engine = .decoding r →
    (r.dstate = .dispatchingToken → s.srcCur.toNat = r.endAddr.toNat →
      step s = .next { s with engine := .decoding { r with dstate := .done } }) ∧
    (r.dstate = .dispatchingToken → r.endAddr.toNat < s.srcCur.toNat →
      ∃ t, step s = .next t ∧ s.DecodeFailed t .corruptStream) ∧
    (r.dstate = .done → step s = .next { s with engine := .idle, status := .done, errCode := none })

/-- R277: a stream whose third byte is 0x00 decodes to nothing, whatever its declared length and whatever bytes follow: DONE,
OUT_LEN 0, SRC_CUR behind the header, and nothing else changes. -/
def Obligations.EmptyEscape : Prop :=
  ∀ s : State, s.engine = .idle → s.arg.toNat + 3 ≤ s.inLen.toNat → s.inByte (s.arg.toNat + 2) = 0x00#8 →
    ∃ t, exec .decode s = .next t ∧
      t = { s with outLen := 0#32, srcCur := t.srcCur, status := .done, errCode := none } ∧
      t.srcCur.toNat = s.arg.toNat + 2

/-- DECODE always ends, from every idle state: with success, or with one of its three errors and OUT_LEN 0
(41_decoder.md section 4: termination). -/
def Obligations.DecodeAlwaysEnds : Prop :=
  ∀ s : State, s.engine = .idle →
    ∃ t, exec .decode s = .next t ∧ t.engine = .idle ∧
      ((t.status = .done ∧ t.errCode = none) ∨
       (t.status = .error ∧ t.outLen = 0#32 ∧ t.srcCur.toNat ≤ max s.srcCur.toNat s.inLen.toNat ∧
        (t.errCode = some .outOfBounds ∨ t.errCode = some .corruptStream ∨ t.errCode = some .outputOverflow)))

/-- The frames of DECODE and ENCODE, however they end: DECODE never writes IN, IN_LEN, ARG, WIN, WIN_CUR or RESULT, ENCODE never
IN, IN_LEN, ARG, SRC_CUR or RESULT; the parameters and the host's list stay (41_decoder.md section 4; 42_encoder.md
section 4; 60_exceptions.md section 2). -/
def Obligations.CodecFrames : Prop :=
  (∀ s t : State, exec .decode s = .next t →
    s.SameInputs t ∧ t.win = s.win ∧ t.winCur = s.winCur ∧ t.result = s.result) ∧
  (∀ s t : State, exec .encode s = .next t →
    s.SameInputs t ∧ t.srcCur = s.srcCur ∧ t.result = s.result)

/-- DECODE and ENCODE as one function each are their internal transitions one after another (00_scope.md R11; log 6): from the
state behind the entry seek of DECODE, and from the one behind the entry of ENCODE (EncodeEntry says what it holds), a number
of steps of the machine leads to the state the command ends in. -/
def Obligations.CodecsAreTheirTransitions : Prop :=
  (∀ s : State, s.engine = .idle → s.arg.toNat ≤ s.inLen.toNat →
    ∃ k, k ≤ 2 * s.inLen.toNat + 4 ∧ Host.Core.run Sys2Proof.core k (decodeEntry s) = exec .decode s) ∧
  (∀ s : State, s.engine = .idle → s.inLen.toNat ≠ 0 → 2 ≤ s.cfg.outCap.toNat →
    ∃ u k, encodeEntry s = .ok u ∧ k ≤ s.inLen.toNat + 1 ∧ Host.Core.run Sys2Proof.core k u = exec .encode s)

/-- Two input buffers are the same for a command: IN_LEN and the bytes below it (R146, R193). -/
def SameBuffer (s s' : State) : Prop :=
  s'.inLen = s.inLen ∧ ∀ a, a < s.inLen.toNat → s'.inByte a = s.inByte a

/-- The result of DECODE depends on IN[0 .. IN_LEN − 1], IN_LEN, ARG, OUT_CAP and RAW_LONG_MODE alone: two idle states that
agree on these agree on the status, the error code, OUT_LEN, the bytes of OUT below it, and on success SRC_CUR
(41_decoder.md section 4: determinism). -/
def Obligations.DecodeDependsOnItsInputAlone : Prop :=
  ∀ s s' t t' : State, s.engine = .idle → s'.engine = .idle → s.outMem.wf = true → s'.outMem.wf = true →
    SameBuffer s s' → s'.arg = s.arg → s'.cfg.outCap = s.cfg.outCap → s'.cfg.rawLongMode = s.cfg.rawLongMode →
    exec .decode s = .next t → exec .decode s' = .next t' →
    t'.status = t.status ∧ t'.errCode = t.errCode ∧ t'.outLen = t.outLen ∧
      (∀ i, i < t.outLen.toNat → t'.outByte i = t.outByte i) ∧
      (t.status = .done → t'.srcCur = t.srcCur)

/-- DECODE of a stream of tokens that a writer may write (R80, R103, R136 to R143): if the tokens' meaning on byte lists gives
an output that fits OUT, and the byte behind the stream lets it end (R275), the command succeeds with exactly that output and
SRC_CUR at END, and changes nothing else. The byte significance of the header is general knowledge (log 11). -/
def Obligations.DecodeOfAStream : Prop :=
  ∀ (s : State) (items : List Item) (out : List Byte) (pos : Nat),
    s.engine = .idle → s.outMem.wf = true →
    items ≠ [] → Token.streamWf (items.map Item.tok) = true → items.all (Item.fits s.cfg.rawLongMode) = true →
    declaredLength items ≤ 0xFFFF →
    s.arg.toNat + declaredLength items ≤ s.inLen.toNat →
    s.holdsAt s.arg.toNat (streamBytes items) →
    s.closedAt (s.arg.toNat + declaredLength items) items →
    applyItems items ([], 0) = some (out, pos) → out.length ≤ s.cfg.outCap.toNat →
    ∃ t, exec .decode s = .next t ∧
      t = { s with outMem := t.outMem, outLen := t.outLen, srcCur := t.srcCur, status := .done, errCode := none } ∧
      t.outLen.toNat = out.length ∧ t.outMem.bytes 0 out.length = out ∧
      t.srcCur.toNat = s.arg.toNat + declaredLength items

/-! ## ENCODE -/

/-- R173: RleLen(p) is the maximal run of bytes equal to IN[p] from p on, cut at RLE_MAX and at the end of the input. -/
def Obligations.RunDetector : Prop :=
  ∀ (s : State) (p : Nat), p < s.inLen.toNat →
    1 ≤ rleLen s p ∧ rleLen s p ≤ min 4099 (s.inLen.toNat - p) ∧
    (∀ k, k < rleLen s p → s.inByte (p + k) = s.inByte p) ∧
    (rleLen s p < min 4099 (s.inLen.toNat - p) → s.inByte (p + rleLen s p) ≠ s.inByte p)

/-- R174: BestMatch(p) tries the offsets 1 .. min(0x1FFF, p) − 1, measures each match up to the end of the input, and takes the
longest, of equal ones the one with the largest offset; (0, 0) where there is no offset to try. -/
def Obligations.MatchFinder : Prop :=
  ∀ (s : State) (p : Nat), p < s.inLen.toNat →
    (min 0x1FFF p ≤ 1 → bestMatch s p = (0, 0)) ∧
    (1 < min 0x1FFF p →
      1 ≤ (bestMatch s p).2 ∧ (bestMatch s p).2 < min 0x1FFF p ∧
      (bestMatch s p).1 = matchLen s p (bestMatch s p).2 ∧
      ∀ i, 1 ≤ i → i < min 0x1FFF p →
        matchLen s p i ≤ (bestMatch s p).1 ∧
        (matchLen s p i = (bestMatch s p).1 → i ≤ (bestMatch s p).2)) ∧
    (∀ i, 1 ≤ i → i ≤ p →
      p + matchLen s p i ≤ s.inLen.toNat ∧
      (∀ k, k < matchLen s p i → s.inByte (p + k) = s.inByte (p - i + k)) ∧
      (p + matchLen s p i < s.inLen.toNat → s.inByte (p + matchLen s p i) ≠ s.inByte (p - i + matchLen s p i)))

/-- R172, R175: a step of a running ENCODE below the end of the input does what the decision says: a literal where run and
match are both shorter than 4, else a run where it is no shorter than the match, else the match, run and match behind a
flush; P moves by the length taken; an error of these ends the command. `Behind a flush`: where the flush succeeds, the token's
bytes are appended to what it leaves and nothing else changes, or are OutputOverflow where they do not fit; an error of the flush
is the error. -/
def Obligations.EncoderPosition : Prop :=
  (∀ (s : State) (r : EncoderRegs), s.engine = .encoding r → r.p.toNat < s.inLen.toNat →
    let p := r.p.toNat
    let rl := rleLen s p
    let m := bestMatch s p
    (∀ u, rl < 4 → m.1 < 4 → s.literal (s.inByte p) = .ok u →
      ∃ r', step s = .next (u.withEncoder r') ∧ r'.p.toNat = p + 1) ∧
    (∀ u, 4 ≤ rl → m.1 ≤ rl → s.flushAndEmit (rleBytes rl (s.inByte p)) = .ok u →
      ∃ r', step s = .next (u.withEncoder r') ∧ r'.p.toNat = p + rl) ∧
    (∀ u, 4 ≤ m.1 → rl < m.1 → s.flushAndEmit (lzBytes m.1 m.2) = .ok u →
      ∃ r', step s = .next (u.withEncoder r') ∧ r'.p.toNat = p + m.1) ∧
    (∀ e, rl < 4 → m.1 < 4 → s.literal (s.inByte p) = .error e →
      step s = .next (raiseError e .encodeRunning s)) ∧
    (∀ e, 4 ≤ rl → m.1 ≤ rl → s.flushAndEmit (rleBytes rl (s.inByte p)) = .error e →
      step s = .next (raiseError e .encodeRunning s)) ∧
    (∀ e, 4 ≤ m.1 → rl < m.1 → s.flushAndEmit (lzBytes m.1 m.2) = .error e →
      step s = .next (raiseError e .encodeRunning s))) ∧
  (∀ (s : State) (bs : List Byte), s.outMem.wf = true → s.outLen.toNat ≤ s.cfg.outCap.toNat →
    (∀ v, s.flush = .ok v → v.outLen.toNat + bs.length ≤ v.cfg.outCap.toNat →
      ∃ t, s.flushAndEmit bs = .ok t ∧ v.Appended t bs.length (fun k => bs.getD k 0#8) ∧
        t = { v with outMem := t.outMem, outLen := t.outLen }) ∧
    (∀ v, s.flush = .ok v → v.cfg.outCap.toNat < v.outLen.toNat + bs.length →
      s.flushAndEmit bs = .error .outputOverflow) ∧
    (∀ e, s.flush = .error e → s.flushAndEmit bs = .error e))

/-- R177: Flush appends the RAW token of the pending literals to OUT (nothing where none are pending, the short form up to 31,
the long form above), fills the window and sets its cursor to 0, or is OutputOverflow where they do not fit; the head is read
back by the decoder as a RAW token of that length. -/
def Obligations.Flush : Prop :=
  (∀ s : State, s.outMem.wf = true → s.outLen.toNat ≤ s.cfg.outCap.toNat →
    (s.outLen.toNat + ((rawHead s.winCur.toNat).length + s.winCur.toNat) ≤ s.cfg.outCap.toNat →
      ∃ t, s.flush = .ok t ∧
        s.Appended t ((rawHead s.winCur.toNat).length + s.winCur.toNat)
          (fun k => (rawHead s.winCur.toNat ++ s.win.bytes 0 s.winCur.toNat).getD k 0#8) ∧
        t = { s with outMem := t.outMem, outLen := t.outLen, win := t.win, winCur := 0#13 } ∧
        (∀ j, t.win.read j = s.cfg.fill)) ∧
    (s.cfg.outCap.toNat < s.outLen.toNat + ((rawHead s.winCur.toNat).length + s.winCur.toNat) →
      s.flush = .error .outputOverflow)) ∧
  rawHead 0 = [] ∧
  (∀ (k : Nat) (rest : List Byte), 1 ≤ k → k ≤ 31 →
    ∃ l, decodeToken .dispatch (rawHead k ++ rest) = .ok (.raws l, rest) ∧ l.toNat = k) ∧
  (∀ (k : Nat) (rest : List Byte), 32 ≤ k → k ≤ 8191 →
    ∃ lh ll, decodeToken .dispatch (rawHead k ++ rest) = .ok (.rawl lh ll, rest) ∧
      rawlLength .wide13 lh ll = k ∧ (k ≤ 255 → rawlLength .byte8 lh ll = k))

/-- R176: Literal appends the byte to the pending literals, behind a flush where RAW_MAX of them are pending, whose error is
its error; the pending count stays at most RAW_MAX, so the cursor never wraps. -/
def Obligations.LiteralAccumulator : Prop :=
  ∀ (s : State) (b : Byte), s.win.wf = true →
    (s.winCur.toNat < s.cfg.rawMax →
      ∃ t, s.literal b = .ok t ∧ t = { s with win := t.win, winCur := t.winCur } ∧
        t.winCur.toNat = s.winCur.toNat + 1 ∧ t.winCur.toNat ≤ t.cfg.rawMax ∧
        (∀ j, t.win.read j = if j = s.winCur.toNat then b else s.win.read j)) ∧
    (∀ u, s.winCur.toNat = s.cfg.rawMax → s.flush = .ok u →
      ∃ t, s.literal b = .ok t ∧ t = { u with win := t.win, winCur := 1#13 } ∧
        (∀ j, t.win.read j = if j = 0 then b else s.cfg.fill)) ∧
    (∀ e, s.winCur.toNat = s.cfg.rawMax → s.flush = .error e → s.literal b = .error e)

/-- R178: the bytes of EmitRLE are the RLES token of the count up to 19 and the RLEL token above, bit 5 clear. -/
def Obligations.EmitRle : Prop :=
  ∀ (n : Nat) (v : Byte), 4 ≤ n → n ≤ 4099 →
    (n ≤ 19 → ∃ m : BitVec 4, m.toNat = n - 4 ∧ rleBytes n v = encodeToken (.rles 0#1 m v)) ∧
    (20 ≤ n → ∃ m : BitVec 12, m.toNat = n - 4 ∧ rleBytes n v = encodeToken (.rlel 0#1 m v))

/-- R179: the bytes of EmitLZ are an LZ token of count min(len, 7) and LZC tokens of 1 to 31 each that add up to the rest of
the length, all but the last of them 31. -/
def Obligations.EmitLz : Prop :=
  ∀ len off : Nat, 4 ≤ len → 1 ≤ off → off ≤ 8191 →
    ∃ (c : BitVec 2) (pos : BitVec 13) (ks : List (BitVec 5)),
      lzBytes len off = encodeToken (.lz c pos) ++ ks.flatMap (fun k => encodeToken (.lzc k)) ∧
      pos.toNat = off ∧ c.toNat + 4 = min len 7 ∧
      min len 7 + (ks.map BitVec.toNat).sum = len ∧
      (∀ k ∈ ks, 1 ≤ k.toNat) ∧ (∀ k ∈ ks.dropLast, k.toNat = 31)

/-- ENCODE always ends, from every idle state: with success, or with InvalidInput or OutputOverflow and OUT_LEN 0
(42_encoder.md R172: the loop ends). -/
def Obligations.EncodeAlwaysEnds : Prop :=
  ∀ s : State, s.engine = .idle →
    ∃ t, exec .encode s = .next t ∧ t.engine = .idle ∧
      ((t.status = .done ∧ t.errCode = none) ∨
       (t.status = .error ∧ t.outLen = 0#32 ∧
        (t.errCode = some .invalidInput ∨ t.errCode = some .outputOverflow)))

/-- R171: ENCODE of an empty input raises InvalidInput before anything is written: OUT_LEN is 0 and OUT any value (R245), WIN,
WIN_CUR and the rest keep their values; where OUT has no room for the header it is OutputOverflow, before the window reset;
otherwise the command starts at P = 0 behind a header of zeros with the window reset, and runs on from there, by steps (CodecsAreTheirTransitions). -/
def Obligations.EncodeEntry : Prop :=
  ∀ s : State, s.outMem.wf = true →
    (s.inLen.toNat = 0 →
      ∃ t, exec .encode s = .next t ∧
        t = { s with status := .error, errCode := some .invalidInput, outLen := 0#32, outMem := t.outMem,
                     draws := t.draws }) ∧
    (s.inLen.toNat ≠ 0 → s.cfg.outCap.toNat < 2 →
      ∃ t, exec .encode s = .next t ∧
        t = { s with status := .error, errCode := some .outputOverflow, outLen := 0#32, outMem := t.outMem,
                     draws := t.draws }) ∧
    (s.inLen.toNat ≠ 0 → 2 ≤ s.cfg.outCap.toNat →
      ∃ (u : State) (r : EncoderRegs), encodeEntry s = .ok u ∧ exec .encode s = .next (encoderRun (encodeFuel s) u) ∧
        u = { s with outMem := u.outMem, outLen := 2#32, win := u.win, winCur := 0#13, engine := .encoding r } ∧
        r.p = 0#32 ∧ u.outByte 0 = 0x00#8 ∧ u.outByte 1 = 0x00#8 ∧ (∀ j, u.win.read j = s.cfg.fill))

/-- R180, R186, R190, R191: a step of a running ENCODE at the end of the input flushes; a stream longer than 0xFFFF is
InvalidInput; a full OUT leaves no room for the trailer; otherwise OUT[0..1] are the length L, the trailer 0x00 stands at L, and
the command ends with DONE and NONE. -/
def Obligations.EncoderFinish : Prop :=
  ∀ (s : State) (r : EncoderRegs), s.engine = .encoding r → s.inLen.toNat ≤ r.p.toNat →
    (∀ e, s.flush = .error e → step s = .next (raiseError e .encodeRunning s)) ∧
    (∀ u, s.flush = .ok u → 0xFFFF < u.outLen.toNat → step s = .next (raiseError .invalidInput .encodeRunning s)) ∧
    (∀ u, s.flush = .ok u → u.outLen.toNat ≤ 0xFFFF → u.outLen.toNat = u.cfg.outCap.toNat →
      step s = .next (raiseError .outputOverflow .encodeRunning s)) ∧
    (∀ u, s.flush = .ok u → 2 ≤ u.outLen.toNat → u.outLen.toNat ≤ 0xFFFF → u.outLen.toNat < u.cfg.outCap.toNat →
      u.outMem.wf = true →
      ∃ t, step s = .next t ∧
        t = { u with outMem := t.outMem, outLen := t.outLen, status := .done, errCode := none, engine := .idle } ∧
        t.outLen.toNat = u.outLen.toNat + 1 ∧
        (t.outByte 0).toNat = u.outLen.toNat % 256 ∧ (t.outByte 1).toNat = u.outLen.toNat / 256 ∧
        t.outByte u.outLen.toNat = 0x00#8 ∧
        (∀ i, 2 ≤ i → i ≠ u.outLen.toNat → t.outByte i = u.outByte i))

/-- R191: an ENCODE that succeeds leaves OUT[0..1] = L little-endian and the trailer 0x00 at OUT[L], with OUT_LEN = L + 1 and
L at most 0xFFFF; every window cell is FILL and WIN_CUR 0; STATUS is DONE and ERRCODE NONE, and all else is unchanged. -/
def Obligations.EncodeSuccess : Prop :=
  ∀ s t : State, s.engine = .idle → s.outMem.wf = true → exec .encode s = .next t → t.status = .done →
    ∃ l : Nat, 2 ≤ l ∧ l ≤ 0xFFFF ∧ t.outLen.toNat = l + 1 ∧
      (t.outByte 0).toNat + 256 * (t.outByte 1).toNat = l ∧ t.outByte l = 0x00#8 ∧
      (∀ j, t.win.read j = s.cfg.fill) ∧
      t = { s with outMem := t.outMem, outLen := t.outLen, win := t.win, winCur := 0#13,
                   status := .done, errCode := none }

/-- ENCODE completes: every input of at least one byte that is small enough for three bytes of output each to fit the header
and OUT is encoded with success (a bound derived from 42_encoder.md R176 to R180). -/
def Obligations.EncodeCompletes : Prop :=
  ∀ s : State, s.engine = .idle → 1 ≤ s.inLen.toNat → 3 * s.inLen.toNat + 2 ≤ 0xFFFF →
    3 * s.inLen.toNat + 3 ≤ s.cfg.outCap.toNat →
    ∃ t, exec .encode s = .next t ∧ t.status = .done ∧ t.errCode = none ∧ t.engine = .idle ∧ t.winCur = 0#13

/-- ENCODE of one byte (43_commands.md R212, corner case): the stream 04 00 01 b 00. -/
def Obligations.EncodeOfOneByte : Prop :=
  ∀ s : State, s.engine = .idle → s.outMem.wf = true → s.inLen = 1#32 → 5 ≤ s.cfg.outCap.toNat →
    ∃ t, exec .encode s = .next t ∧ t.status = .done ∧ t.outLen = 5#32 ∧
      t.outMem.bytes 0 5 = [0x04#8, 0x00#8, 0x01#8, s.inByte 0, 0x00#8]

/-- The result of ENCODE depends on IN[0 .. IN_LEN − 1], OUT_CAP and RAW_LONG_MODE alone: not on FILL, the window, the cursors,
ARG or the old contents of OUT (42_encoder.md section 5: determinism). -/
def Obligations.EncodeDependsOnItsInputAlone : Prop :=
  ∀ s s' t t' : State, s.engine = .idle → s'.engine = .idle → s.outMem.wf = true → s'.outMem.wf = true →
    SameBuffer s s' → s'.cfg.outCap = s.cfg.outCap → s'.cfg.rawLongMode = s.cfg.rawLongMode →
    exec .encode s = .next t → exec .encode s' = .next t' →
    t'.status = t.status ∧ t'.errCode = t.errCode ∧ t'.outLen = t.outLen ∧
      (∀ i, i < t.outLen.toNat → t'.outByte i = t.outByte i)

/-- Round trip (41_decoder.md section 4; 42_encoder.md section 5): where ENCODE succeeds, DECODE at offset 0 of its output, in a
block with the same RAW_LONG_MODE and room for the input, succeeds and gives the input back. -/
def Obligations.RoundTrip : Prop :=
  ∀ s t u : State, s.engine = .idle → s.outMem.wf = true → exec .encode s = .next t → t.status = .done →
    u.engine = .idle → u.outMem.wf = true → u.cfg.rawLongMode = s.cfg.rawLongMode →
    s.inLen.toNat ≤ u.cfg.outCap.toNat → u.arg = 0#32 → u.inLen = t.outLen →
    (∀ i, i < t.outLen.toNat → u.inByte i = t.outByte i) →
    ∃ v, exec .decode u = .next v ∧ v.status = .done ∧ v.outLen = s.inLen ∧
      ∀ i, i < s.inLen.toNat → v.outByte i = s.inByte i

/-! ## Errors and the whole machine -/

/-- R245: what an error does, by the command that raises it. A free value is bounded and no more: SRC_CUR in [0, IN_LEN],
WIN_CUR in [0, N) by its width; the bytes of OUT and WIN are of draws never taken before. -/
def Obligations.RaiseError : Prop :=
  ∀ (e : ErrKind) (s : State),
    raiseError e .command s = { s with status := .error, errCode := some e } ∧
    (∀ p, p ≠ .command →
      let t := raiseError e p s
      t.status = .error ∧ t.errCode = some e ∧ t.outLen = 0#32 ∧
      (∀ i, t.outByte i = Config.freeByte s.draws i) ∧ s.draws < t.draws ∧
      s.SameInputs t ∧ t.result = s.result) ∧
    (∀ p, p = .decodeEntry ∨ p = .encodeEntry →
      let t := raiseError e p s
      t.srcCur = s.srcCur ∧ t.win = s.win ∧ t.winCur = s.winCur) ∧
    (let t := raiseError e .decodeRunning s
     t.srcCur.toNat ≤ s.inLen.toNat ∧ t.win = s.win ∧ t.winCur = s.winCur) ∧
    (let t := raiseError e .encodeRunning s
     t.srcCur = s.srcCur ∧ t.winCur.toNat < 8192 ∧
     ∃ d, s.draws ≤ d ∧ d < t.draws ∧ ∀ j, t.win.read j = Config.freeByte d j)

/-- R6: no step changes a parameter. -/
def Obligations.NoStepChangesAParameter : Prop := ∀ s t : State, step s = .next t → t.cfg = s.cfg

/-- Every step keeps the invariant: the memories canonical and within their capacities, 0 ≤ IN_LEN ≤ IN_CAP (R22), SRC_CUR ≤
IN_CAP (R23), OUT_LEN ≤ OUT_CAP (R25), CODE = NONE exactly when STATE ≠ ERROR (R29), at most RAW_MAX literals pending (R176), a
usable LZ position at the continuation test (R137), END = BASE + DECL (R132). -/
def Obligations.StepKeepsTheInvariant : Prop :=
  ∀ s t : State, s.Inv → step s = .next t → t.Inv

/-- The invariant holds after reset, for every choice of the parameters. -/
def Obligations.ResetMeetsTheInvariant : Prop :=
  ∀ (c : Config) (d : Nat) (todo : List HostAction), (State.resetWith c d todo).Inv
end

