-- ==== Sys2Proof/Laws/State.lean ====
section
/-! SUPPORT. One lemma per field per named update of State: what the update makes of the field. -/

namespace Sys2Proof.Machine

/-! ## succeed -/

@[simp] theorem State.succeed_cfg (s : State) : s.succeed.cfg = s.cfg := rfl
@[simp] theorem State.succeed_inMem (s : State) : s.succeed.inMem = s.inMem := rfl
@[simp] theorem State.succeed_inLen (s : State) : s.succeed.inLen = s.inLen := rfl
@[simp] theorem State.succeed_srcCur (s : State) : s.succeed.srcCur = s.srcCur := rfl
@[simp] theorem State.succeed_outMem (s : State) : s.succeed.outMem = s.outMem := rfl
@[simp] theorem State.succeed_outLen (s : State) : s.succeed.outLen = s.outLen := rfl
@[simp] theorem State.succeed_win (s : State) : s.succeed.win = s.win := rfl
@[simp] theorem State.succeed_winCur (s : State) : s.succeed.winCur = s.winCur := rfl
@[simp] theorem State.succeed_status (s : State) : s.succeed.status = .done := rfl
@[simp] theorem State.succeed_errCode (s : State) : s.succeed.errCode = none := rfl
@[simp] theorem State.succeed_arg (s : State) : s.succeed.arg = s.arg := rfl
@[simp] theorem State.succeed_result (s : State) : s.succeed.result = s.result := rfl
@[simp] theorem State.succeed_engine (s : State) : s.succeed.engine = s.engine := rfl
@[simp] theorem State.succeed_pending (s : State) : s.succeed.pending = s.pending := rfl
@[simp] theorem State.succeed_reply (s : State) : s.succeed.reply = s.reply := rfl
@[simp] theorem State.succeed_draws (s : State) : s.succeed.draws = s.draws := rfl

/-! ## failWith -/

@[simp] theorem State.failWith_cfg (e : ErrKind) (s : State) : (s.failWith e).cfg = s.cfg := rfl
@[simp] theorem State.failWith_inMem (e : ErrKind) (s : State) : (s.failWith e).inMem = s.inMem := rfl
@[simp] theorem State.failWith_inLen (e : ErrKind) (s : State) : (s.failWith e).inLen = s.inLen := rfl
@[simp] theorem State.failWith_srcCur (e : ErrKind) (s : State) : (s.failWith e).srcCur = s.srcCur := rfl
@[simp] theorem State.failWith_outMem (e : ErrKind) (s : State) : (s.failWith e).outMem = s.outMem := rfl
@[simp] theorem State.failWith_outLen (e : ErrKind) (s : State) : (s.failWith e).outLen = s.outLen := rfl
@[simp] theorem State.failWith_win (e : ErrKind) (s : State) : (s.failWith e).win = s.win := rfl
@[simp] theorem State.failWith_winCur (e : ErrKind) (s : State) : (s.failWith e).winCur = s.winCur := rfl
@[simp] theorem State.failWith_status (e : ErrKind) (s : State) : (s.failWith e).status = .error := rfl
@[simp] theorem State.failWith_errCode (e : ErrKind) (s : State) : (s.failWith e).errCode = some e := rfl
@[simp] theorem State.failWith_arg (e : ErrKind) (s : State) : (s.failWith e).arg = s.arg := rfl
@[simp] theorem State.failWith_result (e : ErrKind) (s : State) : (s.failWith e).result = s.result := rfl
@[simp] theorem State.failWith_engine (e : ErrKind) (s : State) : (s.failWith e).engine = s.engine := rfl
@[simp] theorem State.failWith_pending (e : ErrKind) (s : State) : (s.failWith e).pending = s.pending := rfl
@[simp] theorem State.failWith_reply (e : ErrKind) (s : State) : (s.failWith e).reply = s.reply := rfl
@[simp] theorem State.failWith_draws (e : ErrKind) (s : State) : (s.failWith e).draws = s.draws := rfl

/-! ## advance -/

@[simp] theorem State.advance_cfg (n : Nat) (s : State) : (s.advance n).cfg = s.cfg := rfl
@[simp] theorem State.advance_inMem (n : Nat) (s : State) : (s.advance n).inMem = s.inMem := rfl
@[simp] theorem State.advance_inLen (n : Nat) (s : State) : (s.advance n).inLen = s.inLen := rfl
@[simp] theorem State.advance_srcCur (n : Nat) (s : State) : (s.advance n).srcCur = s.srcCur + BitVec.ofNat 32 n := rfl
@[simp] theorem State.advance_outMem (n : Nat) (s : State) : (s.advance n).outMem = s.outMem := rfl
@[simp] theorem State.advance_outLen (n : Nat) (s : State) : (s.advance n).outLen = s.outLen := rfl
@[simp] theorem State.advance_win (n : Nat) (s : State) : (s.advance n).win = s.win := rfl
@[simp] theorem State.advance_winCur (n : Nat) (s : State) : (s.advance n).winCur = s.winCur := rfl
@[simp] theorem State.advance_status (n : Nat) (s : State) : (s.advance n).status = s.status := rfl
@[simp] theorem State.advance_errCode (n : Nat) (s : State) : (s.advance n).errCode = s.errCode := rfl
@[simp] theorem State.advance_arg (n : Nat) (s : State) : (s.advance n).arg = s.arg := rfl
@[simp] theorem State.advance_result (n : Nat) (s : State) : (s.advance n).result = s.result := rfl
@[simp] theorem State.advance_engine (n : Nat) (s : State) : (s.advance n).engine = s.engine := rfl
@[simp] theorem State.advance_pending (n : Nat) (s : State) : (s.advance n).pending = s.pending := rfl
@[simp] theorem State.advance_reply (n : Nat) (s : State) : (s.advance n).reply = s.reply := rfl
@[simp] theorem State.advance_draws (n : Nat) (s : State) : (s.advance n).draws = s.draws := rfl

/-! ## withDecoder -/

@[simp] theorem State.withDecoder_cfg (r : DecoderRegs) (s : State) : (s.withDecoder r).cfg = s.cfg := rfl
@[simp] theorem State.withDecoder_inMem (r : DecoderRegs) (s : State) : (s.withDecoder r).inMem = s.inMem := rfl
@[simp] theorem State.withDecoder_inLen (r : DecoderRegs) (s : State) : (s.withDecoder r).inLen = s.inLen := rfl
@[simp] theorem State.withDecoder_srcCur (r : DecoderRegs) (s : State) : (s.withDecoder r).srcCur = s.srcCur := rfl
@[simp] theorem State.withDecoder_outMem (r : DecoderRegs) (s : State) : (s.withDecoder r).outMem = s.outMem := rfl
@[simp] theorem State.withDecoder_outLen (r : DecoderRegs) (s : State) : (s.withDecoder r).outLen = s.outLen := rfl
@[simp] theorem State.withDecoder_win (r : DecoderRegs) (s : State) : (s.withDecoder r).win = s.win := rfl
@[simp] theorem State.withDecoder_winCur (r : DecoderRegs) (s : State) : (s.withDecoder r).winCur = s.winCur := rfl
@[simp] theorem State.withDecoder_status (r : DecoderRegs) (s : State) : (s.withDecoder r).status = s.status := rfl
@[simp] theorem State.withDecoder_errCode (r : DecoderRegs) (s : State) : (s.withDecoder r).errCode = s.errCode := rfl
@[simp] theorem State.withDecoder_arg (r : DecoderRegs) (s : State) : (s.withDecoder r).arg = s.arg := rfl
@[simp] theorem State.withDecoder_result (r : DecoderRegs) (s : State) : (s.withDecoder r).result = s.result := rfl
@[simp] theorem State.withDecoder_engine (r : DecoderRegs) (s : State) : (s.withDecoder r).engine = .decoding r := rfl
@[simp] theorem State.withDecoder_pending (r : DecoderRegs) (s : State) : (s.withDecoder r).pending = s.pending := rfl
@[simp] theorem State.withDecoder_reply (r : DecoderRegs) (s : State) : (s.withDecoder r).reply = s.reply := rfl
@[simp] theorem State.withDecoder_draws (r : DecoderRegs) (s : State) : (s.withDecoder r).draws = s.draws := rfl

/-! ## withEncoder -/

@[simp] theorem State.withEncoder_cfg (r : EncoderRegs) (s : State) : (s.withEncoder r).cfg = s.cfg := rfl
@[simp] theorem State.withEncoder_inMem (r : EncoderRegs) (s : State) : (s.withEncoder r).inMem = s.inMem := rfl
@[simp] theorem State.withEncoder_inLen (r : EncoderRegs) (s : State) : (s.withEncoder r).inLen = s.inLen := rfl
@[simp] theorem State.withEncoder_srcCur (r : EncoderRegs) (s : State) : (s.withEncoder r).srcCur = s.srcCur := rfl
@[simp] theorem State.withEncoder_outMem (r : EncoderRegs) (s : State) : (s.withEncoder r).outMem = s.outMem := rfl
@[simp] theorem State.withEncoder_outLen (r : EncoderRegs) (s : State) : (s.withEncoder r).outLen = s.outLen := rfl
@[simp] theorem State.withEncoder_win (r : EncoderRegs) (s : State) : (s.withEncoder r).win = s.win := rfl
@[simp] theorem State.withEncoder_winCur (r : EncoderRegs) (s : State) : (s.withEncoder r).winCur = s.winCur := rfl
@[simp] theorem State.withEncoder_status (r : EncoderRegs) (s : State) : (s.withEncoder r).status = s.status := rfl
@[simp] theorem State.withEncoder_errCode (r : EncoderRegs) (s : State) : (s.withEncoder r).errCode = s.errCode := rfl
@[simp] theorem State.withEncoder_arg (r : EncoderRegs) (s : State) : (s.withEncoder r).arg = s.arg := rfl
@[simp] theorem State.withEncoder_result (r : EncoderRegs) (s : State) : (s.withEncoder r).result = s.result := rfl
@[simp] theorem State.withEncoder_engine (r : EncoderRegs) (s : State) : (s.withEncoder r).engine = .encoding r := rfl
@[simp] theorem State.withEncoder_pending (r : EncoderRegs) (s : State) : (s.withEncoder r).pending = s.pending := rfl
@[simp] theorem State.withEncoder_reply (r : EncoderRegs) (s : State) : (s.withEncoder r).reply = s.reply := rfl
@[simp] theorem State.withEncoder_draws (r : EncoderRegs) (s : State) : (s.withEncoder r).draws = s.draws := rfl

/-! ## endCommand -/

@[simp] theorem State.endCommand_cfg (s : State) : s.endCommand.cfg = s.cfg := rfl
@[simp] theorem State.endCommand_inMem (s : State) : s.endCommand.inMem = s.inMem := rfl
@[simp] theorem State.endCommand_inLen (s : State) : s.endCommand.inLen = s.inLen := rfl
@[simp] theorem State.endCommand_srcCur (s : State) : s.endCommand.srcCur = s.srcCur := rfl
@[simp] theorem State.endCommand_outMem (s : State) : s.endCommand.outMem = s.outMem := rfl
@[simp] theorem State.endCommand_outLen (s : State) : s.endCommand.outLen = s.outLen := rfl
@[simp] theorem State.endCommand_win (s : State) : s.endCommand.win = s.win := rfl
@[simp] theorem State.endCommand_winCur (s : State) : s.endCommand.winCur = s.winCur := rfl
@[simp] theorem State.endCommand_status (s : State) : s.endCommand.status = s.status := rfl
@[simp] theorem State.endCommand_errCode (s : State) : s.endCommand.errCode = s.errCode := rfl
@[simp] theorem State.endCommand_arg (s : State) : s.endCommand.arg = s.arg := rfl
@[simp] theorem State.endCommand_result (s : State) : s.endCommand.result = s.result := rfl
@[simp] theorem State.endCommand_engine (s : State) : s.endCommand.engine = .idle := rfl
@[simp] theorem State.endCommand_pending (s : State) : s.endCommand.pending = s.pending := rfl
@[simp] theorem State.endCommand_reply (s : State) : s.endCommand.reply = s.reply := rfl
@[simp] theorem State.endCommand_draws (s : State) : s.endCommand.draws = s.draws := rfl

/-! ## winAppend -/

@[simp] theorem State.winAppend_cfg (b : Byte) (s : State) : (s.winAppend b).cfg = s.cfg := rfl
@[simp] theorem State.winAppend_inMem (b : Byte) (s : State) : (s.winAppend b).inMem = s.inMem := rfl
@[simp] theorem State.winAppend_inLen (b : Byte) (s : State) : (s.winAppend b).inLen = s.inLen := rfl
@[simp] theorem State.winAppend_srcCur (b : Byte) (s : State) : (s.winAppend b).srcCur = s.srcCur := rfl
@[simp] theorem State.winAppend_outMem (b : Byte) (s : State) : (s.winAppend b).outMem = s.outMem := rfl
@[simp] theorem State.winAppend_outLen (b : Byte) (s : State) : (s.winAppend b).outLen = s.outLen := rfl
@[simp] theorem State.winAppend_win (b : Byte) (s : State) : (s.winAppend b).win = s.win.write s.winCur.toNat b := rfl
@[simp] theorem State.winAppend_winCur (b : Byte) (s : State) : (s.winAppend b).winCur = s.winCur + 1#13 := rfl
@[simp] theorem State.winAppend_status (b : Byte) (s : State) : (s.winAppend b).status = s.status := rfl
@[simp] theorem State.winAppend_errCode (b : Byte) (s : State) : (s.winAppend b).errCode = s.errCode := rfl
@[simp] theorem State.winAppend_arg (b : Byte) (s : State) : (s.winAppend b).arg = s.arg := rfl
@[simp] theorem State.winAppend_result (b : Byte) (s : State) : (s.winAppend b).result = s.result := rfl
@[simp] theorem State.winAppend_engine (b : Byte) (s : State) : (s.winAppend b).engine = s.engine := rfl
@[simp] theorem State.winAppend_pending (b : Byte) (s : State) : (s.winAppend b).pending = s.pending := rfl
@[simp] theorem State.winAppend_reply (b : Byte) (s : State) : (s.winAppend b).reply = s.reply := rfl
@[simp] theorem State.winAppend_draws (b : Byte) (s : State) : (s.winAppend b).draws = s.draws := rfl

/-! ## winFill -/

@[simp] theorem State.winFill_cfg (v : Byte) (s : State) : (s.winFill v).cfg = s.cfg := rfl
@[simp] theorem State.winFill_inMem (v : Byte) (s : State) : (s.winFill v).inMem = s.inMem := rfl
@[simp] theorem State.winFill_inLen (v : Byte) (s : State) : (s.winFill v).inLen = s.inLen := rfl
@[simp] theorem State.winFill_srcCur (v : Byte) (s : State) : (s.winFill v).srcCur = s.srcCur := rfl
@[simp] theorem State.winFill_outMem (v : Byte) (s : State) : (s.winFill v).outMem = s.outMem := rfl
@[simp] theorem State.winFill_outLen (v : Byte) (s : State) : (s.winFill v).outLen = s.outLen := rfl
@[simp] theorem State.winFill_win (v : Byte) (s : State) : (s.winFill v).win = Memory.fillAll v := rfl
@[simp] theorem State.winFill_winCur (v : Byte) (s : State) : (s.winFill v).winCur = s.winCur := rfl
@[simp] theorem State.winFill_status (v : Byte) (s : State) : (s.winFill v).status = s.status := rfl
@[simp] theorem State.winFill_errCode (v : Byte) (s : State) : (s.winFill v).errCode = s.errCode := rfl
@[simp] theorem State.winFill_arg (v : Byte) (s : State) : (s.winFill v).arg = s.arg := rfl
@[simp] theorem State.winFill_result (v : Byte) (s : State) : (s.winFill v).result = s.result := rfl
@[simp] theorem State.winFill_engine (v : Byte) (s : State) : (s.winFill v).engine = s.engine := rfl
@[simp] theorem State.winFill_pending (v : Byte) (s : State) : (s.winFill v).pending = s.pending := rfl
@[simp] theorem State.winFill_reply (v : Byte) (s : State) : (s.winFill v).reply = s.reply := rfl
@[simp] theorem State.winFill_draws (v : Byte) (s : State) : (s.winFill v).draws = s.draws := rfl

/-! ## winSeek -/

@[simp] theorem State.winSeek_cfg (c : Nat) (s : State) : (s.winSeek c).cfg = s.cfg := rfl
@[simp] theorem State.winSeek_inMem (c : Nat) (s : State) : (s.winSeek c).inMem = s.inMem := rfl
@[simp] theorem State.winSeek_inLen (c : Nat) (s : State) : (s.winSeek c).inLen = s.inLen := rfl
@[simp] theorem State.winSeek_srcCur (c : Nat) (s : State) : (s.winSeek c).srcCur = s.srcCur := rfl
@[simp] theorem State.winSeek_outMem (c : Nat) (s : State) : (s.winSeek c).outMem = s.outMem := rfl
@[simp] theorem State.winSeek_outLen (c : Nat) (s : State) : (s.winSeek c).outLen = s.outLen := rfl
@[simp] theorem State.winSeek_win (c : Nat) (s : State) : (s.winSeek c).win = s.win := rfl
@[simp] theorem State.winSeek_winCur (c : Nat) (s : State) : (s.winSeek c).winCur = BitVec.ofNat 13 (c % Config.winSize) := rfl
@[simp] theorem State.winSeek_status (c : Nat) (s : State) : (s.winSeek c).status = s.status := rfl
@[simp] theorem State.winSeek_errCode (c : Nat) (s : State) : (s.winSeek c).errCode = s.errCode := rfl
@[simp] theorem State.winSeek_arg (c : Nat) (s : State) : (s.winSeek c).arg = s.arg := rfl
@[simp] theorem State.winSeek_result (c : Nat) (s : State) : (s.winSeek c).result = s.result := rfl
@[simp] theorem State.winSeek_engine (c : Nat) (s : State) : (s.winSeek c).engine = s.engine := rfl
@[simp] theorem State.winSeek_pending (c : Nat) (s : State) : (s.winSeek c).pending = s.pending := rfl
@[simp] theorem State.winSeek_reply (c : Nat) (s : State) : (s.winSeek c).reply = s.reply := rfl
@[simp] theorem State.winSeek_draws (c : Nat) (s : State) : (s.winSeek c).draws = s.draws := rfl

/-! ## resetWindow -/

@[simp] theorem State.resetWindow_cfg (s : State) : s.resetWindow.cfg = s.cfg := rfl
@[simp] theorem State.resetWindow_inMem (s : State) : s.resetWindow.inMem = s.inMem := rfl
@[simp] theorem State.resetWindow_inLen (s : State) : s.resetWindow.inLen = s.inLen := rfl
@[simp] theorem State.resetWindow_srcCur (s : State) : s.resetWindow.srcCur = s.srcCur := rfl
@[simp] theorem State.resetWindow_outMem (s : State) : s.resetWindow.outMem = s.outMem := rfl
@[simp] theorem State.resetWindow_outLen (s : State) : s.resetWindow.outLen = s.outLen := rfl
@[simp] theorem State.resetWindow_win (s : State) : s.resetWindow.win = Memory.fillAll s.cfg.fill := rfl
@[simp] theorem State.resetWindow_winCur (s : State) : s.resetWindow.winCur = 0#13 := rfl
@[simp] theorem State.resetWindow_status (s : State) : s.resetWindow.status = s.status := rfl
@[simp] theorem State.resetWindow_errCode (s : State) : s.resetWindow.errCode = s.errCode := rfl
@[simp] theorem State.resetWindow_arg (s : State) : s.resetWindow.arg = s.arg := rfl
@[simp] theorem State.resetWindow_result (s : State) : s.resetWindow.result = s.result := rfl
@[simp] theorem State.resetWindow_engine (s : State) : s.resetWindow.engine = s.engine := rfl
@[simp] theorem State.resetWindow_pending (s : State) : s.resetWindow.pending = s.pending := rfl
@[simp] theorem State.resetWindow_reply (s : State) : s.resetWindow.reply = s.reply := rfl
@[simp] theorem State.resetWindow_draws (s : State) : s.resetWindow.draws = s.draws := rfl

/-! ## dropOut -/

@[simp] theorem State.dropOut_cfg (s : State) : s.dropOut.cfg = s.cfg := rfl
@[simp] theorem State.dropOut_inMem (s : State) : s.dropOut.inMem = s.inMem := rfl
@[simp] theorem State.dropOut_inLen (s : State) : s.dropOut.inLen = s.inLen := rfl
@[simp] theorem State.dropOut_srcCur (s : State) : s.dropOut.srcCur = s.srcCur := rfl
@[simp] theorem State.dropOut_outMem (s : State) : s.dropOut.outMem = Memory.unwritten s.draws := rfl
@[simp] theorem State.dropOut_outLen (s : State) : s.dropOut.outLen = 0#32 := rfl
@[simp] theorem State.dropOut_win (s : State) : s.dropOut.win = s.win := rfl
@[simp] theorem State.dropOut_winCur (s : State) : s.dropOut.winCur = s.winCur := rfl
@[simp] theorem State.dropOut_status (s : State) : s.dropOut.status = s.status := rfl
@[simp] theorem State.dropOut_errCode (s : State) : s.dropOut.errCode = s.errCode := rfl
@[simp] theorem State.dropOut_arg (s : State) : s.dropOut.arg = s.arg := rfl
@[simp] theorem State.dropOut_result (s : State) : s.dropOut.result = s.result := rfl
@[simp] theorem State.dropOut_engine (s : State) : s.dropOut.engine = s.engine := rfl
@[simp] theorem State.dropOut_pending (s : State) : s.dropOut.pending = s.pending := rfl
@[simp] theorem State.dropOut_reply (s : State) : s.dropOut.reply = s.reply := rfl
@[simp] theorem State.dropOut_draws (s : State) : s.dropOut.draws = s.draws + 1 := rfl

/-! ## freeCursor -/

@[simp] theorem State.freeCursor_cfg (s : State) : s.freeCursor.cfg = s.cfg := rfl
@[simp] theorem State.freeCursor_inMem (s : State) : s.freeCursor.inMem = s.inMem := rfl
@[simp] theorem State.freeCursor_inLen (s : State) : s.freeCursor.inLen = s.inLen := rfl
@[simp] theorem State.freeCursor_srcCur (s : State) : s.freeCursor.srcCur = BitVec.ofNat 32 ((Config.freeWord s.draws).toNat % (s.inLen.toNat + 1)) := rfl
@[simp] theorem State.freeCursor_outMem (s : State) : s.freeCursor.outMem = s.outMem := rfl
@[simp] theorem State.freeCursor_outLen (s : State) : s.freeCursor.outLen = s.outLen := rfl
@[simp] theorem State.freeCursor_win (s : State) : s.freeCursor.win = s.win := rfl
@[simp] theorem State.freeCursor_winCur (s : State) : s.freeCursor.winCur = s.winCur := rfl
@[simp] theorem State.freeCursor_status (s : State) : s.freeCursor.status = s.status := rfl
@[simp] theorem State.freeCursor_errCode (s : State) : s.freeCursor.errCode = s.errCode := rfl
@[simp] theorem State.freeCursor_arg (s : State) : s.freeCursor.arg = s.arg := rfl
@[simp] theorem State.freeCursor_result (s : State) : s.freeCursor.result = s.result := rfl
@[simp] theorem State.freeCursor_engine (s : State) : s.freeCursor.engine = s.engine := rfl
@[simp] theorem State.freeCursor_pending (s : State) : s.freeCursor.pending = s.pending := rfl
@[simp] theorem State.freeCursor_reply (s : State) : s.freeCursor.reply = s.reply := rfl
@[simp] theorem State.freeCursor_draws (s : State) : s.freeCursor.draws = s.draws + 1 := rfl

/-! ## freeWindow -/

@[simp] theorem State.freeWindow_cfg (s : State) : s.freeWindow.cfg = s.cfg := rfl
@[simp] theorem State.freeWindow_inMem (s : State) : s.freeWindow.inMem = s.inMem := rfl
@[simp] theorem State.freeWindow_inLen (s : State) : s.freeWindow.inLen = s.inLen := rfl
@[simp] theorem State.freeWindow_srcCur (s : State) : s.freeWindow.srcCur = s.srcCur := rfl
@[simp] theorem State.freeWindow_outMem (s : State) : s.freeWindow.outMem = s.outMem := rfl
@[simp] theorem State.freeWindow_outLen (s : State) : s.freeWindow.outLen = s.outLen := rfl
@[simp] theorem State.freeWindow_win (s : State) : s.freeWindow.win = Memory.unwritten s.draws := rfl
@[simp] theorem State.freeWindow_winCur (s : State) : s.freeWindow.winCur = BitVec.ofNat 13 ((Config.freeWord (s.draws + 1)).toNat % Config.winSize) := rfl
@[simp] theorem State.freeWindow_status (s : State) : s.freeWindow.status = s.status := rfl
@[simp] theorem State.freeWindow_errCode (s : State) : s.freeWindow.errCode = s.errCode := rfl
@[simp] theorem State.freeWindow_arg (s : State) : s.freeWindow.arg = s.arg := rfl
@[simp] theorem State.freeWindow_result (s : State) : s.freeWindow.result = s.result := rfl
@[simp] theorem State.freeWindow_engine (s : State) : s.freeWindow.engine = s.engine := rfl
@[simp] theorem State.freeWindow_pending (s : State) : s.freeWindow.pending = s.pending := rfl
@[simp] theorem State.freeWindow_reply (s : State) : s.freeWindow.reply = s.reply := rfl
@[simp] theorem State.freeWindow_draws (s : State) : s.freeWindow.draws = s.draws + 2 := rfl

/-! ## patchHeader -/

@[simp] theorem State.patchHeader_cfg (l : Nat) (s : State) : (s.patchHeader l).cfg = s.cfg := rfl
@[simp] theorem State.patchHeader_inMem (l : Nat) (s : State) : (s.patchHeader l).inMem = s.inMem := rfl
@[simp] theorem State.patchHeader_inLen (l : Nat) (s : State) : (s.patchHeader l).inLen = s.inLen := rfl
@[simp] theorem State.patchHeader_srcCur (l : Nat) (s : State) : (s.patchHeader l).srcCur = s.srcCur := rfl
@[simp] theorem State.patchHeader_outMem (l : Nat) (s : State) : (s.patchHeader l).outMem = (s.outMem.write 0 (byteOf l)).write 1 (byteOf (l >>> 8)) := rfl
@[simp] theorem State.patchHeader_outLen (l : Nat) (s : State) : (s.patchHeader l).outLen = s.outLen := rfl
@[simp] theorem State.patchHeader_win (l : Nat) (s : State) : (s.patchHeader l).win = s.win := rfl
@[simp] theorem State.patchHeader_winCur (l : Nat) (s : State) : (s.patchHeader l).winCur = s.winCur := rfl
@[simp] theorem State.patchHeader_status (l : Nat) (s : State) : (s.patchHeader l).status = s.status := rfl
@[simp] theorem State.patchHeader_errCode (l : Nat) (s : State) : (s.patchHeader l).errCode = s.errCode := rfl
@[simp] theorem State.patchHeader_arg (l : Nat) (s : State) : (s.patchHeader l).arg = s.arg := rfl
@[simp] theorem State.patchHeader_result (l : Nat) (s : State) : (s.patchHeader l).result = s.result := rfl
@[simp] theorem State.patchHeader_engine (l : Nat) (s : State) : (s.patchHeader l).engine = s.engine := rfl
@[simp] theorem State.patchHeader_pending (l : Nat) (s : State) : (s.patchHeader l).pending = s.pending := rfl
@[simp] theorem State.patchHeader_reply (l : Nat) (s : State) : (s.patchHeader l).reply = s.reply := rfl
@[simp] theorem State.patchHeader_draws (l : Nat) (s : State) : (s.patchHeader l).draws = s.draws := rfl

/-! ## takeAction -/

@[simp] theorem State.takeAction_cfg (rest : List HostAction) (s : State) : (s.takeAction rest).cfg = s.cfg := rfl
@[simp] theorem State.takeAction_inMem (rest : List HostAction) (s : State) : (s.takeAction rest).inMem = s.inMem := rfl
@[simp] theorem State.takeAction_inLen (rest : List HostAction) (s : State) : (s.takeAction rest).inLen = s.inLen := rfl
@[simp] theorem State.takeAction_srcCur (rest : List HostAction) (s : State) : (s.takeAction rest).srcCur = s.srcCur := rfl
@[simp] theorem State.takeAction_outMem (rest : List HostAction) (s : State) : (s.takeAction rest).outMem = s.outMem := rfl
@[simp] theorem State.takeAction_outLen (rest : List HostAction) (s : State) : (s.takeAction rest).outLen = s.outLen := rfl
@[simp] theorem State.takeAction_win (rest : List HostAction) (s : State) : (s.takeAction rest).win = s.win := rfl
@[simp] theorem State.takeAction_winCur (rest : List HostAction) (s : State) : (s.takeAction rest).winCur = s.winCur := rfl
@[simp] theorem State.takeAction_status (rest : List HostAction) (s : State) : (s.takeAction rest).status = s.status := rfl
@[simp] theorem State.takeAction_errCode (rest : List HostAction) (s : State) : (s.takeAction rest).errCode = s.errCode := rfl
@[simp] theorem State.takeAction_arg (rest : List HostAction) (s : State) : (s.takeAction rest).arg = s.arg := rfl
@[simp] theorem State.takeAction_result (rest : List HostAction) (s : State) : (s.takeAction rest).result = s.result := rfl
@[simp] theorem State.takeAction_engine (rest : List HostAction) (s : State) : (s.takeAction rest).engine = s.engine := rfl
@[simp] theorem State.takeAction_pending (rest : List HostAction) (s : State) : (s.takeAction rest).pending = rest := rfl
@[simp] theorem State.takeAction_reply (rest : List HostAction) (s : State) : (s.takeAction rest).reply = none := rfl
@[simp] theorem State.takeAction_draws (rest : List HostAction) (s : State) : (s.takeAction rest).draws = s.draws := rfl

end Sys2Proof.Machine
end

