-- ==== Sys2Proof/Laws/Memory.lean ====
section
/-! SUPPORT. Byte memories: a read after a write, and the canonical form that every operation keeps. -/

namespace Sys2Proof.Machine

/-! ## Cell lists -/

@[simp] theorem cellsRead_nil (a : Nat) : cellsRead a [] = none := rfl

theorem cellsRead_write (a x : Nat) (b : Byte) (cs : List Host.Cell) :
    cellsRead x (cellsWrite a b cs) = if x = a then some b else cellsRead x cs := by
  induction cs with
  | nil => simp [cellsWrite, cellsRead, eq_comm]
  | cons c t ih =>
    obtain ⟨y, v⟩ := c
    simp only [cellsWrite]
    split
    · simp [cellsRead, eq_comm]
    · split
      · subst_vars
        by_cases h : x = y <;> simp [cellsRead, h, eq_comm]
      · simp only [cellsRead, ih]
        by_cases h : x = a
        · simp [h, show ¬ y = a by omega]
        · simp [h]

/-- Nothing is listed below the bound of a rising list. -/
theorem cellsRead_of_rising {l x : Nat} {cs : List Host.Cell} (h : cellsRising (some l) cs = true) (hx : x ≤ l) :
    cellsRead x cs = none := by
  induction cs generalizing l with
  | nil => rfl
  | cons c t ih =>
    obtain ⟨y, v⟩ := c
    simp only [cellsRising, Bool.and_eq_true, decide_eq_true_eq] at h
    have hne : ¬ y = x := by omega
    simpa [cellsRead, hne] using ih h.2 (by omega)

theorem cellsRising_tail {lo : Option Nat} {c : Host.Cell} {t : List Host.Cell}
    (h : cellsRising lo (c :: t) = true) : cellsRising (some c.1) t = true := by
  obtain ⟨y, v⟩ := c
  simp only [cellsRising, Bool.and_eq_true] at h
  exact h.2

theorem cellsRead_erase {lo : Option Nat} {a x : Nat} {cs : List Host.Cell} (h : cellsRising lo cs = true) :
    cellsRead x (cellsErase a cs) = if x = a then none else cellsRead x cs := by
  induction cs generalizing lo with
  | nil => simp [cellsErase, cellsRead]
  | cons c t ih =>
    obtain ⟨y, v⟩ := c
    have ht := cellsRising_tail h
    simp only [cellsErase]
    split
    · subst_vars
      by_cases hx : x = y
      · simp [hx, cellsRead_of_rising ht (Nat.le_refl y)]
      · simp [hx, cellsRead, Ne.symm hx]
    · simp only [cellsRead, ih ht]
      by_cases hx : x = a
      · simp [hx, show ¬ y = a by omega]
      · simp [hx]

theorem cellsRising_write {lo : Option Nat} {a : Nat} {b : Byte} {cs : List Host.Cell}
    (h : cellsRising lo cs = true) (ha : ∀ l, lo = some l → l < a) : cellsRising lo (cellsWrite a b cs) = true := by
  induction cs generalizing lo with
  | nil => cases lo <;> simp_all [cellsWrite, cellsRising]
  | cons c t ih =>
    obtain ⟨y, v⟩ := c
    have ht := cellsRising_tail h
    simp only [cellsWrite]
    split
    · cases lo <;> simp_all [cellsRising]
    · split
      · subst_vars; cases lo <;> simp_all [cellsRising]
      · have hy : y < a := by omega
        have := ih ht (by rintro l ⟨⟩; exact hy)
        cases lo <;> simp_all [cellsRising]

theorem cellsRising_weaken {l y : Nat} {cs : List Host.Cell} (h : cellsRising (some y) cs = true) (hl : l < y) :
    cellsRising (some l) cs = true := by
  cases cs with
  | nil => rfl
  | cons c t =>
    obtain ⟨z, v⟩ := c
    simp only [cellsRising, Bool.and_eq_true, decide_eq_true_eq] at h ⊢
    exact ⟨by omega, h.2⟩

theorem cellsRising_erase {lo : Option Nat} {a : Nat} {cs : List Host.Cell} (h : cellsRising lo cs = true) :
    cellsRising lo (cellsErase a cs) = true := by
  induction cs generalizing lo with
  | nil => rfl
  | cons c t ih =>
    obtain ⟨y, v⟩ := c
    have ht := cellsRising_tail h
    simp only [cellsErase]
    split
    · cases lo with
      | none =>
        cases t with
        | nil => rfl
        | cons d t' => simp only [cellsRising, Bool.and_eq_true, Bool.true_and] at ht ⊢; exact ht.2
      | some l =>
        simp only [cellsRising, Bool.and_eq_true, decide_eq_true_eq] at h
        exact cellsRising_weaken ht h.1
    · simp only [cellsRising, Bool.and_eq_true] at h ⊢
      exact ⟨h.1, ih ht⟩

theorem all_cellsWrite {p : Host.Cell → Bool} {a : Nat} {b : Byte} {cs : List Host.Cell} (h : cs.all p = true)
    (hb : p (a, b) = true) : (cellsWrite a b cs).all p = true := by
  induction cs with
  | nil => simp [cellsWrite, hb]
  | cons c t ih =>
    obtain ⟨y, v⟩ := c
    simp only [List.all_cons, Bool.and_eq_true] at h
    simp only [cellsWrite]
    split
    · simp only [List.all_cons, Bool.and_eq_true]; exact ⟨hb, h.1, h.2⟩
    · split
      · simp only [List.all_cons, Bool.and_eq_true]; exact ⟨hb, h.2⟩
      · simp only [List.all_cons, Bool.and_eq_true]; exact ⟨h.1, ih h.2⟩

theorem all_cellsErase {p : Host.Cell → Bool} {a : Nat} {cs : List Host.Cell} (h : cs.all p = true) :
    (cellsErase a cs).all p = true := by
  induction cs with
  | nil => rfl
  | cons c t ih =>
    obtain ⟨y, v⟩ := c
    simp only [List.all_cons, Bool.and_eq_true] at h
    simp only [cellsErase]
    split
    · exact h.2
    · simp only [List.all_cons, Bool.and_eq_true]; exact ⟨h.1, ih h.2⟩

/-! ## Memories -/

theorem Memory.rising_of_wf {m : Memory} (h : m.wf = true) : cellsRising none m.cells = true := by
  simp only [Memory.wf, Bool.and_eq_true] at h
  exact h.1

/-- A read after a write to any address (the law of R69 for one memory). -/
theorem Memory.read_write {m : Memory} (h : m.wf = true) (a x : Nat) (b : Byte) :
    (m.write a b).read x = if x = a then b else m.read x := by
  unfold Memory.write
  split
  next hb =>
    simp only [Memory.read, cellsRead_erase (Memory.rising_of_wf h)]
    by_cases hx : x = a <;> simp [hx, hb, Background.byteAt]
  next =>
    simp only [Memory.read, cellsRead_write]
    by_cases hx : x = a <;> simp [hx]

/-- Every write keeps the canonical form. -/
theorem Memory.wf_write {m : Memory} (h : m.wf = true) (a : Nat) (b : Byte) : (m.write a b).wf = true := by
  have hr := Memory.rising_of_wf h
  simp only [Memory.wf, Bool.and_eq_true] at h
  unfold Memory.write
  split
  next => simp only [Memory.wf, Bool.and_eq_true]; exact ⟨cellsRising_erase hr, all_cellsErase h.2⟩
  next hb =>
    simp only [Memory.wf, Bool.and_eq_true]
    exact ⟨cellsRising_write hr (by simp), all_cellsWrite h.2 (by simpa using hb)⟩

theorem Memory.wf_unwritten (d : Nat) : (Memory.unwritten d).wf = true := rfl

theorem Memory.wf_fillAll (v : Byte) : (Memory.fillAll v).wf = true := rfl

theorem Memory.wf_writeAll {m : Memory} (h : m.wf = true) (a : Nat) (bs : List Byte) : (m.writeAll a bs).wf = true := by
  induction bs generalizing m a with
  | nil => exact h
  | cons b bs ih => exact ih (Memory.wf_write h a b) (a + 1)

@[simp] theorem Memory.write_background (m : Memory) (a : Nat) (b : Byte) : (m.write a b).background = m.background := by
  unfold Memory.write; split <;> rfl

theorem Memory.below_write {m : Memory} {n a : Nat} {b : Byte} (h : cellsBelow n m.cells = true) (ha : a < n) :
    cellsBelow n (m.write a b).cells = true := by
  unfold Memory.write
  split
  · exact all_cellsErase h
  · exact all_cellsWrite h (by simpa using ha)

@[simp] theorem Memory.read_unwritten (d a : Nat) : (Memory.unwritten d).read a = Config.freeByte d a := rfl

@[simp] theorem Memory.read_fillAll (v : Byte) (a : Nat) : (Memory.fillAll v).read a = v := rfl

@[simp] theorem Memory.bytes_length (m : Memory) (a n : Nat) : (m.bytes a n).length = n := by
  induction n generalizing a with
  | zero => rfl
  | succ n ih => simp [Memory.bytes, ih]

theorem Memory.bytes_getD (m : Memory) (a n k : Nat) (v : Byte) (h : k < n) : (m.bytes a n).getD k v = m.read (a + k) := by
  induction n generalizing a k with
  | zero => omega
  | succ n ih =>
    cases k with
    | zero => simp [Memory.bytes]
    | succ k => simpa [Memory.bytes, Nat.add_comm, Nat.add_left_comm] using ih (a + 1) k (by omega)

/-- Two byte ranges are equal lists exactly when they are equal byte by byte. -/
theorem Memory.bytes_eq_iff (m m' : Memory) (a a' n : Nat) :
    m.bytes a n = m'.bytes a' n ↔ ∀ k, k < n → m.read (a + k) = m'.read (a' + k) := by
  induction n generalizing a a' with
  | zero => simp [Memory.bytes]
  | succ n ih =>
    simp only [Memory.bytes, List.cons.injEq, ih]
    constructor
    · rintro ⟨h0, h⟩ k hk
      cases k with
      | zero => exact h0
      | succ k => simpa [Nat.add_comm, Nat.add_left_comm] using h k (by omega)
    · intro h
      refine ⟨by simpa using h 0 (by omega), fun k hk => ?_⟩
      simpa [Nat.add_comm, Nat.add_left_comm] using h (k + 1) (by omega)

theorem Memory.read_writeAll {m : Memory} (h : m.wf = true) (a x : Nat) (bs : List Byte) :
    (m.writeAll a bs).read x = if a ≤ x ∧ x < a + bs.length then bs.getD (x - a) 0#8 else m.read x := by
  induction bs generalizing m a with
  | nil => simp [Memory.writeAll, show ¬ (a ≤ x ∧ x < a) by omega]
  | cons b bs ih =>
    simp only [Memory.writeAll, ih (Memory.wf_write h a b), Memory.read_write h, List.length_cons]
    by_cases hx : x = a
    · subst hx
      simp
    · by_cases hr : a + 1 ≤ x ∧ x < a + 1 + bs.length
      · have h2 : a ≤ x ∧ x < a + (bs.length + 1) := by omega
        obtain ⟨k, rfl⟩ : ∃ k, x = a + 1 + k := ⟨x - (a + 1), by omega⟩
        have e1 : a + 1 + k - (a + 1) = k := by omega
        have e2 : a + 1 + k - a = k + 1 := by omega
        simp [hr, h2, e1, e2]
      · have h2 : ¬ (a ≤ x ∧ x < a + (bs.length + 1)) := by omega
        rw [if_neg hr, if_neg h2, if_neg hx]

end Sys2Proof.Machine
end

