-- ==== Sys2Proof/Laws/Ops.lean ====
section
/-! SUPPORT. What each shared operation can do: the port reads, the appends to OUT, and raising an error. -/

namespace Sys2Proof.Machine

/-! ## Words -/

theorem toNat_add_ofNat {w : Nat} (x : BitVec w) (n : Nat) (h : x.toNat + n < 2 ^ w) :
    (x + BitVec.ofNat w n).toNat = x.toNat + n := by
  have hn : n < 2 ^ w := by omega
  simp [BitVec.toNat_add, BitVec.toNat_ofNat, Nat.mod_eq_of_lt hn, Nat.mod_eq_of_lt h]

/-- A word below another can be counted on by one. -/
theorem toNat_succ {x y : Word} (h : x.toNat < y.toNat) : (x + 1#32).toNat = x.toNat + 1 :=
  toNat_add_ofNat x 1 (by have := y.isLt; omega)

/-! ## The byte port -/

theorem State.memRead_eq_some {s : State} {a n : Nat} {bs : List Byte} (h : s.memRead a n = some bs) :
    a + n ≤ s.inLen.toNat ∧ bs = s.inMem.bytes a n := by
  unfold State.memRead at h
  split at h
  · exact ⟨‹_›, by simpa using h.symm⟩
  · cases h

theorem State.portRead_of_le {s : State} {n : Nat} (h : s.srcCur.toNat + n ≤ s.inLen.toNat) :
    s.portRead n = some (s.inMem.bytes s.srcCur.toNat n, s.advance n) := by
  simp [State.portRead, State.memRead, h]

theorem State.portRead_of_gt {s : State} {n : Nat} (h : s.inLen.toNat < s.srcCur.toNat + n) : s.portRead n = none := by
  simp [State.portRead, State.memRead, show ¬ s.srcCur.toNat + n ≤ s.inLen.toNat by omega]

theorem State.readU8_of_lt {s : State} (h : s.srcCur.toNat < s.inLen.toNat) :
    s.readU8 = some (s.inByte s.srcCur.toNat, s.advance 1) := by
  simp [State.readU8, State.portRead_of_le (s := s) (n := 1) (by omega), Memory.bytes, State.inByte]

theorem State.readU8_of_ge {s : State} (h : s.inLen.toNat ≤ s.srcCur.toNat) : s.readU8 = none := by
  simp [State.readU8, State.portRead_of_gt (s := s) (n := 1) (by omega)]

/-- What an 8-bit port read can do (R54). -/
theorem State.readU8_eq_some {s t : State} {b : Byte} (h : s.readU8 = some (b, t)) :
    s.srcCur.toNat < s.inLen.toNat ∧ b = s.inByte s.srcCur.toNat ∧ t = s.advance 1 := by
  by_cases hl : s.srcCur.toNat < s.inLen.toNat
  · rw [State.readU8_of_lt hl] at h
    simp only [Option.some.injEq, Prod.mk.injEq] at h
    exact ⟨hl, h.1.symm, h.2.symm⟩
  · rw [State.readU8_of_ge (by omega)] at h
    cases h

theorem State.advance_srcCur_toNat {s : State} {n : Nat} (h : s.srcCur.toNat + n ≤ s.inLen.toNat) :
    (s.advance n).srcCur.toNat = s.srcCur.toNat + n :=
  toNat_add_ofNat s.srcCur n (by have := s.inLen.isLt; omega)

@[simp] theorem State.streamBytes_length (s : State) (n : Nat) :
    (s.streamBytes n).length = min n (s.inLen.toNat - s.srcCur.toNat) := by
  simp [State.streamBytes]

/-! ## Appending to OUT -/

theorem State.outAppend_ok {s t : State} {v : Byte} (h : s.outAppend v = .ok t) :
    s.outLen ≠ s.cfg.outCap ∧
      t = { s with outMem := s.outMem.write s.outLen.toNat v, outLen := s.outLen + 1#32 } := by
  unfold State.outAppend at h
  split at h
  · cases h
  · exact ⟨‹_›, by simpa using h.symm⟩

theorem State.outAppend_error {s : State} {v : Byte} {e : ErrKind} (h : s.outAppend v = .error e) :
    s.outLen = s.cfg.outCap ∧ e = .outputOverflow := by
  unfold State.outAppend at h
  split at h
  · exact ⟨‹_›, by simpa using h.symm⟩
  · cases h

theorem State.outAppend_of_room {s : State} (v : Byte) (h : s.outLen.toNat < s.cfg.outCap.toNat) :
    s.outAppend v = .ok { s with outMem := s.outMem.write s.outLen.toNat v, outLen := s.outLen + 1#32 } := by
  have : s.outLen ≠ s.cfg.outCap := fun hc => by simp [hc] at h
  simp [State.outAppend, this]

theorem State.outAppend_full {s : State} (v : Byte) (h : s.outLen.toNat = s.cfg.outCap.toNat) :
    s.outAppend v = .error .outputOverflow := by
  simp [State.outAppend, BitVec.eq_of_toNat_eq h]

/-- Every append loop leaves alone all but OUT, OUT_LEN and SRC_CUR. -/
structure State.OutOnly (s t : State) : Prop where
  same : t = { s with outMem := t.outMem, outLen := t.outLen }

theorem State.OutOnly.refl (s : State) : s.OutOnly s := ⟨rfl⟩

theorem State.OutOnly.trans {s t u : State} (h : s.OutOnly t) (h' : t.OutOnly u) : s.OutOnly u := by
  refine ⟨?_⟩
  have h1 := h.same
  have h2 := h'.same
  rw [h1] at h2
  exact h2

theorem State.OutOnly.appended {s t : State} {v : Byte} (h : s.outAppend v = .ok t) : s.OutOnly t := by
  obtain ⟨-, rfl⟩ := State.outAppend_ok h
  exact ⟨rfl⟩

theorem State.OutOnly.cfg {s t : State} (h : s.OutOnly t) : t.cfg = s.cfg := by rw [h.same]
theorem State.OutOnly.inMem {s t : State} (h : s.OutOnly t) : t.inMem = s.inMem := by rw [h.same]
theorem State.OutOnly.inLen {s t : State} (h : s.OutOnly t) : t.inLen = s.inLen := by rw [h.same]
theorem State.OutOnly.srcCur {s t : State} (h : s.OutOnly t) : t.srcCur = s.srcCur := by rw [h.same]
theorem State.OutOnly.win {s t : State} (h : s.OutOnly t) : t.win = s.win := by rw [h.same]
theorem State.OutOnly.winCur {s t : State} (h : s.OutOnly t) : t.winCur = s.winCur := by rw [h.same]
theorem State.OutOnly.status {s t : State} (h : s.OutOnly t) : t.status = s.status := by rw [h.same]
theorem State.OutOnly.errCode {s t : State} (h : s.OutOnly t) : t.errCode = s.errCode := by rw [h.same]
theorem State.OutOnly.arg {s t : State} (h : s.OutOnly t) : t.arg = s.arg := by rw [h.same]
theorem State.OutOnly.result {s t : State} (h : s.OutOnly t) : t.result = s.result := by rw [h.same]
theorem State.OutOnly.engine {s t : State} (h : s.OutOnly t) : t.engine = s.engine := by rw [h.same]
theorem State.OutOnly.pending {s t : State} (h : s.OutOnly t) : t.pending = s.pending := by rw [h.same]
theorem State.OutOnly.reply {s t : State} (h : s.OutOnly t) : t.reply = s.reply := by rw [h.same]
theorem State.OutOnly.draws {s t : State} (h : s.OutOnly t) : t.draws = s.draws := by rw [h.same]

theorem State.appendAll_outOnly {bs : List Byte} {s t : State} (h : s.appendAll bs = .ok t) : s.OutOnly t := by
  induction bs generalizing s with
  | nil => cases h; exact .refl _
  | cons b bs ih =>
    simp only [State.appendAll] at h
    split at h
    · exact (State.OutOnly.appended ‹_›).trans (ih h)
    · cases h

theorem State.appendRun_outOnly {v : Byte} {n : Nat} {s t : State} (h : s.appendRun v n = .ok t) : s.OutOnly t := by
  induction n generalizing s with
  | zero => cases h; exact .refl _
  | succ n ih =>
    simp only [State.appendRun] at h
    split at h
    · cases h
    · exact (State.OutOnly.appended ‹_›).trans (ih h)

theorem State.copyBack_outOnly {pos n : Nat} {s t : State} (h : s.copyBack pos n = .ok t) : s.OutOnly t := by
  induction n generalizing s with
  | zero => cases h; exact .refl _
  | succ n ih =>
    simp only [State.copyBack] at h
    split at h
    · cases h
    · split at h
      · cases h
      · exact (State.OutOnly.appended ‹_›).trans (ih h)

/-- What `BackRef` can do (R59). -/
theorem State.backRef_eq {s : State} {pos : Nat} :
    s.backRef pos = if pos = 0 ∨ s.outLen.toNat < pos then .error .corruptStream
      else .ok (s.outByte (s.outLen.toNat - pos)) := rfl

/-- OUT is in canonical form within its capacity, over a draw already taken. -/
structure State.OutOk (s : State) : Prop where
  wf : s.outMem.wf = true
  below : cellsBelow s.cfg.outCap.toNat s.outMem.cells = true
  len : s.outLen.toNat ≤ s.cfg.outCap.toNat
  drawn : s.outMem.background.drawn s.draws = true

theorem State.OutOk.append {s t : State} {v : Byte} (hs : s.OutOk) (h : s.outAppend v = .ok t) : t.OutOk := by
  obtain ⟨hne, rfl⟩ := State.outAppend_ok h
  have hlt : s.outLen.toNat < s.cfg.outCap.toNat := by
    have hne' : s.outLen.toNat ≠ s.cfg.outCap.toNat := fun hc => hne (BitVec.eq_of_toNat_eq hc)
    have := hs.len
    omega
  exact ⟨Memory.wf_write hs.wf _ _, Memory.below_write hs.below hlt, by simp only [toNat_succ hlt]; exact hlt,
    by simpa using hs.drawn⟩

theorem State.OutOk.appendAll {bs : List Byte} {s t : State} (hs : s.OutOk) (h : s.appendAll bs = .ok t) : t.OutOk := by
  induction bs generalizing s with
  | nil => cases h; exact hs
  | cons b bs ih =>
    simp only [State.appendAll] at h
    split at h
    · exact ih (hs.append ‹_›) h
    · cases h

theorem State.OutOk.appendRun {v : Byte} {n : Nat} {s t : State} (hs : s.OutOk) (h : s.appendRun v n = .ok t) :
    t.OutOk := by
  induction n generalizing s with
  | zero => cases h; exact hs
  | succ n ih =>
    simp only [State.appendRun] at h
    split at h
    · cases h
    · exact ih (hs.append ‹_›) h

theorem State.OutOk.copyBack {pos n : Nat} {s t : State} (hs : s.OutOk) (h : s.copyBack pos n = .ok t) : t.OutOk := by
  induction n generalizing s with
  | zero => cases h; exact hs
  | succ n ih =>
    simp only [State.copyBack] at h
    split at h
    · cases h
    · split at h
      · cases h
      · exact ih (hs.append ‹_›) h

/-- One append: OUT_LEN grows by one, the byte is read back, the rest reads as before. -/
theorem State.outAppend_appended {s t : State} {v : Byte} (hwf : s.outMem.wf = true)
    (hle : s.outLen.toNat ≤ s.cfg.outCap.toNat) (h : s.outAppend v = .ok t) :
    t.outLen.toNat = s.outLen.toNat + 1 ∧ t.outMem.wf = true ∧
      ∀ i, t.outByte i = if i = s.outLen.toNat then v else s.outByte i := by
  obtain ⟨hne, rfl⟩ := State.outAppend_ok h
  have hlt : s.outLen.toNat < s.cfg.outCap.toNat := by
    have hne' : s.outLen.toNat ≠ s.cfg.outCap.toNat := fun hc => hne (BitVec.eq_of_toNat_eq hc)
    omega
  exact ⟨toNat_succ hlt, Memory.wf_write hwf _ _, fun i => Memory.read_write hwf _ _ _⟩

/-! ## Reading literals -/

/-- A literal loop leaves alone all but OUT, OUT_LEN and SRC_CUR. -/
theorem State.copyLiterals_frame {n : Nat} {s t : State} (h : s.copyLiterals n = .ok t) :
    t = { s with outMem := t.outMem, outLen := t.outLen, srcCur := t.srcCur } := by
  induction n generalizing s with
  | zero => cases h; rfl
  | succ n ih =>
    simp only [State.copyLiterals] at h
    split at h
    · cases h
    · split at h
      · cases h
      · obtain ⟨-, -, rfl⟩ := State.readU8_eq_some ‹_›
        have h1 := (State.OutOnly.appended ‹_›).same
        have h2 := ih h
        rw [h1] at h2
        exact h2

/-- A literal loop that succeeds has read n bytes. -/
theorem State.copyLiterals_srcCur {n : Nat} {s t : State} (h : s.copyLiterals n = .ok t) :
    t.srcCur.toNat = s.srcCur.toNat + n ∧ (0 < n → t.srcCur.toNat ≤ s.inLen.toNat) := by
  induction n generalizing s with
  | zero => cases h; simp
  | succ n ih =>
    simp only [State.copyLiterals] at h
    split at h
    · cases h
    · split at h
      · cases h
      · obtain ⟨hlt, -, rfl⟩ := State.readU8_eq_some ‹_›
        have h1 := State.OutOnly.appended ‹_›
        have h2 := ih h
        have ha : (s.advance 1).srcCur.toNat = s.srcCur.toNat + 1 := State.advance_srcCur_toNat (by omega)
        rw [h1.srcCur, h1.inLen, ha] at h2
        simp only [State.advance_inLen] at h2
        refine ⟨by omega, fun _ => ?_⟩
        rcases Nat.eq_zero_or_pos n with hn | hn
        · omega
        · exact h2.2 hn

theorem State.OutOk.advance {s : State} (n : Nat) (hs : s.OutOk) : (s.advance n).OutOk := ⟨hs.wf, hs.below, hs.len, hs.drawn⟩

theorem State.OutOk.copyLiterals {n : Nat} {s t : State} (hs : s.OutOk) (h : s.copyLiterals n = .ok t) : t.OutOk := by
  induction n generalizing s with
  | zero => cases h; exact hs
  | succ n ih =>
    simp only [State.copyLiterals] at h
    split at h
    · cases h
    · split at h
      · cases h
      · obtain ⟨-, -, rfl⟩ := State.readU8_eq_some ‹_›
        exact ih ((hs.advance 1).append ‹_›) h

/-! ## Raising an error: what it changes, by field (R245) -/

@[simp] theorem raiseError_cfg (e : ErrKind) (p : RaisePoint) (s : State) : (raiseError e p s).cfg = s.cfg := by
  cases p <;> rfl
@[simp] theorem raiseError_inMem (e : ErrKind) (p : RaisePoint) (s : State) : (raiseError e p s).inMem = s.inMem := by
  cases p <;> rfl
@[simp] theorem raiseError_inLen (e : ErrKind) (p : RaisePoint) (s : State) : (raiseError e p s).inLen = s.inLen := by
  cases p <;> rfl
@[simp] theorem raiseError_arg (e : ErrKind) (p : RaisePoint) (s : State) : (raiseError e p s).arg = s.arg := by
  cases p <;> rfl
@[simp] theorem raiseError_result (e : ErrKind) (p : RaisePoint) (s : State) :
    (raiseError e p s).result = s.result := by
  cases p <;> rfl
@[simp] theorem raiseError_pending (e : ErrKind) (p : RaisePoint) (s : State) :
    (raiseError e p s).pending = s.pending := by
  cases p <;> rfl
@[simp] theorem raiseError_reply (e : ErrKind) (p : RaisePoint) (s : State) : (raiseError e p s).reply = s.reply := by
  cases p <;> rfl
@[simp] theorem raiseError_status (e : ErrKind) (p : RaisePoint) (s : State) :
    (raiseError e p s).status = .error := by
  cases p <;> rfl
@[simp] theorem raiseError_errCode (e : ErrKind) (p : RaisePoint) (s : State) :
    (raiseError e p s).errCode = some e := by
  cases p <;> rfl

/-- The cursor a failed DECODE leaves is in [0, IN_LEN] (R245). -/
theorem State.freeCursor_le (s : State) : s.freeCursor.srcCur.toNat ≤ s.inLen.toNat := by
  have h1 := s.inLen.isLt
  have h2 := Nat.mod_lt (Config.freeWord s.draws).toNat (show s.inLen.toNat + 1 > 0 by omega)
  simp only [State.freeCursor_srcCur, BitVec.toNat_ofNat]
  rw [Nat.mod_eq_of_lt (by omega)]
  omega

/-- The draws taken never shrink. -/
theorem raiseError_draws_le (e : ErrKind) (p : RaisePoint) (s : State) : s.draws ≤ (raiseError e p s).draws := by
  cases p <;> simp [raiseError] <;> omega

/-- A failing token, header or end check of a running DECODE. -/
theorem raiseError_decodeFailed {r : DecoderRegs} {s : State} (e : ErrKind) (h : s.engine = .decoding r) :
    s.DecodeFailed (raiseError e .decodeRunning s) e where
  inputs := ⟨rfl, rfl, rfl, rfl, rfl, rfl⟩
  win := rfl
  winCur := rfl
  result := rfl
  status := rfl
  errCode := rfl
  outLen := rfl
  srcCur := State.freeCursor_le ((s.failWith e).dropOut)
  failed := ⟨{ r with dstate := .failed }, by simp [raiseError, h, Engine.fail], rfl⟩

end Sys2Proof.Machine
end

