-- ==== Sys2Proof/Laws/Appends.lean ====
section
/-! SUPPORT. What the append loops do: their outcome by the room in OUT and the bytes left in IN, and the bytes they
append. -/

namespace Sys2Proof.Machine

theorem State.Appended.refl (s : State) (f : Nat → Byte) : s.Appended s 0 f where
  length := rfl
  bytes := fun k hk => absurd hk (Nat.not_lt_zero k)
  others := fun _ _ => rfl

theorem State.Appended.congr {s t : State} {n : Nat} {f g : Nat → Byte} (h : s.Appended t n f)
    (hfg : ∀ k, k < n → f k = g k) : s.Appended t n g where
  length := h.length
  bytes := fun k hk => (h.bytes k hk).trans (hfg k hk)
  others := h.others

/-- One append in front of more. -/
theorem State.Appended.cons {s s1 t : State} {v : Byte} {n : Nat} {g : Nat → Byte} (hwf : s.outMem.wf = true)
    (hle : s.outLen.toNat ≤ s.cfg.outCap.toNat) (h : s.outAppend v = .ok s1) (hg : s1.Appended t n g) :
    s.Appended t (n + 1) (fun k => if k = 0 then v else g (k - 1)) := by
  obtain ⟨hl, -, hr⟩ := State.outAppend_appended hwf hle h
  refine ⟨by rw [hg.length, hl]; omega, ?_, ?_⟩
  · intro k hk
    cases k with
    | zero =>
      have := hg.others s.outLen.toNat (by omega)
      simpa [hr] using this
    | succ k =>
      have := hg.bytes k (by omega)
      rw [hl] at this
      simpa [Nat.add_assoc, Nat.add_comm 1 k] using this
  · intro i hi
    have h1 := hg.others i (by omega)
    have h2 : i ≠ s.outLen.toNat := by omega
    simpa [hr, h2] using h1

/-- A list is appended where it fits. -/
theorem State.appendAll_spec {bs : List Byte} {s : State} (hwf : s.outMem.wf = true)
    (hfit : s.outLen.toNat + bs.length ≤ s.cfg.outCap.toNat) :
    ∃ t, s.appendAll bs = .ok t ∧ s.Appended t bs.length (fun k => bs.getD k 0#8) ∧ t.outMem.wf = true := by
  induction bs generalizing s with
  | nil => exact ⟨s, rfl, .refl s _, hwf⟩
  | cons b bs ih =>
    simp only [List.length_cons] at hfit
    have happ := State.outAppend_of_room (s := s) b (by omega)
    obtain ⟨hl, hwf1, -⟩ := State.outAppend_appended hwf (by omega) happ
    obtain ⟨t, ht, hap, hwft⟩ := ih hwf1 (by simp only [hl]; show _ ≤ s.cfg.outCap.toNat; omega)
    refine ⟨t, by simp only [State.appendAll, happ, ht], ?_, hwft⟩
    exact (hap.cons hwf (by omega) happ).congr fun k _ => by cases k <;> simp

/-- A list that does not fit is OutputOverflow. -/
theorem State.appendAll_overflow {bs : List Byte} {s : State} (hle : s.outLen.toNat ≤ s.cfg.outCap.toNat)
    (hfit : s.cfg.outCap.toNat < s.outLen.toNat + bs.length) : s.appendAll bs = .error .outputOverflow := by
  induction bs generalizing s with
  | nil => simp at hfit; omega
  | cons b bs ih =>
    simp only [List.length_cons] at hfit
    by_cases hfull : s.outLen.toNat = s.cfg.outCap.toNat
    · simp only [State.appendAll, State.outAppend_full b hfull]
    · have hlt : s.outLen.toNat < s.cfg.outCap.toNat := by omega
      simp only [State.appendAll, State.outAppend_of_room b hlt]
      exact ih (by simp only [toNat_succ hlt]; omega) (by simp only [toNat_succ hlt]; omega)

/-- A list append can fail by OutputOverflow only. -/
theorem State.appendAll_error {bs : List Byte} {s : State} {e : ErrKind} (h : s.appendAll bs = .error e) :
    e = .outputOverflow := by
  induction bs generalizing s with
  | nil => cases h
  | cons b bs ih =>
    simp only [State.appendAll] at h
    split at h
    · exact ih h
    · cases h; exact (State.outAppend_error ‹_›).2

/-- A run of one byte is the append of its list. -/
theorem State.appendRun_eq_appendAll (v : Byte) (n : Nat) (s : State) :
    s.appendRun v n = s.appendAll (List.replicate n v) := by
  induction n generalizing s with
  | zero => rfl
  | succ n ih =>
    simp only [State.appendRun, List.replicate_succ, State.appendAll]
    cases s.outAppend v with
    | error e => rfl
    | ok s1 => exact ih s1

/-- A back-copy of a valid position that fits (R136). -/
theorem State.copyBack_spec {pos n : Nat} {s : State} (hwf : s.outMem.wf = true) (h1 : 1 ≤ pos)
    (h2 : pos ≤ s.outLen.toNat) (hfit : s.outLen.toNat + n ≤ s.cfg.outCap.toNat) :
    ∃ t, s.copyBack pos n = .ok t ∧ s.Appended t n (fun k => t.outByte (s.outLen.toNat + k - pos)) ∧
      t.outMem.wf = true := by
  induction n generalizing s with
  | zero => exact ⟨s, rfl, .refl s _, hwf⟩
  | succ n ih =>
    have hb : s.backRef pos = .ok (s.outByte (s.outLen.toNat - pos)) := by
      simp [State.backRef, show ¬ (pos = 0 ∨ s.outLen.toNat < pos) by omega]
    have happ := State.outAppend_of_room (s := s) (s.outByte (s.outLen.toNat - pos)) (by omega)
    obtain ⟨hl, hwf1, hr⟩ := State.outAppend_appended hwf (by omega) happ
    obtain ⟨t, ht, hap, hwft⟩ :=
      ih hwf1 (by simp only [hl]; omega) (by simp only [hl]; show _ ≤ s.cfg.outCap.toNat; omega)
    refine ⟨t, by simp only [State.copyBack, hb, happ, ht], ?_, hwft⟩
    refine (hap.cons hwf (by omega) happ).congr fun k _ => ?_
    cases k with
    | zero =>
      have h3 := hap.others (s.outLen.toNat - pos) (by omega)
      have h4 : s.outLen.toNat - pos ≠ s.outLen.toNat := by omega
      rw [hr, if_neg h4] at h3
      simpa using h3.symm
    | succ k =>
      simp only [Nat.add_one_ne_zero, if_false, Nat.add_sub_cancel, hl]
      congr 1
      omega

/-- A back-copy of an invalid position is CorruptStream at its first byte (R59). -/
theorem State.copyBack_corrupt {pos n : Nat} {s : State} (h : pos = 0 ∨ s.outLen.toNat < pos) :
    s.copyBack pos (n + 1) = .error .corruptStream := by
  simp [State.copyBack, State.backRef, h]

/-- A back-copy of a valid position that does not fit is OutputOverflow. -/
theorem State.copyBack_overflow {pos n : Nat} {s : State} (h1 : 1 ≤ pos) (h2 : pos ≤ s.outLen.toNat)
    (hle : s.outLen.toNat ≤ s.cfg.outCap.toNat) (hfit : s.cfg.outCap.toNat < s.outLen.toNat + n) :
    s.copyBack pos n = .error .outputOverflow := by
  induction n generalizing s with
  | zero => omega
  | succ n ih =>
    have hb : s.backRef pos = .ok (s.outByte (s.outLen.toNat - pos)) := by
      simp [State.backRef, show ¬ (pos = 0 ∨ s.outLen.toNat < pos) by omega]
    by_cases hfull : s.outLen.toNat = s.cfg.outCap.toNat
    · simp only [State.copyBack, hb, State.outAppend_full _ hfull]
    · have hlt : s.outLen.toNat < s.cfg.outCap.toNat := by omega
      simp only [State.copyBack, hb, State.outAppend_of_room _ hlt]
      exact ih (by simp only [toNat_succ hlt]; omega) (by simp only [toNat_succ hlt]; omega)
        (by simp only [toNat_succ hlt]; omega)

/-- A back-copy can fail by CorruptStream and OutputOverflow only. -/
theorem State.copyBack_error {pos n : Nat} {s : State} {e : ErrKind} (h : s.copyBack pos n = .error e) :
    e = .corruptStream ∨ e = .outputOverflow := by
  induction n generalizing s with
  | zero => cases h
  | succ n ih =>
    simp only [State.copyBack] at h
    split at h
    · rename_i hb
      cases h
      rw [State.backRef_eq] at hb
      split at hb <;> cases hb
      exact .inl rfl
    · split at h
      · cases h; exact .inr (State.outAppend_error ‹_›).2
      · exact ih h

/-- The bytes of IN that a literal loop reads, where they are there and fit (R140, R141). -/
theorem State.copyLiterals_spec {n : Nat} {s : State} (hwf : s.outMem.wf = true)
    (hin : s.srcCur.toNat + n ≤ s.inLen.toNat) (hfit : s.outLen.toNat + n ≤ s.cfg.outCap.toNat) :
    ∃ t, s.copyLiterals n = .ok t ∧ s.Appended t n (fun k => s.inByte (s.srcCur.toNat + k)) ∧
      t.outMem.wf = true := by
  induction n generalizing s with
  | zero => exact ⟨s, rfl, .refl s _, hwf⟩
  | succ n ih =>
    have hrd := State.readU8_of_lt (s := s) (by omega)
    have ha : (s.advance 1).srcCur.toNat = s.srcCur.toNat + 1 := State.advance_srcCur_toNat (by omega)
    have happ := State.outAppend_of_room (s := s.advance 1) (s.inByte s.srcCur.toNat)
      (by simp only [State.advance_outLen, State.advance_cfg]; omega)
    obtain ⟨hl, hwf1, -⟩ := State.outAppend_appended (s := s.advance 1) hwf
      (by simp only [State.advance_outLen, State.advance_cfg]; omega) happ
    have hout := State.OutOnly.appended happ
    obtain ⟨t, ht, hap, hwft⟩ := ih hwf1
      (by rw [hout.srcCur, hout.inLen, ha]; simp only [State.advance_inLen]; omega)
      (by rw [hl, hout.cfg]; simp only [State.advance_outLen, State.advance_cfg]; omega)
    refine ⟨t, by simp only [State.copyLiterals, hrd, happ, ht], ?_, hwft⟩
    have hcons := hap.cons (s := s.advance 1) hwf
      (by simp only [State.advance_outLen, State.advance_cfg]; omega) happ
    refine State.Appended.congr ⟨hcons.length, hcons.bytes, hcons.others⟩ fun k _ => ?_
    cases k with
    | zero => simp
    | succ k =>
      simp only [Nat.add_one_ne_zero, if_false, Nat.add_sub_cancel, ha, State.inByte, State.advance_inMem]
      congr 1
      omega

/-- The first literal that cannot be read, before OUT is full, is CorruptStream (R248). -/
theorem State.copyLiterals_corrupt {n : Nat} {s : State} (hle : s.outLen.toNat ≤ s.cfg.outCap.toNat)
    (hcur : s.srcCur.toNat ≤ s.inLen.toNat) (hin : s.inLen.toNat < s.srcCur.toNat + n)
    (hroom : s.inLen.toNat - s.srcCur.toNat ≤ s.cfg.outCap.toNat - s.outLen.toNat) :
    s.copyLiterals n = .error .corruptStream := by
  induction n generalizing s with
  | zero => omega
  | succ n ih =>
    by_cases hend : s.srcCur.toNat = s.inLen.toNat
    · simp only [State.copyLiterals, State.readU8_of_ge (s := s) (by omega)]
    · have hrd := State.readU8_of_lt (s := s) (by omega)
      have ha : (s.advance 1).srcCur.toNat = s.srcCur.toNat + 1 := State.advance_srcCur_toNat (by omega)
      have hlt : s.outLen.toNat < s.cfg.outCap.toNat := by omega
      have happ := State.outAppend_of_room (s := s.advance 1) (s.inByte s.srcCur.toNat) hlt
      simp only [State.copyLiterals, hrd, happ]
      refine ih ?_ ?_ ?_ ?_ <;> simp only [State.advance_outLen, State.advance_cfg, State.advance_inLen, ha,
        toNat_succ hlt] <;> omega

/-- The first literal that cannot be appended, before the input ends, is OutputOverflow (R248). -/
theorem State.copyLiterals_overflow {n : Nat} {s : State} (hle : s.outLen.toNat ≤ s.cfg.outCap.toNat)
    (hfit : s.cfg.outCap.toNat < s.outLen.toNat + n)
    (hroom : s.cfg.outCap.toNat - s.outLen.toNat < s.inLen.toNat - s.srcCur.toNat) :
    s.copyLiterals n = .error .outputOverflow := by
  induction n generalizing s with
  | zero => omega
  | succ n ih =>
    have hrd := State.readU8_of_lt (s := s) (by omega)
    have ha : (s.advance 1).srcCur.toNat = s.srcCur.toNat + 1 := State.advance_srcCur_toNat (by omega)
    by_cases hfull : s.outLen.toNat = s.cfg.outCap.toNat
    · simp only [State.copyLiterals, hrd, State.outAppend_full (s := s.advance 1) _ hfull]
    · have hlt : s.outLen.toNat < s.cfg.outCap.toNat := by omega
      have happ := State.outAppend_of_room (s := s.advance 1) (s.inByte s.srcCur.toNat) hlt
      simp only [State.copyLiterals, hrd, happ]
      refine ih ?_ ?_ ?_ <;> simp only [State.advance_outLen, State.advance_cfg, State.advance_inLen, ha,
        toNat_succ hlt] <;> omega

/-- A literal loop can fail by CorruptStream and OutputOverflow only. -/
theorem State.copyLiterals_error {n : Nat} {s : State} {e : ErrKind} (h : s.copyLiterals n = .error e) :
    e = .corruptStream ∨ e = .outputOverflow := by
  induction n generalizing s with
  | zero => cases h
  | succ n ih =>
    simp only [State.copyLiterals] at h
    split at h
    · cases h; exact .inl rfl
    · split at h
      · cases h; exact .inr (State.outAppend_error ‹_›).2
      · exact ih h

end Sys2Proof.Machine
end

