-- ==== Sys2Proof/Laws/Decoder.lean ====
section
/-! SUPPORT. What one internal transition of a running DECODE can do: it fails, it goes on, or it ends. -/

namespace Sys2Proof.Machine

/-- The state in which a token's meaning runs (R130). -/
def handlerState : Token → DState
  | .lz _ _ => .handlingLZ
  | .lzc _ => .handlingLZC
  | .rles _ _ _ => .handlingRLE
  | .rlel _ _ _ => .handlingRLE
  | .raws _ => .handlingRAW
  | .rawl _ _ => .handlingRAW

/-- The state a token goes to where it succeeds (R136 to R141). -/
def nextState : Token → DState
  | .lz _ _ => .handlingLZC
  | .lzc _ => .handlingLZC
  | .rles _ _ _ => .dispatchingToken
  | .rlel _ _ _ => .dispatchingToken
  | .raws _ => .dispatchingToken
  | .rawl _ _ => .dispatchingToken

/-! ## Decoding at dispatch -/

/-- What dispatch decodes runs in the handling state of the control byte's class, and takes its head's bytes. -/
theorem decodeAtDispatch_ok {c : Byte} {bs rest : List Byte} {t : Token} (h : decodeAtDispatch c bs = .ok (t, rest)) :
    handlerState t = handlerOf (classOf c) ∧ bs.length + 1 = headLength t + rest.length ∧ t.context = .dispatch := by
  unfold decodeAtDispatch at h
  split at h
  next hc =>
    unfold decodeLz at h
    split at h
    · cases h; simp [handlerState, handlerOf, hc, headLength, Token.context]; omega
    · cases h
  next hc =>
    unfold decodeRle at h
    split at h <;> split at h <;> cases h <;>
      simp [handlerState, handlerOf, hc, headLength, Token.context] <;> omega
  next hc =>
    unfold decodeRaw at h
    split at h
    · split at h <;> cases h
      simp [handlerState, handlerOf, hc, headLength, Token.context]; omega
    · cases h; simp [handlerState, handlerOf, hc, headLength, Token.context]; omega

/-- What the continuation test decodes is an LZC token of one byte. -/
theorem decodeContinuation_ok {bs rest : List Byte} {t : Token} (h : decodeToken .continuation bs = .ok (t, rest)) :
    (∃ k, t = .lzc k) ∧ bs.length = rest.length + 1 := by
  cases bs with
  | nil => cases h
  | cons c bs =>
    simp only [decodeToken] at h
    split at h
    · cases h; exact ⟨⟨_, rfl⟩, by simp⟩
    · cases h

theorem decodeContinuation_error {bs : List Byte} {e : DecodeReject} (h : decodeToken .continuation bs = .error e) :
    e = .notContinuation ∨ (e = .truncated ∧ bs = []) := by
  cases bs with
  | nil => cases h; exact .inr ⟨rfl, rfl⟩
  | cons c bs =>
    simp only [decodeToken] at h
    split at h
    · cases h
    · cases h; exact .inl rfl

/-! ## Tokens -/

/-- A transition that goes on: what it may change, and what it keeps. -/
structure Move (r : DecoderRegs) (s : State) (r1 : DecoderRegs) (s1 : State) : Prop where
  frame : s1 = { s with outMem := s1.outMem, outLen := s1.outLen, srcCur := s1.srcCur, engine := s1.engine }
  outOk : s.OutOk → s1.OutOk
  base : r1.base = r.base
  cursor : s.srcCur.toNat ≤ s1.srcCur.toNat
  inside : s.srcCur.toNat ≤ s.inLen.toNat → s1.srcCur.toNat ≤ s.inLen.toNat

theorem Move.refl (r r1 : DecoderRegs) (h : r1.base = r.base) (s : State) : Move r s r1 s :=
  ⟨rfl, id, h, Nat.le_refl _, id⟩

theorem Move.trans {r r1 r2 : DecoderRegs} {s s1 s2 : State} (h : Move r s r1 s1) (h' : Move r1 s1 r2 s2) :
    Move r s r2 s2 := by
  have h1 := h.frame
  have h2 := h'.frame
  have hin : s1.inLen = s.inLen := by rw [h1]
  refine ⟨?_, fun ho => h'.outOk (h.outOk ho), h'.base.trans h.base, Nat.le_trans h.cursor h'.cursor, fun hi => ?_⟩
  · rw [h1] at h2
    exact h2
  · have := h'.inside (by rw [hin]; exact h.inside hi)
    rwa [hin] at this

/-- Reading n bytes that are there. -/
theorem Move.advanced {r : DecoderRegs} {s : State} {n : Nat} (r1 : DecoderRegs) (h : r1.base = r.base)
    (hn : s.srcCur.toNat + n ≤ s.inLen.toNat) : Move r s r1 ((s.advance n).withDecoder r1) := by
  have ha := State.advance_srcCur_toNat hn
  exact ⟨rfl, fun ho => ⟨ho.wf, ho.below, ho.len, ho.drawn⟩, h, by show _ ≤ (s.advance n).srcCur.toNat; omega,
    fun _ => by show (s.advance n).srcCur.toNat ≤ _; omega⟩

theorem copyLiterals_move {n : Nat} {s s1 : State} (h : s.copyLiterals n = .ok s1) :
    s1 = { s with outMem := s1.outMem, outLen := s1.outLen, srcCur := s1.srcCur, engine := s1.engine } := by
  have := State.copyLiterals_frame h
  rw [this]

/-- What a token can do in its handling state: go on, or fail with one of two errors. -/
theorem runToken_cases {t : Token} {s : State} {r : DecoderRegs} (he : s.engine = .decoding r)
    (hd : r.dstate = handlerState t) :
    (∃ r1 s1, runToken t s = .next (s1.withDecoder r1) ∧ Move r s r1 s1 ∧ r1.dstate = nextState t ∧
      r1.endAddr = r.endAddr ∧ r1.decl = r.decl ∧ r1.ctrl = r.ctrl ∧
      (r1.dstate = .handlingLZC → s.OutOk → (t.context = .dispatch ∨ (1 ≤ r.pos.toNat ∧ r.pos.toNat ≤ s.outLen.toNat)) →
        1 ≤ r1.pos.toNat ∧ r1.pos.toNat ≤ s1.outLen.toNat)) ∨
    (∃ r1 e, runToken t s = .next (raiseError e .decodeRunning (s.withDecoder r1)) ∧
      r1.base = r.base ∧ (e = .corruptStream ∨ e = .outputOverflow)) := by
  have copy : ∀ (pos : BitVec 13) (n : Nat) (r1 : DecoderRegs), r1.base = r.base → r1.endAddr = r.endAddr →
      r1.decl = r.decl → r1.ctrl = r.ctrl → r1.pos = pos →
      (0 < n ∨ (1 ≤ pos.toNat ∧ pos.toNat ≤ s.outLen.toNat)) →
      (∃ r2 s1, endToken r1 .handlingLZC s (s.copyBack pos.toNat n) = .next (s1.withDecoder r2) ∧ Move r s r2 s1 ∧
        r2.dstate = .handlingLZC ∧ r2.endAddr = r.endAddr ∧ r2.decl = r.decl ∧ r2.ctrl = r.ctrl ∧
        (s.OutOk → 1 ≤ r2.pos.toNat ∧ r2.pos.toNat ≤ s1.outLen.toNat)) ∨
      (∃ e, endToken r1 .handlingLZC s (s.copyBack pos.toNat n) =
        .next (raiseError e .decodeRunning (s.withDecoder r1)) ∧ (e = .corruptStream ∨ e = .outputOverflow)) := by
    intro pos n r1 hb hE hD hC hP hpos
    cases hc : s.copyBack pos.toNat n with
    | error e => exact .inr ⟨e, rfl, State.copyBack_error hc⟩
    | ok s1 =>
      have ho := State.copyBack_outOnly hc
      refine .inl ⟨{ r1 with dstate := .handlingLZC }, s1, rfl, ⟨?_, fun h => h.copyBack hc, hb, ?_, ?_⟩, rfl, hE, hD,
        hC, ?_⟩
      · rw [ho.same]
      · rw [ho.srcCur]
      · rw [ho.srcCur]; exact id
      · intro hok
        simp only [hP]
        have hval : 1 ≤ pos.toNat ∧ pos.toNat ≤ s.outLen.toNat := by
          rcases hpos with hn | hv
          · obtain ⟨m, rfl⟩ : ∃ m, n = m + 1 := ⟨n - 1, by omega⟩
            by_cases hv : pos.toNat = 0 ∨ s.outLen.toNat < pos.toNat
            · rw [State.copyBack_corrupt hv] at hc; cases hc
            · omega
          · exact hv
        refine ⟨hval.1, ?_⟩
        by_cases hfit : s.outLen.toNat + n ≤ s.cfg.outCap.toNat
        · obtain ⟨t', ht', hap, -⟩ := State.copyBack_spec hok.wf hval.1 hval.2 hfit
          rw [hc] at ht'
          cases ht'
          rw [hap.length]; omega
        · rw [State.copyBack_overflow hval.1 hval.2 hok.len (by omega)] at hc
          cases hc
  have run : ∀ (v : Byte) (n : Nat) (r1 : DecoderRegs), r1.base = r.base → r1.endAddr = r.endAddr →
      r1.decl = r.decl → r1.ctrl = r.ctrl →
      (∃ r2 s1, endToken r1 .dispatchingToken s (s.appendRun v n) = .next (s1.withDecoder r2) ∧ Move r s r2 s1 ∧
        r2.dstate = .dispatchingToken ∧ r2.endAddr = r.endAddr ∧ r2.decl = r.decl ∧ r2.ctrl = r.ctrl) ∨
      (∃ e, endToken r1 .dispatchingToken s (s.appendRun v n) =
        .next (raiseError e .decodeRunning (s.withDecoder r1)) ∧ (e = .corruptStream ∨ e = .outputOverflow)) := by
    intro v n r1 hb hE hD hC
    cases hc : s.appendRun v n with
    | error e =>
      rw [State.appendRun_eq_appendAll] at hc
      exact .inr ⟨e, rfl, .inr (State.appendAll_error hc)⟩
    | ok s1 =>
      have ho := State.appendRun_outOnly hc
      refine .inl ⟨{ r1 with dstate := .dispatchingToken }, s1, rfl, ⟨?_, fun h => h.appendRun hc, hb, ?_, ?_⟩, rfl, hE,
        hD, hC⟩
      · rw [ho.same]
      · rw [ho.srcCur]
      · rw [ho.srcCur]; exact id
  have lits : ∀ (n : Nat) (r1 : DecoderRegs), r1.base = r.base → r1.endAddr = r.endAddr →
      r1.decl = r.decl → r1.ctrl = r.ctrl →
      (∃ r2 s1, endToken r1 .dispatchingToken s (s.copyLiterals n) = .next (s1.withDecoder r2) ∧ Move r s r2 s1 ∧
        r2.dstate = .dispatchingToken ∧ r2.endAddr = r.endAddr ∧ r2.decl = r.decl ∧ r2.ctrl = r.ctrl) ∨
      (∃ e, endToken r1 .dispatchingToken s (s.copyLiterals n) =
        .next (raiseError e .decodeRunning (s.withDecoder r1)) ∧ (e = .corruptStream ∨ e = .outputOverflow)) := by
    intro n r1 hb hE hD hC
    cases hc : s.copyLiterals n with
    | error e => exact .inr ⟨e, rfl, State.copyLiterals_error hc⟩
    | ok s1 =>
      have hcur := State.copyLiterals_srcCur hc
      refine .inl ⟨{ r1 with dstate := .dispatchingToken }, s1, rfl,
        ⟨copyLiterals_move hc, fun h => h.copyLiterals hc, hb, by omega, ?_⟩, rfl, hE, hD, hC⟩
      intro hle
      rcases Nat.eq_zero_or_pos n with hn | hn
      · omega
      · exact hcur.2 hn
  have hin : ∀ d, r.dstate = d → s.inHandler d = some r := fun d hd => by simp [State.inHandler, he, hd]
  cases t with
  | lz c pos =>
    simp only [runToken, execLz, hin .handlingLZ hd]
    rcases copy pos (lzCount c) { r with pos := pos, cnt := BitVec.ofNat 13 (lzCount c) } rfl rfl rfl rfl rfl
      (.inl (by unfold lzCount; omega)) with ⟨r2, s1, h1, h2, h3, h4, h5, h6, h7⟩ | ⟨e, h1, h2⟩
    · exact .inl ⟨r2, s1, h1, h2, h3, h4, h5, h6, fun _ hok _ => h7 hok⟩
    · exact .inr ⟨_, e, h1, rfl, h2⟩
  | lzc k =>
    simp only [runToken, execLzc, hin .handlingLZC hd]
    by_cases hv : 0 < lzcCount k ∨ (1 ≤ r.pos.toNat ∧ r.pos.toNat ≤ s.outLen.toNat)
    · rcases copy r.pos (lzcCount k) { r with cnt := BitVec.ofNat 13 (lzcCount k) } rfl rfl rfl rfl rfl hv with
        ⟨r2, s1, h1, h2, h3, h4, h5, h6, h7⟩ | ⟨e, h1, h2⟩
      · exact .inl ⟨r2, s1, h1, h2, h3, h4, h5, h6, fun _ hok _ => h7 hok⟩
      · exact .inr ⟨_, e, h1, rfl, h2⟩
    · have hk : lzcCount k = 0 := by omega
      rw [hk]
      refine .inl ⟨{ r with cnt := BitVec.ofNat 13 0, dstate := .handlingLZC }, s, rfl, ⟨rfl, id, rfl, Nat.le_refl _, id⟩, rfl, rfl, rfl, rfl, fun _ _ hor => ?_⟩
      rcases hor with hbad | hok
      · cases hbad
      · exact hok
  | rles x n v =>
    simp only [runToken, execRles, hin .handlingRLE hd]
    rcases run v (rlesCount n) { r with cnt := BitVec.ofNat 13 (rlesCount n), val := v } rfl rfl rfl rfl with
      ⟨r2, s1, h1, h2, h3, h4, h5, h6⟩ | ⟨e, h1, h2⟩
    · exact .inl ⟨r2, s1, h1, h2, h3, h4, h5, h6, fun hbad => by rw [h3] at hbad; cases hbad⟩
    · exact .inr ⟨_, e, h1, rfl, h2⟩
  | rlel x n v =>
    simp only [runToken, execRlel, hin .handlingRLE hd]
    rcases run v (rlelCount n) { r with cnt := BitVec.ofNat 13 (rlelCount n), val := v } rfl rfl rfl rfl with
      ⟨r2, s1, h1, h2, h3, h4, h5, h6⟩ | ⟨e, h1, h2⟩
    · exact .inl ⟨r2, s1, h1, h2, h3, h4, h5, h6, fun hbad => by rw [h3] at hbad; cases hbad⟩
    · exact .inr ⟨_, e, h1, rfl, h2⟩
  | raws l =>
    simp only [runToken, execRaws, hin .handlingRAW hd]
    rcases lits (rawsLength l) { r with cnt := BitVec.ofNat 13 (rawsLength l) } rfl rfl rfl rfl with
      ⟨r2, s1, h1, h2, h3, h4, h5, h6⟩ | ⟨e, h1, h2⟩
    · exact .inl ⟨r2, s1, h1, h2, h3, h4, h5, h6, fun hbad => by rw [h3] at hbad; cases hbad⟩
    · exact .inr ⟨_, e, h1, rfl, h2⟩
  | rawl lh ll =>
    simp only [runToken, execRawl, hin .handlingRAW hd]
    rcases lits (rawlLength s.cfg.rawLongMode lh ll)
      { r with cnt := BitVec.ofNat 13 (rawlLength s.cfg.rawLongMode lh ll) } rfl rfl rfl rfl with
      ⟨r2, s1, h1, h2, h3, h4, h5, h6⟩ | ⟨e, h1, h2⟩
    · exact .inl ⟨r2, s1, h1, h2, h3, h4, h5, h6, fun hbad => by rw [h3] at hbad; cases hbad⟩
    · exact .inr ⟨_, e, h1, rfl, h2⟩

/-! ## One transition -/

/-- The transitions a running DECODE has left are at most this many (R144). -/
def decodeLeft (r : DecoderRegs) (s : State) : Nat :=
  match r.dstate with
  | .readingHeader => 2 * (s.inLen.toNat - s.srcCur.toNat) + 3
  | .dispatchingToken => 2 * (s.inLen.toNat - s.srcCur.toNat) + 2
  | .handlingLZ => 2 * (s.inLen.toNat - s.srcCur.toNat) + 3
  | .handlingLZC => 2 * (s.inLen.toNat - s.srcCur.toNat) + 3
  | .handlingRLE => 2 * (s.inLen.toNat - s.srcCur.toNat) + 3
  | .handlingRAW => 2 * (s.inLen.toNat - s.srcCur.toNat) + 3
  | .done => 1
  | .failed => 1

/-- The registers after a transition that goes on (R132 to R142): END is set by the header, the position is usable wherever
the continuation test comes next, and fewer transitions are left. -/
structure GoesOn (r : DecoderRegs) (s : State) (r1 : DecoderRegs) (s1 : State) : Prop where
  move : Move r s r1 s1
  left : decodeLeft r1 s1 < decodeLeft r s
  running : r1.dstate ≠ .readingHeader ∧ r1.dstate ≠ .failed
  endOf : (r.dstate = .readingHeader → r1.endAddr.toNat = r.base.toNat + r1.decl.toNat) ∧
    (r.dstate ≠ .readingHeader → r1.endAddr = r.endAddr ∧ r1.decl = r.decl)
  position : r1.dstate = .handlingLZC → s.OutOk →
    (r.dstate = .handlingLZC → 1 ≤ r.pos.toNat ∧ r.pos.toNat ≤ s.outLen.toNat) →
    1 ≤ r1.pos.toNat ∧ r1.pos.toNat ≤ s1.outLen.toNat

/-- What a transition can do: go on, fail with one of two errors, or end the command. -/
inductive Transition (r : DecoderRegs) (s : State) : Host.Outcome State Fault Refusal → Prop where
  | goesOn (r1 : DecoderRegs) (s1 : State) (h : GoesOn r s r1 s1) : Transition r s (.next (s1.withDecoder r1))
  | fails (r1 : DecoderRegs) (s1 : State) (e : ErrKind) (h : Move r s r1 s1)
      (he : e = .corruptStream ∨ e = .outputOverflow) (hr : r.dstate ≠ .done ∧ r.dstate ≠ .failed) :
      Transition r s (.next (raiseError e .decodeRunning (s1.withDecoder r1)))
  | succeeds (h : r.dstate = .done) : Transition r s (.next s.succeed.endCommand)
  | ends (h : r.dstate = .failed) : Transition r s (.next s.endCommand)

/-- The transition that only sets DSTATE. -/
theorem Transition.toState {r : DecoderRegs} {s : State} {d : DState} (hr : r.dstate ≠ .readingHeader)
    (hd : d ≠ .readingHeader ∧ d ≠ .failed ∧ d ≠ .handlingLZC)
    (hl : decodeLeft { r with dstate := d } s < decodeLeft r s) : Transition r s (Machine.toState r d s) :=
  .goesOn { r with dstate := d } s ⟨.refl r { r with dstate := d } rfl s, hl, ⟨hd.1, hd.2.1⟩, ⟨fun h => absurd h hr, fun _ => ⟨rfl, rfl⟩⟩,
    fun h => absurd h hd.2.2⟩

/-- CorruptStream where the transition has read some bytes already. -/
theorem Transition.corrupt {r r1 : DecoderRegs} {s s1 : State} (h : Move r s r1 s1)
    (hr : r.dstate ≠ .done ∧ r.dstate ≠ .failed) :
    Transition r s (Machine.corrupt (s1.withDecoder r1)) :=
  .fails r1 s1 _ h (.inl rfl) hr

theorem State.withDecoder_self {r : DecoderRegs} {s : State} (he : s.engine = .decoding r) : s.withDecoder r = s := by
  simp only [State.withDecoder, ← he]

theorem Move.inLen {r r1 : DecoderRegs} {s s1 : State} (h : Move r s r1 s1) : s1.inLen = s.inLen := by rw [h.frame]
theorem Move.outLenOf {r r1 : DecoderRegs} {s s1 : State} (h : Move r s r1 s1) : s1.cfg = s.cfg := by rw [h.frame]

/-- A token read at dispatch, from the registers and state behind its control byte (R136, R138 to R141). -/
theorem handleToken_transition {r0 r : DecoderRegs} {s0 s : State} (h : Move r0 s0 r s)
    (hr : r0.dstate ≠ .readingHeader ∧ r0.dstate ≠ .done ∧ r0.dstate ≠ .failed)
    (hE : r.endAddr = r0.endAddr ∧ r.decl = r0.decl)
    (hl : 2 * (s.inLen.toNat - s.srcCur.toNat) + 2 < decodeLeft r0 s0) :
    Transition r0 s0 (handleToken r s) ∨ (∃ e, handleToken r s = Machine.corrupt s ∧ decodeToken .dispatch
      (r.ctrl :: s.streamBytes 2) = .error e) := by
  unfold handleToken
  split
  next t rest hd =>
    left
    obtain ⟨hst, hlen, hctx⟩ := decodeAtDispatch_ok (c := r.ctrl) (bs := s.streamBytes 2) hd
    simp only [State.streamBytes_length] at hlen
    have hpos : 1 ≤ headLength t := by cases t <;> simp [headLength]
    have hn : s.srcCur.toNat + (headLength t - 1) ≤ s.inLen.toNat ∨ headLength t = 1 := by omega
    have hmove : Move r s { r with dstate := handlerOf (classOf r.ctrl) } (handling r (headLength t - 1) s) := by
      rcases hn with hn | hn
      · exact .advanced _ rfl hn
      · rw [hn]
        refine ⟨rfl, fun ho => ⟨ho.wf, ho.below, ho.len, ho.drawn⟩, rfl, ?_, ?_⟩ <;> simp [handling]
    have hcur : (handling r (headLength t - 1) s).srcCur.toNat = s.srcCur.toNat + (headLength t - 1) := by
      rcases hn with hn | hn
      · exact State.advance_srcCur_toNat hn
      · simp [handling, hn]
    rcases runToken_cases (t := t) (s := handling r (headLength t - 1) s)
      (r := { r with dstate := handlerOf (classOf r.ctrl) }) rfl hst.symm with
      ⟨r1, s1, h1, h2, h3, h4, h5, -, h7⟩ | ⟨r1, e, h1, hb, h2⟩
    · rw [h1]
      have hm := (h.trans hmove).trans h2
      refine .goesOn r1 s1 ⟨hm, ?_, ?_, ⟨fun hh => absurd hh hr.1, fun _ => ?_⟩, ?_⟩
      · refine Nat.lt_of_le_of_lt ?_ hl
        have hc1 := h2.cursor
        have hin : s1.inLen = s.inLen := h2.inLen
        rw [hcur] at hc1
        cases t <;> simp only [Token.context] at hctx <;> try cases hctx
        all_goals
          simp only [nextState] at h3
          simp only [decodeLeft, h3, hin, headLength] at hc1 ⊢
          simp only [headLength] at hlen
          omega
      · rw [h3]; cases t <;> simp [nextState]
      · exact ⟨h4.trans hE.1, h5.trans hE.2⟩
      · intro hz ho _
        exact h7 hz (hmove.outOk (h.outOk ho)) (.inl hctx)
    · rw [h1]
      exact .fails r1 _ e (h.trans (hmove.trans ⟨rfl, fun ho => ⟨ho.wf, ho.below, ho.len, ho.drawn⟩, hb, Nat.le_refl _, id⟩)) h2 hr.2
  next e hd => exact .inr ⟨e, rfl, hd⟩

/-- What one transition of a running DECODE can do (R130 to R143). -/
theorem decoderStep_transition {r : DecoderRegs} {s : State} (he : s.engine = .decoding r) :
    Transition r s (decoderStep r s) := by
  have self := State.withDecoder_self he
  have bad : ∀ (hr : r.dstate ≠ .done ∧ r.dstate ≠ .failed), Transition r s (Machine.corrupt s) := fun hr => by
    have := Transition.corrupt (.refl r r rfl s) hr
    rwa [self] at this
  unfold decoderStep
  split
  next hd =>
    unfold readHeader State.readU16
    by_cases h2 : s.srcCur.toNat + 2 ≤ s.inLen.toNat
    · rw [State.portRead_of_le h2]
      have hm : ∀ r1 : DecoderRegs, r1.base = r.base → Move r s r1 (s.advance 2) := fun r1 hb => by
        have ha := State.advance_srcCur_toNat h2
        exact ⟨rfl, fun ho => ho.advance 2, hb, by omega, fun _ => by omega⟩
      have hcur := State.advance_srcCur_toNat h2
      have hend : ∀ d : Word, d.toNat < 65536 →
          (r.base.setWidth 33 + d.setWidth 33).toNat = r.base.toNat + (d.setWidth 16).toNat := fun d hd => by
        have := r.base.isLt
        simp only [BitVec.toNat_add, BitVec.toNat_setWidth]
        omega
      have hsmall : (portValue .le (s.inMem.bytes s.srcCur.toNat 2)).toNat < 65536 := by
        have h0 := (s.inMem.read s.srcCur.toNat).isLt
        have h1 := (s.inMem.read (s.srcCur.toNat + 1)).isLt
        simp only [portValue, Memory.bytes, littleEndian, BitVec.toNat_ofNat]
        omega
      dsimp only
      split
      · exact .corrupt (hm _ rfl) (by simp [hd])
      · split
        · exact .goesOn _ _ ⟨hm _ rfl, by simp only [decodeLeft, hd]; omega, by simp,
            ⟨fun _ => hend _ hsmall, fun hh => absurd hd hh⟩, fun hh => by cases hh⟩
        · refine .goesOn _ _ ⟨hm _ rfl, ?_, by simp, ⟨fun _ => hend _ hsmall, fun hh => absurd hd hh⟩, fun hh => by cases hh⟩
          simp only [decodeLeft, hd, State.advance_inLen, hcur]; omega
    · rw [State.portRead_of_gt (by omega)]
      exact bad (by simp [hd])
  next hd =>
    unfold dispatchToken
    split
    · by_cases h1 : s.srcCur.toNat < s.inLen.toNat
      · have hc := State.advance_srcCur_toNat (s := s) (n := 1) h1
        rw [State.readU8_of_lt h1]
        rcases handleToken_transition (r0 := r) (s0 := s) (r := { r with ctrl := s.inByte s.srcCur.toNat })
          (s := s.advance 1) ⟨rfl, fun ho => ho.advance 1, rfl, by omega, fun _ => by omega⟩ (by simp [hd]) ⟨rfl, rfl⟩
          (by simp only [State.advance_inLen, hc, decodeLeft, hd]; omega) with h | ⟨e, h, -⟩
        · exact h
        · dsimp only
          rw [h]
          have := Transition.corrupt (r := r) (s := s) (r1 := r) (s1 := s.advance 1)
            ⟨rfl, fun ho => ho.advance 1, rfl, by omega, fun _ => by omega⟩ (by simp [hd])
          rwa [State.withDecoder_self (r := r) (s := s.advance 1) he] at this
      · rw [State.readU8_of_ge (by omega)]
        exact bad (by simp [hd])
    · unfold endCheck
      split
      · exact .toState (by simp [hd]) (by simp) (by simp [decodeLeft, hd])
      · exact bad (by simp [hd])
  next hd =>
    rcases handleToken_transition (.refl r r rfl s) (by simp [hd]) ⟨rfl, rfl⟩ (by simp [decodeLeft, hd])
      with h | ⟨e, h, -⟩
    · exact h
    · rw [h]; exact bad (by simp [hd])
  next hd =>
    unfold continuationTest
    split
    next t rest hdec =>
      obtain ⟨⟨k, rfl⟩, hlen⟩ := decodeContinuation_ok hdec
      simp only [State.streamBytes_length] at hlen
      have hn : s.srcCur.toNat + 1 ≤ s.inLen.toNat := by omega
      have hc := State.advance_srcCur_toNat hn
      have hm := Move.advanced (r := r) r rfl hn
      rcases runToken_cases (t := .lzc k) (s := (s.advance 1).withDecoder r) rfl hd with
        ⟨r1, s1, h1, h2, h3, h4, h5, -, h7⟩ | ⟨r1, e, h1, hb, h2⟩
      · rw [h1]
        refine .goesOn r1 s1 ⟨hm.trans h2, ?_, by simp [h3, nextState], ⟨fun hh => by simp [hd] at hh, fun _ => ⟨h4, h5⟩⟩, ?_⟩
        · have hc1 := h2.cursor
          have hin : s1.inLen = s.inLen := h2.inLen
          simp only [State.withDecoder_srcCur, hc] at hc1
          simp only [decodeLeft, h3, nextState, hd, hin]
          omega
        · intro hz ho hp
          exact h7 hz (hm.outOk ho) (.inr (hp hd))
      · rw [h1]
        exact .fails r1 _ e (hm.trans ⟨rfl, fun ho => ⟨ho.wf, ho.below, ho.len, ho.drawn⟩, hb, Nat.le_refl _, id⟩) h2 (by simp [hd])
    · exact .toState (by simp [hd]) (by simp) (by simp [decodeLeft, hd])
    · exact bad (by simp [hd])
    · exact bad (by simp [hd])
  next hd =>
    rcases handleToken_transition (.refl r r rfl s) (by simp [hd]) ⟨rfl, rfl⟩ (by simp [decodeLeft, hd])
      with h | ⟨e, h, -⟩
    · exact h
    · rw [h]; exact bad (by simp [hd])
  next hd =>
    rcases handleToken_transition (.refl r r rfl s) (by simp [hd]) ⟨rfl, rfl⟩ (by simp [decodeLeft, hd])
      with h | ⟨e, h, -⟩
    · exact h
    · rw [h]; exact bad (by simp [hd])
  next hd => exact .succeeds hd
  next hd => exact .ends hd

end Sys2Proof.Machine
end

