-- ==== Sys2Proof/Laws/Encoder.lean ====
section
/-! SUPPORT. What one transition of a running ENCODE can do: it moves on inside the input, it fails, or it ends the
command. -/

namespace Sys2Proof.Machine

/-! ## Run detector and match finder -/

theorem runAt_le (m : Memory) (v : Byte) (a n : Nat) : runAt m v a n ≤ n := by
  induction n generalizing a with
  | zero => exact Nat.le_refl _
  | succ n ih =>
    unfold runAt
    split
    · exact Nat.succ_le_succ (ih _)
    · exact Nat.zero_le _

theorem matchAt_le (m : Memory) (a b n : Nat) : matchAt m a b n ≤ n := by
  induction n generalizing a b with
  | zero => exact Nat.le_refl _
  | succ n ih =>
    unfold matchAt
    split
    · exact Nat.succ_le_succ (ih _ _)
    · exact Nat.zero_le _

/-- A run is at least the byte itself and stays inside the input (R173). -/
theorem rleLen_bounds {s : State} {p : Nat} (hp : p < s.inLen.toNat) :
    1 ≤ rleLen s p ∧ rleLen s p ≤ 4099 ∧ p + rleLen s p ≤ s.inLen.toNat := by
  have h := runAt_le s.inMem (s.inByte p) (p + 1) (min Config.rleMax (s.inLen.toNat - p) - 1)
  have hm : Config.rleMax = 4099 := rfl
  unfold rleLen
  omega

/-- The best of a candidate stays within a bound that holds of both. -/
theorem betterMatch_le {s : State} {p i n : Nat} {best : Nat × Nat} (h : best.1 ≤ n) (hi : matchLen s p i ≤ n) :
    (betterMatch s p best i).1 ≤ n := by
  unfold betterMatch
  split
  · exact hi
  · exact h

/-- A match stays inside the input (R174). -/
theorem bestMatch_le (s : State) (p : Nat) : (bestMatch s p).1 ≤ s.inLen.toNat - p := by
  have h : ∀ (is : List Nat) (best : Nat × Nat), best.1 ≤ s.inLen.toNat - p →
      (is.foldl (betterMatch s p) best).1 ≤ s.inLen.toNat - p := by
    intro is
    induction is with
    | nil => exact fun _ h => h
    | cons i is ih => exact fun best h => ih _ (betterMatch_le h (matchAt_le _ _ _ _))
  exact h _ _ (Nat.zero_le _)

/-- A position moves on by at least one byte and not past the end of the input (R172). -/
theorem choiceLength_bounds {s : State} {p : Nat} (hp : p < s.inLen.toNat) :
    1 ≤ choiceLength (rleLen s p) (bestMatch s p).1 ∧
      p + choiceLength (rleLen s p) (bestMatch s p).1 ≤ s.inLen.toNat := by
  have h1 := rleLen_bounds hp
  have h2 := bestMatch_le s p
  have hm : Config.minRun = 4 := rfl
  unfold choiceLength choose
  split <;> rename_i heq <;> split at heq <;> (try split at heq) <;> cases heq <;> omega

theorem EncoderRegs.after_p {s : State} {p : Nat} (hp : p < s.inLen.toNat) :
    (EncoderRegs.after s p).p.toNat = p + choiceLength (rleLen s p) (bestMatch s p).1 := by
  have h1 := choiceLength_bounds hp
  have h2 := s.inLen.isLt
  simp only [EncoderRegs.after, BitVec.toNat_ofNat]
  exact Nat.mod_eq_of_lt (by omega)

/-! ## The window and OUT of a running ENCODE -/

/-- The window in canonical form within its cells, at most RAW_MAX literals pending (R110, R176). -/
structure State.WinOk (s : State) : Prop where
  wf : s.win.wf = true
  below : cellsBelow Config.winSize s.win.cells = true
  pending : s.winCur.toNat ≤ s.cfg.rawMax
  drawn : s.win.background.drawn s.draws = true

/-- What the transitions of an ENCODE leave alone (R191), and what they keep. -/
structure EncMove (s s1 : State) : Prop where
  frame : s1 = { s with outMem := s1.outMem, outLen := s1.outLen, win := s1.win, winCur := s1.winCur }
  outOk : s.OutOk → s1.OutOk
  winOk : s.WinOk → s1.WinOk
  grows : s.OutOk → s.outLen.toNat ≤ s1.outLen.toNat

theorem EncMove.refl (s : State) : EncMove s s := ⟨rfl, id, id, fun _ => Nat.le_refl _⟩

theorem EncMove.trans {s s1 s2 : State} (h : EncMove s s1) (h' : EncMove s1 s2) : EncMove s s2 := by
  refine ⟨?_, fun ho => h'.outOk (h.outOk ho), fun hw => h'.winOk (h.winOk hw),
    fun ho => Nat.le_trans (h.grows ho) (h'.grows (h.outOk ho))⟩
  have h1 := h.frame
  have h2 := h'.frame
  rw [h1] at h2
  exact h2

theorem rawMax_le (c : Config) : 1 ≤ c.rawMax ∧ c.rawMax ≤ 8191 := by
  unfold Config.rawMax
  split <;> omega

theorem State.outLen_grows {bs : List Byte} {s t : State} (ho : s.OutOk) (h : s.appendAll bs = .ok t) :
    s.outLen.toNat ≤ t.outLen.toNat := by
  by_cases hfit : s.outLen.toNat + bs.length ≤ s.cfg.outCap.toNat
  · obtain ⟨t', ht, hap, -⟩ := State.appendAll_spec ho.wf hfit
    rw [h] at ht
    cases ht
    rw [hap.length]; omega
  · rw [State.appendAll_overflow ho.len (by omega)] at h
    cases h

theorem EncMove.appendAll {bs : List Byte} {s t : State} (h : s.appendAll bs = .ok t) : EncMove s t := by
  have ho := State.appendAll_outOnly h
  refine ⟨by rw [ho.same], fun hok => hok.appendAll h, fun hw => ⟨?_, ?_, ?_, ?_⟩, fun hok => State.outLen_grows hok h⟩
  · rw [ho.win]; exact hw.wf
  · rw [ho.win]; exact hw.below
  · rw [ho.winCur, ho.cfg]; exact hw.pending
  · rw [ho.win, ho.draws]; exact hw.drawn

theorem EncMove.resetWindow (s : State) : EncMove s s.resetWindow :=
  ⟨rfl, fun ho => ⟨ho.wf, ho.below, ho.len, ho.drawn⟩, fun _ => ⟨rfl, rfl, Nat.zero_le _, rfl⟩, fun _ => Nat.le_refl _⟩

/-- What a flush can do (R177). -/
theorem State.flush_ok {s t : State} (h : s.flush = .ok t) : EncMove s t ∧ t.winCur = 0#13 := by
  unfold State.flush at h
  split at h
  · cases h; exact ⟨(EncMove.appendAll ‹_›).trans (.resetWindow _), rfl⟩
  · cases h

theorem State.flush_error {s : State} {e : ErrKind} (h : s.flush = .error e) : e = .outputOverflow := by
  unfold State.flush at h
  split at h
  · cases h
  · cases h; exact State.appendAll_error ‹_›

/-- A flush that succeeds leaves OUT in canonical form within its capacity. -/
theorem State.flush_keeps_out {s t : State} (hwf : s.outMem.wf = true) (hle : s.outLen.toNat ≤ s.cfg.outCap.toNat)
    (h : s.flush = .ok t) : t.outMem.wf = true ∧ t.outLen.toNat ≤ t.cfg.outCap.toNat := by
  unfold State.flush at h
  split at h
  · rename_i s1 ha
    cases h
    show s1.outMem.wf = true ∧ s1.outLen.toNat ≤ s1.cfg.outCap.toNat
    by_cases hfit : s.outLen.toNat + (rawHead s.winCur.toNat ++ s.pendingLiterals).length ≤ s.cfg.outCap.toNat
    · obtain ⟨t, ht, hap, hwf1⟩ := State.appendAll_spec hwf hfit
      rw [ha] at ht
      cases ht
      exact ⟨hwf1, by rw [hap.length, (State.appendAll_outOnly ha).cfg]; exact hfit⟩
    · rw [State.appendAll_overflow hle (by omega)] at ha
      cases ha
  · cases h

/-- One more pending literal where there is room for it (R111). -/
theorem EncMove.winAppend {s : State} (b : Byte) (h : s.winCur.toNat < s.cfg.rawMax) : EncMove s (s.winAppend b) := by
  have hr := rawMax_le s.cfg
  have hc : (s.winCur + 1#13).toNat = s.winCur.toNat + 1 := toNat_add_ofNat s.winCur 1 (by omega)
  refine ⟨rfl, fun ho => ⟨ho.wf, ho.below, ho.len, ho.drawn⟩, fun hw => ⟨?_, ?_, ?_, ?_⟩, fun _ => Nat.le_refl _⟩
  · exact Memory.wf_write hw.wf _ _
  · exact Memory.below_write hw.below (by simp only [Config.winSize]; omega)
  · show (s.winCur + 1#13).toNat ≤ s.cfg.rawMax
    omega
  · simpa [State.winAppend] using hw.drawn

/-- What the literal accumulator can do (R176), where no more than RAW_MAX literals are pending. -/
theorem State.literal_ok {s t : State} {b : Byte} (hw : s.winCur.toNat ≤ s.cfg.rawMax) (h : s.literal b = .ok t) :
    EncMove s t := by
  unfold State.literal at h
  split at h
  · split at h
    · rename_i s1 hf
      cases h
      obtain ⟨hm, hz⟩ := State.flush_ok hf
      exact hm.trans (.winAppend b (by rw [hz]; have := rawMax_le s1.cfg; simp; omega))
    · cases h
  · cases h; exact .winAppend b (by omega)

theorem State.literal_error {s : State} {b : Byte} {e : ErrKind} (h : s.literal b = .error e) :
    e = .outputOverflow := by
  unfold State.literal at h
  split at h
  · split at h
    · cases h
    · cases h; exact State.flush_error ‹_›
  · cases h

theorem State.flushAndEmit_ok {s t : State} {bs : List Byte} (h : s.flushAndEmit bs = .ok t) : EncMove s t := by
  unfold State.flushAndEmit at h
  split at h
  · exact (State.flush_ok ‹_›).1.trans (.appendAll h)
  · cases h

theorem State.flushAndEmit_error {s : State} {bs : List Byte} {e : ErrKind} (h : s.flushAndEmit bs = .error e) :
    e = .outputOverflow := by
  unfold State.flushAndEmit at h
  split at h
  · exact State.appendAll_error h
  · cases h; exact State.flush_error ‹_›

/-- What one position can do (R172). -/
theorem encodeAt_ok {s t : State} {p : Nat} (hw : s.winCur.toNat ≤ s.cfg.rawMax) (h : encodeAt p s = .ok t) :
    EncMove s t := by
  unfold encodeAt at h
  split at h
  · exact State.literal_ok hw h
  · exact State.flushAndEmit_ok h
  · exact State.flushAndEmit_ok h

theorem encodeAt_error {s : State} {p : Nat} {e : ErrKind} (h : encodeAt p s = .error e) : e = .outputOverflow := by
  unfold encodeAt at h
  split at h
  · exact State.literal_error h
  · exact State.flushAndEmit_error h
  · exact State.flushAndEmit_error h

/-- Writing the header keeps OUT in canonical form (R190). -/
theorem State.OutOk.patchHeader {s : State} (l : Nat) (ho : s.OutOk) (h2 : 2 ≤ s.outLen.toNat) :
    (s.patchHeader l).OutOk := by
  have hl := ho.len
  have h0 : 0 < s.cfg.outCap.toNat := by omega
  have h1 : 1 < s.cfg.outCap.toNat := by omega
  exact ⟨Memory.wf_write (Memory.wf_write ho.wf _ _) _ _, Memory.below_write (Memory.below_write ho.below h0) h1, ho.len,
    by simpa [State.patchHeader] using ho.drawn⟩

/-- What the finish can do (R180, R190, R191): success leaves OUT canonical and the window reset. -/
theorem State.encodeFinish_ok {s t : State} (h : s.encodeFinish = .ok t) :
    t = { s with outMem := t.outMem, outLen := t.outLen, win := t.win, winCur := t.winCur } ∧
      (s.OutOk → 2 ≤ s.outLen.toNat → t.OutOk) ∧ (s.WinOk → t.WinOk) ∧ t.winCur = 0#13 := by
  unfold State.encodeFinish at h
  split at h
  · cases h
  · rename_i s1 hf
    split at h
    · cases h
    · obtain ⟨hm, hz⟩ := State.flush_ok hf
      have ha := State.OutOnly.appended h
      refine ⟨?_, fun ho h2 => ?_, fun hw => ?_, ?_⟩
      · have h1 := hm.frame
        have h3 := ha.same
        rw [h1] at h3
        simp only [State.patchHeader] at h3
        rw [h3]
      · exact ((hm.outOk ho).patchHeader _ (Nat.le_trans h2 (hm.grows ho))).append h
      · have hw1 := hm.winOk hw
        exact ⟨by rw [ha.win]; exact hw1.wf, by rw [ha.win]; exact hw1.below,
          by rw [ha.winCur, ha.cfg]; exact hw1.pending,
          by rw [ha.win, ha.draws]; exact hw1.drawn⟩
      · rw [ha.winCur]; exact hz

theorem State.encodeFinish_error {s : State} {e : ErrKind} (h : s.encodeFinish = .error e) :
    e = .outputOverflow ∨ e = .invalidInput := by
  unfold State.encodeFinish at h
  split at h
  · cases h; exact .inl (State.flush_error ‹_›)
  · split at h
    · cases h; exact .inr rfl
    · exact .inl (State.outAppend_error h).2

/-- What one transition of a running ENCODE can do (R172): move on, end with success, or fail. -/
theorem encoderStep_cases {r : EncoderRegs} {s : State} (hw : s.winCur.toNat ≤ s.cfg.rawMax) :
    (r.p.toNat < s.inLen.toNat ∧ ∃ r1 s1, encoderStep r s = s1.withEncoder r1 ∧ EncMove s s1 ∧
      r.p.toNat < r1.p.toNat ∧ r1.p.toNat ≤ s.inLen.toNat) ∨
    (s.inLen.toNat ≤ r.p.toNat ∧ ∃ s1, s.encodeFinish = .ok s1 ∧ encoderStep r s = s1.succeed.endCommand) ∨
    (∃ e, encoderStep r s = raiseError e .encodeRunning s ∧ (e = .outputOverflow ∨ e = .invalidInput)) := by
  unfold encoderStep
  split
  next hp =>
    split
    next s1 h1 =>
      have hb := choiceLength_bounds hp
      have ha := EncoderRegs.after_p hp
      exact .inl ⟨hp, _, s1, rfl, encodeAt_ok hw h1, by omega, by omega⟩
    next e h1 => exact .inr (.inr ⟨e, rfl, .inl (encodeAt_error h1)⟩)
  next hp =>
    split
    next s1 h1 => exact .inr (.inl ⟨by omega, s1, h1, rfl⟩)
    next e h1 => exact .inr (.inr ⟨e, rfl, State.encodeFinish_error h1⟩)

end Sys2Proof.Machine
end

