-- ==== Sys2Proof/Laws/Inv.lean ====
section
/-! SUPPORT. The invariant of the machine as propositions. -/

namespace Sys2Proof.Machine

/-- The registers of a running DECODE fit its state: the clauses of `decoderOk`. -/
structure State.DecoderFits (s : State) (r : DecoderRegs) : Prop where
  cursor : s.srcCur.toNat ≤ s.inLen.toNat
  base : r.base.toNat ≤ s.inLen.toNat
  header : r.dstate = .readingHeader → s.srcCur = r.base ∧ s.outLen = 0#32
  endOf : r.dstate ≠ .readingHeader → r.dstate ≠ .failed → r.endAddr.toNat = r.base.toNat + r.decl.toNat
  position : r.dstate = .handlingLZC → 1 ≤ r.pos.toNat ∧ r.pos.toNat ≤ s.outLen.toNat
  failed : r.dstate = .failed → s.status = .error ∧ s.outLen = 0#32

theorem State.decoderOk_iff {s : State} {r : DecoderRegs} : s.decoderOk r = true ↔ s.DecoderFits r := by
  unfold State.decoderOk
  simp only [Bool.and_eq_true, decide_eq_true_eq]
  constructor
  · rintro ⟨⟨h1, h2⟩, h3⟩
    constructor <;> first | assumption | (cases hd : r.dstate <;> simp_all)
  · rintro ⟨h1, h2, h3, h4, h5, h6⟩
    refine ⟨⟨h1, h2⟩, ?_⟩
    cases hd : r.dstate <;> simp_all

theorem State.encoderOk_iff {s : State} {r : EncoderRegs} :
    s.encoderOk r = true ↔ r.p.toNat ≤ s.inLen.toNat ∧ 1 ≤ s.inLen.toNat ∧ s.winCur.toNat ≤ s.cfg.rawMax ∧
      2 ≤ s.outLen.toNat := by
  unfold State.encoderOk
  simp only [Bool.and_eq_true, decide_eq_true_eq, and_assoc]

/-- IN is in canonical form within its capacity, over a draw already taken. -/
structure State.InOk (s : State) : Prop where
  wf : s.inMem.wf = true
  below : cellsBelow s.cfg.inCap.toNat s.inMem.cells = true
  drawn : s.inMem.background.drawn s.draws = true

/-- WIN is in canonical form within its cells, over a draw already taken. -/
structure State.CellsOk (s : State) : Prop where
  wf : s.win.wf = true
  below : cellsBelow Config.winSize s.win.cells = true
  drawn : s.win.background.drawn s.draws = true

/-- The invariant by its parts. -/
theorem State.inv_iff {s : State} :
    s.Inv ↔ s.InOk ∧ s.OutOk ∧ s.CellsOk ∧ s.inLen.toNat ≤ s.cfg.inCap.toNat ∧ s.srcCur.toNat ≤ s.cfg.inCap.toNat ∧
      s.codeOk = true ∧ s.engineOk = true := by
  constructor
  · rintro ⟨h1, h2, h3, h4⟩
    simp only [State.memoriesOk, State.lengthsOk, Bool.and_eq_true, decide_eq_true_eq] at h1 h2
    exact ⟨⟨h1.1.1.1.1, h1.1.1.1.2, h1.1.1.2⟩, ⟨h1.1.2.1.1, h1.1.2.1.2, h2.2, h1.1.2.2⟩,
      ⟨h1.2.1.1, h1.2.1.2, h1.2.2⟩, h2.1.1, h2.1.2, h3, h4⟩
  · rintro ⟨⟨a, b, c⟩, ⟨d, e, f, g⟩, ⟨h, i, j⟩, k, l, m, n⟩
    refine ⟨?_, ?_, m, n⟩
    · simp only [State.memoriesOk, Bool.and_eq_true]
      exact ⟨⟨⟨⟨a, b⟩, c⟩, ⟨d, e⟩, g⟩, ⟨h, i⟩, j⟩
    · simp only [State.lengthsOk, Bool.and_eq_true, decide_eq_true_eq]
      exact ⟨⟨k, l⟩, f⟩

/-- A draw taken stays taken. -/
theorem Background.drawn_mono {b : Background} {n m : Nat} (h : b.drawn n = true) (hm : n ≤ m) : b.drawn m = true := by
  cases b with
  | free d => simp only [Background.drawn, decide_eq_true_eq] at *; omega
  | filled v => rfl

end Sys2Proof.Machine
end

