-- ==== Sys2Proof/Laws/PerInstr.lean ====
section
/-! SUPPORT. Per instruction: the place and the length of its encoding (30_encoding.md R84, R95, R100). -/

namespace Sys2Proof.Laws

/-- The bytes a source takes: a stream's bytes, or the four of a command word. -/
def sourceBytes : Source → Nat
  | .stream _ bs => bs.length
  | .command _ => 4

/-- Whether a source is a command word written to CMD. -/
def isCommandSource : Source → Bool
  | .stream _ _ => false
  | .command _ => true

/-- The length of an instruction's head (R95), four for a command word (R100). -/
def headBytes : Instr → Nat
  | .lz _ _ => 2
  | .lzc _ => 1
  | .rles _ _ _ => 2
  | .rlel _ _ _ => 3
  | .raws _ => 1
  | .rawl _ _ => 2
  | .decode => 4
  | .encode => 4
  | .srcSeek => 4
  | .srcRead _ _ => 4
  | .winAppend => 4
  | .winGet => 4
  | .winFill => 4
  | .winSeek => 4

/-- The instruction is a host command (R2). -/
def isHostCommand : Instr → Bool
  | .lz _ _ => false
  | .lzc _ => false
  | .rles _ _ _ => false
  | .rlel _ _ _ => false
  | .raws _ => false
  | .rawl _ _ => false
  | .decode => true
  | .encode => true
  | .srcSeek => true
  | .srcRead _ _ => true
  | .winAppend => true
  | .winGet => true
  | .winFill => true
  | .winSeek => true

namespace EncodeLength

/-- The encoding of an instruction has the length R95 gives, and is a command word exactly for a host command. -/
def Statement (i : Instr) : Prop :=
  sourceBytes (encode i) = headBytes i ∧ isCommandSource (encode i) = isHostCommand i

theorem lz (c : BitVec 2) (pos : BitVec 13) : Statement (.lz c pos) := ⟨rfl, rfl⟩
theorem lzc (k : BitVec 5) : Statement (.lzc k) := ⟨rfl, rfl⟩
theorem rles (x : BitVec 1) (n : BitVec 4) (v : Byte) : Statement (.rles x n v) := ⟨rfl, rfl⟩
theorem rlel (x : BitVec 1) (n : BitVec 12) (v : Byte) : Statement (.rlel x n v) := ⟨rfl, rfl⟩
theorem raws (l : BitVec 5) : Statement (.raws l) := ⟨rfl, rfl⟩
theorem rawl (lh : BitVec 5) (ll : Byte) : Statement (.rawl lh ll) := ⟨rfl, rfl⟩
theorem decode : Statement .decode := ⟨rfl, rfl⟩
theorem encode : Statement .encode := ⟨rfl, rfl⟩
theorem srcSeek : Statement .srcSeek := ⟨rfl, rfl⟩
theorem srcRead (w : Width) (e : Endian) : Statement (.srcRead w e) := ⟨rfl, rfl⟩
theorem winAppend : Statement .winAppend := ⟨rfl, rfl⟩
theorem winGet : Statement .winGet := ⟨rfl, rfl⟩
theorem winFill : Statement .winFill := ⟨rfl, rfl⟩
theorem winSeek : Statement .winSeek := ⟨rfl, rfl⟩

end EncodeLength

end Sys2Proof.Laws
end

