-- ==== Sys2Proof/Laws/Run.lean ====
section
/-! SUPPORT. The runs of DECODE and ENCODE: each induction once, and that they end. -/

namespace Sys2Proof.Machine

/-! ## DECODE -/

/-- A transition answers a next state. -/
theorem Transition.next {r : DecoderRegs} {s : State} {o : Host.Outcome State Fault Refusal} (h : Transition r s o) :
    ∃ t, o = .next t := by
  cases h <;> exact ⟨_, rfl⟩

theorem decoderStep_next {r : DecoderRegs} {s : State} (he : s.engine = .decoding r) :
    ∃ t, decoderStep r s = .next t := (decoderStep_transition he).next

/-- What every transition of a DECODE keeps, a run of them keeps. -/
theorem decoderRun_keeps {P : State → Prop}
    (h : ∀ r s t, s.engine = .decoding r → P s → decoderStep r s = .next t → P t) (n : Nat) {s : State} (hs : P s) :
    ∃ t, decoderRun n s = .next t ∧ P t := by
  induction n generalizing s with
  | zero => exact ⟨s, rfl, hs⟩
  | succ n ih =>
    unfold decoderRun
    split
    next r he =>
      obtain ⟨t, ht⟩ := decoderStep_next he
      rw [ht]
      exact ih (h r s t he hs ht)
    next r he => exact ⟨s, rfl, hs⟩
    next he => exact ⟨s, rfl, hs⟩

/-- The transitions a state has left: none where no DECODE runs. -/
def State.decodeLeft (s : State) : Nat :=
  match s.engine with
  | .decoding r => Machine.decodeLeft r s
  | .encoding _ => 0
  | .idle => 0

theorem decodeLeft_pos (r : DecoderRegs) (s : State) : 1 ≤ Machine.decodeLeft r s := by
  unfold Machine.decodeLeft
  split <;> omega

/-- Every transition leaves fewer, and no ENCODE takes over. -/
theorem decoderStep_left {r : DecoderRegs} {s t : State} (he : s.engine = .decoding r) (h : decoderStep r s = .next t) :
    t.decodeLeft < s.decodeLeft ∧ ∀ q, t.engine ≠ .encoding q := by
  have hs : s.decodeLeft = Machine.decodeLeft r s := by simp only [State.decodeLeft, he]
  have hp := decodeLeft_pos r s
  have ht := decoderStep_transition he
  rw [h] at ht
  rw [hs]
  generalize ho : (Host.Outcome.next t : Host.Outcome State Fault Refusal) = o at ht
  cases ht with
  | goesOn r1 s1 hg =>
    cases ho
    exact ⟨hg.left, fun q hq => by cases hq⟩
  | fails r1 s1 e hm he1 hr =>
    cases ho
    refine ⟨?_, fun q hq => by cases hq⟩
    have h1 : (raiseError e .decodeRunning (s1.withDecoder r1)).decodeLeft = 1 := rfl
    rw [h1]
    unfold Machine.decodeLeft
    split <;> first | omega | (rename_i hd; exact absurd hd hr.1) | (rename_i hd; exact absurd hd hr.2)
  | succeeds hd => cases ho; exact ⟨hp, fun q hq => by cases hq⟩
  | ends hd => cases ho; exact ⟨hp, fun q hq => by cases hq⟩

/-- A DECODE ends within the transitions it has left (R144). -/
theorem decoderRun_ends (n : Nat) {s : State} (hn : s.decodeLeft ≤ n) (hq : ∀ q, s.engine ≠ .encoding q) :
    ∃ t, decoderRun n s = .next t ∧ t.engine = .idle := by
  induction n generalizing s with
  | zero =>
    refine ⟨s, rfl, ?_⟩
    cases he : s.engine with
    | decoding r =>
      have := decodeLeft_pos r s
      simp only [State.decodeLeft, he] at hn
      omega
    | encoding q => exact absurd he (hq q)
    | idle => rfl
  | succ n ih =>
    unfold decoderRun
    split
    next r he =>
      obtain ⟨t, ht⟩ := decoderStep_next he
      have hl := decoderStep_left he ht
      rw [ht]
      exact ih (by omega) hl.2
    next q he => exact absurd he (hq q)
    next he => exact ⟨s, rfl, he⟩

/-- The fuel of DECODE is enough. -/
theorem decodeEntry_left (s : State) : (decodeEntry s).decodeLeft ≤ decodeFuel s := by
  show 2 * (s.inLen.toNat - s.arg.toNat) + 3 ≤ 2 * s.inLen.toNat + 4
  omega

/-! ## ENCODE -/

/-- What every transition of an ENCODE keeps, a run of them keeps. -/
theorem encoderRun_keeps {P : State → Prop}
    (h : ∀ r s, s.engine = .encoding r → P s → P (encoderStep r s)) (n : Nat) {s : State} (hs : P s) :
    P (encoderRun n s) := by
  induction n generalizing s with
  | zero => exact hs
  | succ n ih =>
    unfold encoderRun
    split
    next r he => exact ih (h r s he hs)
    next r he => exact hs
    next he => exact hs

/-- The transitions an ENCODE at P has left. -/
def encodeLeft (s : State) : Nat :=
  match s.engine with
  | .encoding r => s.inLen.toNat - r.p.toNat + 1
  | .decoding _ => 0
  | .idle => 0

/-- Every transition of an ENCODE leaves fewer, keeps the pending literals within RAW_MAX, and no DECODE takes over. -/
theorem encoderStep_left {r : EncoderRegs} {s : State} (he : s.engine = .encoding r) (hw : s.winCur.toNat ≤ s.cfg.rawMax)
    (hwin : s.WinOk) :
    encodeLeft (encoderStep r s) < encodeLeft s ∧ (∀ q, (encoderStep r s).engine ≠ .decoding q) ∧
      ((encoderStep r s).engine ≠ .idle → (encoderStep r s).WinOk) := by
  have hs : encodeLeft s = s.inLen.toNat - r.p.toNat + 1 := by simp only [encodeLeft, he]
  rw [hs]
  rcases encoderStep_cases (r := r) hw with ⟨hp, r1, s1, h1, hm, hlt, hle⟩ | ⟨hp, s1, h1, h2⟩ | ⟨e, h1, -⟩
  · rw [h1]
    have hin : s1.inLen = s.inLen := by rw [hm.frame]
    refine ⟨?_, (fun q hq => by cases hq), fun _ => ?_⟩
    · show s1.inLen.toNat - r1.p.toNat + 1 < _
      rw [hin]; omega
    · have := hm.winOk hwin
      exact ⟨this.wf, this.below, this.pending, this.drawn⟩
  · rw [h2]
    exact ⟨Nat.succ_pos _, (fun q hq => by cases hq), fun hq => absurd rfl hq⟩
  · have hidle : (raiseError e .encodeRunning s).engine = .idle := by simp [raiseError, he, Engine.fail]
    rw [h1]
    refine ⟨?_, (fun q hq => by rw [hidle] at hq; cases hq), fun hq => absurd hidle hq⟩
    simp only [encodeLeft, hidle]
    omega

/-- An ENCODE ends within the transitions it has left (R172). -/
theorem encoderRun_ends (n : Nat) {s : State} (hn : encodeLeft s ≤ n) (hq : ∀ q, s.engine ≠ .decoding q)
    (hw : s.engine ≠ .idle → s.WinOk) : (encoderRun n s).engine = .idle := by
  induction n generalizing s with
  | zero =>
    show s.engine = .idle
    cases he : s.engine with
    | encoding r => simp only [encodeLeft, he] at hn; omega
    | decoding q => exact absurd he (hq q)
    | idle => rfl
  | succ n ih =>
    unfold encoderRun
    split
    next r he =>
      have hwin := hw (by rw [he]; simp)
      have hl := encoderStep_left he hwin.pending hwin
      exact ih (by omega) hl.2.1 hl.2.2
    next q he => exact absurd he (hq q)
    next he => exact he

/-- What the entry of ENCODE leaves: OUT holds the header's place, the window is reset (R171). -/
theorem encodeEntry_ok {s t : State} (h : encodeEntry s = .ok t) :
    s.inLen ≠ 0#32 ∧
      t = { s with outMem := t.outMem, outLen := t.outLen, win := Memory.fillAll s.cfg.fill, winCur := 0#13,
                   engine := .encoding EncoderRegs.enter } := by
  unfold encodeEntry at h
  split at h
  · cases h
  · split at h
    · cases h
    · rename_i hne _ s1 ha
      have ho := (State.appendAll_outOnly ha).same
      refine ⟨hne, ?_⟩
      cases h
      rw [ho]
      rfl

theorem encodeEntry_error {s : State} {e : ErrKind} (h : encodeEntry s = .error e) :
    (s.inLen = 0#32 ∧ e = .invalidInput) ∨ e = .outputOverflow := by
  unfold encodeEntry at h
  split at h
  · cases h; exact .inl ⟨‹_›, rfl⟩
  · split at h
    · cases h; exact .inr (State.appendAll_error ‹_›)
    · cases h

theorem encodeEntry_winOk {s t : State} (h : encodeEntry s = .ok t) : t.WinOk := by
  obtain ⟨-, ht⟩ := encodeEntry_ok h
  rw [ht]
  exact ⟨rfl, rfl, Nat.zero_le _, rfl⟩

/-- The fuel of ENCODE is enough. -/
theorem encodeEntry_left {s t : State} (h : encodeEntry s = .ok t) : encodeLeft t ≤ encodeFuel s := by
  obtain ⟨-, ht⟩ := encodeEntry_ok h
  rw [ht]
  show s.inLen.toNat - 0 + 1 ≤ s.inLen.toNat + 1
  omega

end Sys2Proof.Machine
end

