-- ==== Sys2Proof/Machine/Assembler.lean ====
section
/-! DEFINITION. The assembly syntax of streams (30_encoding.md R103, R104) and the bytes it stands for. No step of the machine
uses it: it writes the streams that a host loads. -/

namespace Sys2Proof.Machine

/-- A line of assembly: a token mnemonic (R103), a directive or a pseudo-instruction (R104). -/
inductive Asm where
  /-- `LZ pos, n`. -/
  | lz (pos n : Nat)
  /-- `LZC k`. -/
  | lzc (k : Nat)
  /-- `RLES n, v`, or `RLES.X n, v` where x. -/
  | rles (x : Bool) (n : Nat) (v : Byte)
  /-- `RLEL n, v`, or `RLEL.X n, v` where x. -/
  | rlel (x : Bool) (n : Nat) (v : Byte)
  /-- `RAWS n: b1, ..., bn`. -/
  | raws (bs : List Byte)
  /-- `RAWL n: b1, ..., bn`. -/
  | rawl (bs : List Byte)
  /-- `RAWL.H h, n: b1, ..., bn`. -/
  | rawlHigh (h : Nat) (bs : List Byte)
  /-- `.stream`. -/
  | stream
  /-- `.end`. -/
  | close
  /-- `.trailer`. -/
  | trailer
  /-- `.byte b`. -/
  | byte (b : Byte)
  /-- `HDR d`. -/
  | hdr (d : Nat)
  /-- `COPY pos, len`. -/
  | copy (pos len : Nat)
  /-- `RUN n, v`. -/
  | run (n : Nat) (v : Byte)
  /-- `LIT b1, ..., bn`. -/
  | lit (bs : List Byte)
deriving DecidableEq, Repr

/-- Why a line does not assemble. -/
inductive AsmError where
  /-- An operand outside the range R103 or R104 gives it; or, where they give none, a number that does not fit the two header
  bytes it is written to: an `.end` of more than 0xFFFF bytes, an `HDR` above 0xFFFF (DESIGN CHOICE, safe, log 12). -/
  | range
  /-- LZC not directly after LZ or LZC, or an RLE token with bit 5 set directly after one of them (R103). -/
  | order
  /-- `.stream` inside a stream, `.end` outside one, or a program that leaves one open, on which R104 is silent (DESIGN CHOICE,
  safe, log 12). -/
  | nesting
deriving DecidableEq, Repr

/-- The bytes so far, where the open stream began, and whether the last line was LZ, LZC or COPY. -/
structure AsmState where
  out : List Byte
  opened : Option Nat
  cont : Bool
deriving DecidableEq, Repr

/-- Bytes appended, with the place of the next line. -/
def AsmState.emit (bs : List Byte) (cont : Bool) (a : AsmState) : AsmState :=
  { a with out := a.out ++ bs, cont := cont }

/-- Bytes appended where a condition on the operands holds. -/
def AsmState.emitIf (ok : Bool) (bs : List Byte) (cont : Bool) (a : AsmState) : Except AsmError AsmState :=
  if ok then .ok (a.emit bs cont) else .error .range

/-- The control byte of an RLE token with bit 5 as x says. -/
def rleControl (base : Nat) (x : Bool) (field : Nat) : Byte := byteOf (base ||| (if x then 0x20 else 0) ||| field)

/-- The largest literal count a RAWL of the mode holds (R103). -/
def rawlMax : RawLongMode → Nat
  | .wide13 => 8191
  | .byte8 => 255

/-- The high field `n >> 8` of a RAWL (R103): 0 in Byte8. -/
def rawlHighField (mode : RawLongMode) (n : Nat) : Nat :=
  match mode with
  | .wide13 => n >>> 8
  | .byte8 => 0

/-- The list with the bytes of a header written at index i. -/
def patchAt (bs : List Byte) (i d : Nat) : List Byte := (bs.set i (byteOf d)).set (i + 1) (byteOf (d >>> 8))

/-- One line (R103, R104). DESIGN CHOICE (safe, log 12), where the two rules are silent: a `.stream` inside a stream, an `.end`
outside one, an `.end` of more than 0xFFFF bytes and an `HDR` above 0xFFFF are refused. -/
def asmLine (c : Config) (l : Asm) (a : AsmState) : Except AsmError AsmState :=
  match l with
  | .lz pos n =>
    a.emitIf (decide (pos ≤ 8191 ∧ 4 ≤ n ∧ n ≤ 7))
      [byteOf (0x80 ||| (n - 4) <<< 5 ||| pos >>> 8), byteOf (pos &&& 0xFF)] true
  | .lzc k => if a.cont then a.emitIf (decide (k ≤ 31)) [byteOf (0x60 ||| k)] true else .error .order
  | .rles x n v =>
    if x && a.cont then .error .order
    else a.emitIf (decide (4 ≤ n ∧ n ≤ 19)) [rleControl 0x40 x (n - 4), v] false
  | .rlel x n v =>
    if x && a.cont then .error .order
    else a.emitIf (decide (4 ≤ n ∧ n ≤ 4099)) [rleControl 0x50 x ((n - 4) >>> 8), byteOf ((n - 4) &&& 0xFF), v] false
  | .raws bs => a.emitIf (decide (bs.length ≤ 31)) (byteOf bs.length :: bs) false
  | .rawl bs =>
    a.emitIf (decide (bs.length ≤ rawlMax c.rawLongMode))
      (byteOf (0x20 ||| rawlHighField c.rawLongMode bs.length) :: byteOf (bs.length &&& 0xFF) :: bs) false
  | .rawlHigh h bs =>
    a.emitIf (decide (h ≤ 31 ∧ bs.length ≤ rawlMax c.rawLongMode))
      (byteOf (0x20 ||| h) :: byteOf (bs.length &&& 0xFF) :: bs) false
  | .stream =>
    match a.opened with
    | none => .ok { out := a.out ++ [0x00#8, 0x00#8], opened := some a.out.length, cont := false }
    | some _ => .error .nesting
  | .close =>
    match a.opened with
    | none => .error .nesting
    | some i =>
      if a.out.length - i ≤ Config.hdrMax then
        .ok { out := patchAt a.out i (a.out.length - i), opened := none, cont := false }
      else .error .range
  | .trailer => .ok (a.emit [0x00#8] false)
  | .byte b => .ok (a.emit [b] false)
  | .hdr d => a.emitIf (decide (d ≤ Config.hdrMax)) [byteOf (d &&& 0xFF), byteOf (d >>> 8)] false
  | .copy pos len => a.emitIf (decide (pos ≤ 8191 ∧ 4 ≤ len)) (lzBytes len pos) true
  | .run n v => a.emitIf (decide (4 ≤ n ∧ n ≤ 4099)) (rleBytes n v) false
  | .lit bs => a.emitIf (decide (1 ≤ bs.length ∧ bs.length ≤ c.rawMax)) (rawHead bs.length ++ bs) false

/-- The lines of a program, one after another. -/
def asmLines (c : Config) : List Asm → AsmState → Except AsmError AsmState
  | [], a => .ok a
  | l :: ls, a =>
    match asmLine c l a with
    | .ok a1 => asmLines c ls a1
    | .error e => .error e

/-- The bytes of a program whose streams are all closed; one that leaves a stream open is refused (DESIGN CHOICE, safe,
log 12). -/
def assemble (c : Config) (ls : List Asm) : Except AsmError (List Byte) :=
  match asmLines c ls { out := [], opened := none, cont := false } with
  | .ok a => if a.opened.isNone then .ok a.out else .error .nesting
  | .error e => .error e

end Sys2Proof.Machine
end

