-- ==== Sys2Proof/Tests/Slice0.lean ====
section
/-! SUPPORT. Tests: ill-formed terms, words written out from the encodings, one step per instruction with results from
95_test_vectors.md, and for each statement with hypotheses a concrete input that meets them. -/

namespace Sys2Proof.Tests

open Sys2Proof Sys2Proof.Machine

/-! ## Helpers -/

/-- A small instance. -/
def small : Config := { inCap := 64#32, outCap := 64#32, rawLongMode := .wide13, fill := 0x00#8 }

/-- The small instance with another OUT_CAP. -/
def roomFor (n : Nat) : Config := { small with outCap := BitVec.ofNat 32 n }

/-- The state after reset with IN loaded. -/
def loaded (c : Config) (ins : List Byte) : State :=
  { State.resetWith c 0 [] with
    inMem := (Memory.unwritten 0).writeAll 0 ins, inLen := BitVec.ofNat 32 ins.length }

/-- The small instance with IN loaded. -/
def blk (ins : List Byte) : State := loaded small ins

/-- The state with a command word as the host's next action. -/
def issue (w : Word) (s : State) : State := { s with pending := [.writeReg 8 w] }

/-- Decoder registers in state d with END e. -/
def regs (d : DState) (e : Nat) : DecoderRegs := { DecoderRegs.enter 0#32 with dstate := d, endAddr := BitVec.ofNat 33 e }

/-- A running DECODE of an instance with IN loaded, SRC_CUR at `cur`, OUT holding `out`. -/
def decodingIn (c : Config) (r : DecoderRegs) (ins : List Byte) (cur : Nat) (out : List Byte) : State :=
  { loaded c ins with
    srcCur := BitVec.ofNat 32 cur, outMem := (Memory.unwritten 1).writeAll 0 out
    outLen := BitVec.ofNat 32 out.length, engine := .decoding r }

/-- A running ENCODE at position p with OUT holding the header's two bytes. -/
def encodingAt (c : Config) (ins : List Byte) (p : Nat) : State :=
  { loaded c ins with
    outMem := (Memory.unwritten 1).writeAll 0 [0x00#8, 0x00#8], outLen := 2#32, win := Memory.fillAll 0x00#8
    engine := .encoding { EncoderRegs.enter with p := BitVec.ofNat 32 p } }

/-- The outcome is a next state of which p holds. -/
def nextWith (p : State → Prop) [DecidablePred p] : Host.Outcome State Fault Refusal → Bool
  | .next t => decide (p t)
  | .fault _ => false
  | .refused _ => false

theorem of_nextWith {p : State → Prop} [DecidablePred p] {o : Host.Outcome State Fault Refusal}
    (h : nextWith p o = true) : ∃ t, o = .next t ∧ p t := by
  cases o with
  | next t => exact ⟨t, rfl, of_decide_eq_true h⟩
  | fault f => cases h
  | refused f => cases h

/-- An operation succeeds. -/
def succeeds : Except ErrKind State → Bool
  | .ok _ => true
  | .error _ => false

theorem of_succeeds {x : Except ErrKind State} (h : succeeds x = true) : ∃ t, x = .ok t := by
  cases x with
  | ok t => exact ⟨t, rfl⟩
  | error e => cases h

/-- An operation succeeds with a state of which p holds. -/
def okWith (p : State → Prop) [DecidablePred p] : Except ErrKind State → Bool
  | .ok t => decide (p t)
  | .error _ => false

theorem of_okWith {p : State → Prop} [DecidablePred p] {x : Except ErrKind State} (h : okWith p x = true) :
    ∃ t, x = .ok t ∧ p t := by
  cases x with
  | ok t => exact ⟨t, rfl, of_decide_eq_true h⟩
  | error e => cases h

/-- An operation is OutputOverflow. -/
def overflows : Except ErrKind State → Bool
  | .ok _ => false
  | .error e => e == .outputOverflow

theorem of_overflows {x : Except ErrKind State} (h : overflows x = true) : x = .error .outputOverflow := by
  cases x with
  | ok t => cases h
  | error e => cases e <;> first | rfl | cases h

/-- What the host sees of a codec command that ended: STATUS, ERRCODE, OUT below OUT_LEN, SRC_CUR. -/
def seen : Host.Outcome State Fault Refusal → Option (Status × Option ErrKind × List Byte × Nat)
  | .next t => some (t.status, t.errCode, t.outMem.bytes 0 t.outLen.toNat, t.srcCur.toNat)
  | .fault _ => none
  | .refused _ => none

/-- STATUS, ERRCODE and OUT_LEN after an error. -/
def seenError : Host.Outcome State Fault Refusal → Option (Status × Option ErrKind × Nat)
  | .next t => some (t.status, t.errCode, t.outLen.toNat)
  | .fault _ => none
  | .refused _ => none

/-- STATUS, ERRCODE, RESULT, SRC_CUR and WIN_CUR after a port or window command. -/
def seenPort : Host.Outcome State Fault Refusal → Option (Status × Option ErrKind × Word × Nat × Nat)
  | .next t => some (t.status, t.errCode, t.result, t.srcCur.toNat, t.winCur.toNat)
  | .fault _ => none
  | .refused _ => none

/-! ## WellFormed refuses ill-formed terms -/

theorem test_wf_refuses_reserved_width : Instr.wf (.srcRead .reserved .le) = false := by decide
theorem test_wf_refuses_lzc_at_dispatch : Token.orderWf false [.lzc 3#5] = false := by decide
theorem test_wf_refuses_lzc_after_rles : Token.orderWf false [.rles 0#1 0#4 1#8, .lzc 0#5] = false := by decide
theorem test_wf_refuses_rles_x_after_lz : Token.orderWf false [.lz 0#2 1#13, .rles 1#1 0#4 1#8] = false := by decide
theorem test_wf_refuses_rlel_x_after_lzc :
    Token.orderWf false [.lz 0#2 1#13, .lzc 1#5, .rlel 1#1 0#12 1#8] = false := by decide
theorem test_wf_refuses_raws_zero_first : Token.streamWf [.raws 0#5, .raws 1#5] = false := by decide
theorem test_wf_accepts_a_stream :
    Token.streamWf [.raws 3#5, .lz 3#2 3#13, .lzc 31#5, .lzc 2#5, .rlel 0#1 0x128#12 0x2A#8, .rawl 0#5 33#8] = true := by
  decide
theorem test_config_wf_refuses_no_capacity :
    Config.wf { small with inCap := 0#32 } = false ∧ Config.wf { small with outCap := 0#32 } = false := by decide
theorem test_memory_wf_refuses_order_and_fill :
    Memory.wf { background := .free 0, cells := [(2, 1#8), (1, 1#8)] } = false ∧
    Memory.wf { background := .filled 7#8, cells := [(2, 7#8)] } = false := by decide

/-! ## Words written out from the encodings (30_encoding.md sections 3 and 6; 95_test_vectors.md 2.1, 6) -/

theorem test_decode_lz : decodeToken .dispatch [0b11110010#8, 0b00110100#8, 0x55#8] = .ok (.lz 3#2 0x1234#13, [0x55#8]) := by
  decide
theorem test_decode_lzc : decodeToken .continuation [0b01110000#8] = .ok (.lzc 16#5, []) := by decide
theorem test_decode_lzc_byte_at_dispatch :
    decodeToken .dispatch [0b01100000#8, 0x43#8] = .ok (.rles 1#1 0#4 0x43#8, []) := by decide
theorem test_decode_rles : decodeToken .dispatch [0b01001111#8, 0x09#8] = .ok (.rles 0#1 15#4 0x09#8, []) := by decide
theorem test_decode_rlel :
    decodeToken .dispatch [0b01010001#8, 0x28#8, 0x2A#8] = .ok (.rlel 0#1 0x128#12 0x2A#8, []) := by decide
theorem test_decode_raws : decodeToken .dispatch [0b00011111#8, 0x01#8] = .ok (.raws 31#5, [0x01#8]) := by decide
theorem test_decode_rawl : decodeToken .dispatch [0b00111111#8, 0xF4#8] = .ok (.rawl 31#5 0xF4#8, []) := by decide
theorem test_decode_truncated :
    decodeToken .dispatch [0b01010000#8, 0xC4#8] = .error .truncated ∧
    decodeToken .continuation [0b01010000#8] = .error .notContinuation := by decide
theorem test_decode_commands :
    decodeCommand 0b10000001#32 = .ok .decode ∧ decodeCommand 0xFFFFFF82#32 = .ok .encode ∧
    decodeCommand 0b0011#32 = .ok .srcSeek ∧ decodeCommand 0b0100100#32 = .ok (.srcRead .w16 .le) ∧
    decodeCommand 0b1010100#32 = .ok (.srcRead .w32 .be) ∧ decodeCommand 0b1100100#32 = .ok (.srcRead .reserved .le) ∧
    decodeCommand 0b0101#32 = .ok .winAppend ∧ decodeCommand 0b0110#32 = .ok .winGet ∧
    decodeCommand 0b0111#32 = .ok .winFill ∧ decodeCommand 0b1000#32 = .ok .winSeek := by decide
theorem test_decode_refuses_reserved_commands :
    decodeCommand 0x00#32 = .error (.reservedCommand 0#4) ∧ decodeCommand 0x09#32 = .error (.reservedCommand 9#4) ∧
    decodeCommand 0x0F#32 = .error (.reservedCommand 15#4) := by decide
theorem test_table_words :
    decodeTableWord 8 0x80 = some (.lz 0#2 0#13) ∧ decodeTableWord 8 0x60 = some (.lzc 0#5) ∧
    decodeTableWord 8 0x40 = some (.rles 0#1 0#4 0#8) ∧ decodeTableWord 8 0x50 = some (.rlel 0#1 0#12 0#8) ∧
    decodeTableWord 8 0x00 = some (.raws 0#5) ∧ decodeTableWord 8 0x20 = some (.rawl 0#5 0#8) ∧
    decodeTableWord 32 1 = some .decode ∧ decodeTableWord 32 2 = some .encode ∧ decodeTableWord 32 3 = some .srcSeek ∧
    decodeTableWord 32 4 = some (.srcRead .w8 .le) ∧ decodeTableWord 32 5 = some .winAppend ∧
    decodeTableWord 32 6 = some .winGet ∧ decodeTableWord 32 7 = some .winFill ∧
    decodeTableWord 32 8 = some .winSeek := by decide
/-- Every row of the table, placed at reset, is run by the next step: the outcome is a next state. -/
theorem test_fetch_words :
    ([0x80, 0x60, 0x40, 0x50, 0x00, 0x20].all fun w => nextWith (fun _ => True) (step (State.reset.withFetchWord 8 w))) = true ∧
    ([1, 2, 3, 4, 5, 6, 7, 8].all fun w => nextWith (fun _ => True) (step (State.reset.withFetchWord 32 w))) = true := by
  decide +kernel

/-! ## Assembly (95_test_vectors.md section 8) -/

def assembled : Except AsmError (List Byte) → Option (List Byte)
  | .ok bs => some bs
  | .error _ => none

/-- Program P1. -/
theorem test_assemble_p1 :
    assembled (assemble small [.stream, .raws [0x57, 0x58, 0x59, 0x5A], .rles false 5 0x2E, .lz 9 4, .close, .trailer]) =
      some [0x0B, 0x00, 0x04, 0x57, 0x58, 0x59, 0x5A, 0x41, 0x2E, 0x80, 0x09, 0x00] := by decide +kernel
/-- Program P2, its RAWL of 33 literals by their list. -/
theorem test_assemble_p2 :
    assembled (assemble small [.stream, .raws [0x41, 0x42, 0x43], .copy 3 40, .rlel false 300 0x2A,
      .rawl ((List.range 33).map (BitVec.ofNat 8)), .lz 376 4, .close, .trailer]) =
      some ([0x32, 0x00, 0x03, 0x41, 0x42, 0x43, 0xE0, 0x03, 0x7F, 0x62, 0x51, 0x28, 0x2A, 0x20, 0x21] ++
        (List.range 33).map (BitVec.ofNat 8) ++ [0x81, 0x78, 0x00]) := by decide +kernel
theorem test_assemble_refuses :
    assembled (assemble small [.lzc 1]) = none ∧ assembled (assemble small [.lz 1 4, .rles true 4 0]) = none ∧
    assembled (assemble small [.lz 1 8]) = none ∧ assembled (assemble small [.stream]) = none := by decide +kernel

/-! ## One step per instruction; the results are those of 95_test_vectors.md -/

/-- V-LZ3: count 6 at position 2. -/
theorem test_lz_overlaps_its_output :
    seen (step (issue 1#32 (blk [0x07, 0x00, 0x02, 0x41, 0x42, 0xC0, 0x02, 0x00]))) =
      some (.done, none, [0x41, 0x42, 0x41, 0x42, 0x41, 0x42, 0x41, 0x42], 7) := by decide +kernel
/-- V-LZ8: position 0. -/
theorem test_lz_position_zero :
    seenError (step (issue 1#32 (blk [0x06, 0x00, 0x01, 0x41, 0x80, 0x00, 0x00]))) =
      some (.error, some .corruptStream, 0) := by decide +kernel
/-- V-LZC2: LZC 0, then a byte that is pushed back and read as RLEL. -/
theorem test_lzc_zero_then_push_back :
    seen (step (issue 1#32 (blk [0x0A, 0x00, 0x01, 0x41, 0x80, 0x01, 0x60, 0x50, 0x00, 0x42, 0x00]))) =
      some (.done, none, [0x41, 0x41, 0x41, 0x41, 0x41, 0x42, 0x42, 0x42, 0x42], 10) := by decide +kernel
/-- V-LZC8: a continuation byte at END is consumed. -/
theorem test_lzc_at_end_of_input :
    seenError (step (issue 1#32 (blk [0x06, 0x00, 0x01, 0x41, 0x80, 0x01, 0x61]))) =
      some (.error, some .corruptStream, 0) := by decide +kernel
/-- V-RLE3: bit 5 is ignored. -/
theorem test_rles_ignores_bit_five :
    seen (step (issue 1#32 (blk [0x04, 0x00, 0x6F, 0x09]))) = some (.done, none, List.replicate 19 0x09, 4) := by
  decide +kernel
/-- V-RLE10: the value byte overruns. -/
theorem test_rles_without_value :
    seenError (step (issue 1#32 (blk [0x04, 0x00, 0x40]))) = some (.error, some .corruptStream, 0) := by decide +kernel
/-- V-RLE5: count 20. -/
theorem test_rlel_twenty :
    seen (step (issue 1#32 (blk [0x05, 0x00, 0x50, 0x10, 0x09, 0x00]))) = some (.done, none, List.replicate 20 0x09, 5) := by
  decide +kernel
/-- V-O1: the fifth append finds OUT full. -/
theorem test_rlel_overflow :
    seenError (step (issue 1#32 (loaded (roomFor 4) [0x05, 0x00, 0x50, 0xC4, 0x00, 0x00]))) =
      some (.error, some .outputOverflow, 0) := by decide +kernel
/-- V-RAW2: RAWS 0 after the first token is a one-byte no-op. -/
theorem test_raws_zero_is_a_no_op :
    seen (step (issue 1#32 (blk [0x05, 0x00, 0x01, 0x41, 0x00, 0x00]))) = some (.done, none, [0x41], 5) := by decide +kernel
/-- V-RAW10: the literals overrun. -/
theorem test_raws_without_literals :
    seenError (step (issue 1#32 (blk [0x06, 0x00, 0x05, 0x01, 0x02, 0x03]))) = some (.error, some .corruptStream, 0) := by
  decide +kernel
/-- V-RAW4: RAWL 33. -/
theorem test_rawl_thirty_three :
    seen (step (issue 1#32 (blk ([0x25, 0x00, 0x20, 0x21] ++ (List.range 33).map (BitVec.ofNat 8))))) =
      some (.done, none, (List.range 33).map (BitVec.ofNat 8), 37) := by decide +kernel
/-- The first token of V-RAW7: in Byte8 mode `21 00` is a RAWL of length 0. -/
theorem test_rawl_byte8_ignores_high_field :
    seen (exec (.rawl 1#5 0#8)
      (decodingIn { small with rawLongMode := .byte8 } (regs .handlingRAW 9) [0x00, 0x00, 0x00] 1 [0x41])) =
      some (.idle, none, [0x41], 1) := by decide +kernel
/-- Program P1 (S6). -/
theorem test_decode_mixed_stream :
    seen (step (issue 1#32 (blk [0x0B, 0x00, 0x04, 0x57, 0x58, 0x59, 0x5A, 0x41, 0x2E, 0x80, 0x09, 0x00]))) =
      some (.done, none, [0x57, 0x58, 0x59, 0x5A, 0x2E, 0x2E, 0x2E, 0x2E, 0x2E, 0x57, 0x58, 0x59, 0x5A], 11) := by
  decide +kernel
/-- V-H6: the empty escape comes before any check of DECL. -/
theorem test_decode_empty_escape :
    seen (step (issue 1#32 (blk [0x00, 0x00, 0x00]))) = some (.done, none, [], 2) := by decide +kernel
/-- S2: "AB" 32 times. -/
theorem test_encode_pattern :
    seen (step (issue 2#32 (blk (List.replicate 32 [0x41, 0x42]).flatten))) =
      some (.done, none, [0x0A, 0x00, 0x03, 0x41, 0x42, 0x41, 0xE0, 0x02, 0x7F, 0x77, 0x00], 0) := by decide +kernel
/-- V-E11: of two matches of equal length the larger offset is taken. -/
theorem test_encode_tie :
    seen (step (issue 2#32 (blk
      [0x5A, 0x50, 0x51, 0x52, 0x53, 0x54, 0x50, 0x51, 0x52, 0x53, 0x55, 0x50, 0x51, 0x52, 0x53]))) =
      some (.done, none, [0x0F, 0x00, 0x06, 0x5A, 0x50, 0x51, 0x52, 0x53, 0x54, 0x80, 0x05, 0x01, 0x55, 0x80, 0x0A, 0x00],
        0) := by decide +kernel
/-- V-P10 and V-P11: the end of the input is a legal cursor, one past it is not. -/
theorem test_src_seek :
    seenPort (step (issue 3#32 { blk [0x12, 0x34, 0x56, 0x78] with arg := 4#32 })) = some (.done, none, 0#32, 4, 0) ∧
    seenPort (step (issue 3#32 { blk [0x12, 0x34, 0x56, 0x78] with arg := 5#32 })) =
      some (.error, some .outOfBounds, 0#32, 0, 0) := by decide +kernel
/-- V-P5 and V-P8: 32 bits big-endian, and 16 bits little-endian at an odd address. -/
theorem test_src_read :
    seenPort (step (issue 0x54#32 (blk [0x12, 0x34, 0x56, 0x78]))) = some (.done, none, 0x12345678#32, 4, 0) ∧
    seenPort (step (issue 0x24#32 { blk [0x12, 0x34, 0x56, 0x78] with srcCur := 1#32 })) =
      some (.done, none, 0x00005634#32, 3, 0) := by decide +kernel
/-- V-P7 and V-P12: three bytes left for 32 bits, and the reserved width. -/
theorem test_src_read_errors :
    seenPort (step (issue 0x44#32 { blk [0x12, 0x34, 0x56, 0x78] with srcCur := 1#32 })) =
      some (.error, some .outOfBounds, 0#32, 1, 0) ∧
    seenPort (step (issue 0x64#32 (blk [0x12, 0x34, 0x56, 0x78]))) = some (.error, some .badCommand, 0#32, 0, 0) := by
  decide +kernel
/-- Section 4, step 2: the append at cell 8191 wraps the cursor. -/
theorem test_win_append_wraps :
    nextWith (fun t => t.win.read 8191 = 0x02#8 ∧ t.winCur = 0#13)
      (step (issue 5#32 { blk [] with arg := 0x102#32, winCur := 8191#13 })) = true := by decide +kernel
/-- Section 4, steps 4 and 6: WinGet(−1) is cell 8191, WinGet(−8192) cell 0. -/
theorem test_win_get_negative :
    seenPort (step (issue 6#32 { blk [] with
      arg := 0xFFFFFFFF#32, win := ((Memory.fillAll 0xAA#8).write 8191 0x02#8).write 0 0x03#8 })) =
      some (.done, none, 0x02#32, 0, 0) ∧
    seenPort (step (issue 6#32 { blk [] with
      arg := 0xFFFFE000#32, win := ((Memory.fillAll 0xAA#8).write 8191 0x02#8).write 0 0x03#8 })) =
      some (.done, none, 0x03#32, 0, 0) := by decide +kernel
/-- Section 6: WIN_FILL takes ARG[7:0]; the cursor stays. -/
theorem test_win_fill :
    nextWith (fun t => t.win.read 0 = 0xAA#8 ∧ t.win.read 8191 = 0xAA#8 ∧ t.winCur = 5#13)
      (step (issue 7#32 { blk [] with arg := 0x1AA#32, winCur := 5#13 })) = true := by decide +kernel
/-- Section 4, steps 10 and 11. -/
theorem test_win_seek :
    seenPort (step (issue 8#32 { blk [] with arg := 8193#32 })) = some (.done, none, 0#32, 0, 1) ∧
    seenPort (step (issue 8#32 { blk [] with arg := 0x2000#32, winCur := 7#13 })) = some (.done, none, 0#32, 0, 0) := by
  decide +kernel
/-- Section 7: the first command after reset. -/
theorem test_first_commands_after_reset :
    seenError (step (issue 1#32 State.reset)) = some (.error, some .corruptStream, 0) ∧
    seenError (step (issue 2#32 State.reset)) = some (.error, some .invalidInput, 0) := by decide +kernel
theorem test_first_port_commands_after_reset :
    seenPort (step (issue 4#32 State.reset)) = some (.error, some .outOfBounds, 0#32, 0, 0) ∧
    seenPort (step (issue 3#32 State.reset)) = some (.done, none, 0#32, 0, 0) := by decide +kernel

/-! ## Witnesses: for each statement with hypotheses, inputs that meet them, one for each clause -/

theorem witness_TokenFormats :
    0x80 ≤ (0x80#8).toNat ∧ 0x80 ≤ (0xFF#8).toNat ∧
    (0x40 ≤ (0x6F#8).toNat ∧ (0x6F#8).toNat < 0x80 ∧ (0x6F#8).toNat / 16 % 2 = 0) ∧
    (0x40 ≤ (0x7F#8).toNat ∧ (0x7F#8).toNat < 0x80 ∧ (0x7F#8).toNat / 16 % 2 = 1) ∧
    (0x1F#8).toNat < 0x20 ∧ (0x20 ≤ (0x3F#8).toNat ∧ (0x3F#8).toNat < 0x40) := by decide

theorem witness_ContinuationBytes :
    (0x60 ≤ (0x60#8).toNat ∧ (0x60#8).toNat < 0x80) ∧ (0x60 ≤ (0x7F#8).toNat ∧ (0x7F#8).toNat < 0x80) ∧
    ((0x5F#8).toNat < 0x60 ∨ 0x80 ≤ (0x5F#8).toNat) ∧ ((0x80#8).toNat < 0x60 ∨ 0x80 ≤ (0x80#8).toNat) := by decide

theorem witness_DecodeInvertsEncode : Instr.wf (.srcRead .w32 .be) = true ∧ Instr.wf (.lz 3#2 0x1FFF#13) = true := by decide

theorem witness_TokensAtTheContinuationTest :
    Token.fitsAfter true (.rlel 0#1 0xFFF#12 1#8) = true ∧ (Token.rlel 0#1 0xFFF#12 1#8).context = .dispatch ∧
    Token.fitsAfter true (.rawl 31#5 1#8) = true ∧ (Token.rawl 31#5 1#8).context = .dispatch := by decide

theorem witness_CommandWords :
    (0x81#32).toNat % 16 = 1 ∧ (0xFFFFFF82#32).toNat % 16 = 2 ∧ (0x03#32).toNat % 16 = 3 ∧ (0x64#32).toNat % 16 = 4 ∧
    (0x05#32).toNat % 16 = 5 ∧ (0x06#32).toNat % 16 = 6 ∧ (0x07#32).toNat % 16 = 7 ∧ (0x08#32).toNat % 16 = 8 ∧
    ((0x00#32).toNat % 16 = 0 ∨ 9 ≤ (0x00#32).toNat % 16) ∧ ((0x09#32).toNat % 16 = 0 ∨ 9 ≤ (0x09#32).toNat % 16) ∧
    (0x54#32).toNat % 128 = (0xFFFFFFD4#32).toNat % 128 := by decide

/-- A DECODE at dispatch, the last byte below END being an LZ control byte. -/
def atDispatch : State := decodingIn small (regs .dispatchingToken 4) [0x00, 0x00, 0x00, 0x80, 0x01, 0x00] 3 [0x41]

theorem witness_StepRunsTheDispatchedToken :
    AtDispatch atDispatch (regs .dispatchingToken 4) ∧
    decodeToken .dispatch (atDispatch.streamBytes 3) = .ok (.lz 0#2 1#13, [0x00]) ∧
    AtDispatch (decodingIn small (regs .dispatchingToken 4) [0x00, 0x00, 0x00, 0x80] 3 []) (regs .dispatchingToken 4) ∧
    decodeToken .dispatch ((decodingIn small (regs .dispatchingToken 4) [0x00, 0x00, 0x00, 0x80] 3 []).streamBytes 3) =
      .error .truncated ∧
    (regs .dispatchingToken 3).endAddr.toNat ≤ (decodingIn small (regs .dispatchingToken 3) [0, 0, 0] 3 []).srcCur.toNat :=
  ⟨⟨rfl, rfl, by decide⟩, by decide +kernel, ⟨rfl, rfl, by decide⟩, by decide +kernel, by decide⟩

/-- A DECODE at the continuation test, at byte b. -/
def atContinuation (b : Byte) : State := decodingIn small { regs .handlingLZC 1 with pos := 1#13 } [b] 0 [0x41]

theorem witness_StepRunsTheContinuationByte :
    (atContinuation 0x7F).engine = .decoding { regs .handlingLZC 1 with pos := 1#13 } ∧
    (regs .handlingLZC 1).dstate = .handlingLZC ∧
    decodeToken .continuation ((atContinuation 0x7F).streamBytes 1) = .ok (.lzc 31#5, []) ∧
    decodeToken .continuation ((atContinuation 0x5F).streamBytes 1) = .error .notContinuation := by decide +kernel

theorem witness_StepRunsTheCommand :
    (issue 7#32 (blk [])).engine = .idle ∧ (issue 7#32 (blk [])).pending = [.writeReg 8 7#32] ∧
    decodeCommand 7#32 = .ok .winFill := by decide

theorem witness_ReservedCommandWords :
    (issue 9#32 (blk [])).engine = .idle ∧ (issue 9#32 (blk [])).pending = [.writeReg 8 9#32] ∧
    (0#32).toNat % 16 = 0 ∧ 9 ≤ (9#32).toNat % 16 ∧ 9 ≤ (15#32).toNat % 16 ∧
    ((0x64#32).toNat % 16 = 4 ∧ (0x64#32).toNat / 32 % 4 = 3) := by decide

theorem witness_RunningCommandKeepsTheHostOut :
    atDispatch.engine ≠ .idle ∧ ∃ t, step atDispatch = .next t := by
  refine ⟨by decide, ?_⟩
  obtain ⟨t, h, -⟩ := of_nextWith (p := fun _ => True) (o := step atDispatch) (by decide +kernel)
  exact ⟨t, h⟩

theorem witness_EqualMemoriesAreEqualData :
    Memory.wf { background := .filled 0#8, cells := [(1, 2#8), (3, 4#8)] } = true ∧
    Memory.wf { background := .free 0, cells := [(1, 2#8), (3, 4#8)] } = true ∧
    (∃ v, ({ background := .filled 0#8, cells := [(1, 2#8), (3, 4#8)] } : Memory).background = .filled v) :=
  ⟨by decide, by decide, ⟨0#8, rfl⟩⟩

theorem witness_Reset :
    ({ blk [0x01] with pending := [.reset] } : State).engine = .idle ∧
    ({ blk [0x01] with pending := [.reset] } : State).pending = [.reset] := by decide

theorem witness_HostReadsRegisters :
    ({ blk [0x01] with pending := [.readReg 5, .readReg 8] } : State).engine = .idle ∧
    ({ blk [0x01] with pending := [.readReg 5, .readReg 8] } : State).pending = .readReg 5 :: [.readReg 8] := by decide

theorem witness_HostWritesRegisters :
    ({ blk [] with pending := [.writeReg 2 64#32] } : State).engine = .idle ∧
    ({ blk [] with pending := [.writeReg 2 64#32] } : State).pending = .writeReg 2 64#32 :: [] ∧
    (64#32).toNat ≤ small.inCap.toNat ∧ small.inCap.toNat < (65#32).toNat ∧
    decodeCommand 0xF7#32 = .ok .winFill ∧ (3 ≠ 2 ∧ 3 ≠ 7 ∧ 3 ≠ 8) := by decide

theorem witness_HostLoadsIn :
    ({ blk [] with pending := [.loadIn 63#32 1#8] } : State).engine = .idle ∧
    ({ blk [] with pending := [.loadIn 63#32 1#8] } : State).pending = .loadIn 63#32 1#8 :: [] ∧
    (blk []).inMem.wf = true ∧ (63#32).toNat < small.inCap.toNat ∧ ¬ (64#32).toNat < small.inCap.toNat := by decide

theorem witness_HostReadsOut :
    ({ blk [] with pending := [.readOut 0#32], outLen := 1#32 } : State).engine = .idle ∧
    ({ blk [] with pending := [.readOut 0#32], outLen := 1#32 } : State).pending = .readOut 0#32 :: [] ∧
    (0#32).toNat < (1#32 : Word).toNat ∧ (1#32 : Word).toNat ≤ (1#32).toNat := by decide

theorem witness_SrcSeek :
    ({ blk [1, 2] with arg := 2#32 } : State).arg.toNat ≤ (blk [1, 2]).inLen.toNat ∧
    (blk [1, 2]).inLen.toNat < ({ blk [1, 2] with arg := 3#32 } : State).arg.toNat := by decide

theorem witness_SrcRead :
    Width.w32 ≠ .reserved ∧ (blk [1, 2, 3, 4]).srcCur.toNat + widthBytes .w32 ≤ (blk [1, 2, 3, 4]).inLen.toNat ∧
    (blk [1, 2, 3]).inLen.toNat < (blk [1, 2, 3]).srcCur.toNat + widthBytes .w32 ∧
    (blk [1, 2]).srcCur.toNat + widthBytes .w16 ≤ (blk [1, 2]).inLen.toNat ∧
    (blk [1]).srcCur.toNat + widthBytes .w8 ≤ (blk [1]).inLen.toNat := by decide

theorem witness_WinAppend : ({ blk [] with winCur := 8191#13 } : State).win.wf = true := by decide

theorem witness_WindowCapacity :
    (blk []).win.wf = true ∧ (List.replicate 8192 (0x41#8 : Byte)).length ≤ 8192 ∧
    (∀ j, j < ([0x41#8] : List Byte).length → 1 ≠ ((blk []).winCur.toNat + j) % 8192) := by
  exact ⟨by decide, (List.length_replicate).le, by decide⟩

/-- A DECODE in handling state d of an instance with OUT_CAP 8. -/
def atHandler (d : DState) (ins out : List Byte) : State :=
  decodingIn (roomFor 8) { regs d 6 with pos := 1#13 } ins 0 out

theorem witness_LzToken :
    (atHandler .handlingLZ [] [0x41]).engine = .decoding { regs .handlingLZ 6 with pos := 1#13 } ∧
    (regs .handlingLZ 6).dstate = .handlingLZ ∧ (atHandler .handlingLZ [] [0x41]).outMem.wf = true ∧
    (atHandler .handlingLZ [] [0x41]).outLen.toNat + ((3#2).toNat + 4) ≤ (roomFor 8).outCap.toNat ∧
    (1 ≤ (1#13).toNat ∧ (1#13).toNat ≤ (atHandler .handlingLZ [] [0x41]).outLen.toNat) ∧
    (0#13).toNat = 0 ∧ (atHandler .handlingLZ [] [0x41]).outLen.toNat < (2#13).toNat ∧
    (roomFor 8).outCap.toNat < (atHandler .handlingLZ [] [0x41, 0x42]).outLen.toNat + ((3#2).toNat + 4) := by decide
/-- The step clauses: a token whose head stops at IN_LEN, at dispatch below END. -/
def cutAt (ins : List Byte) : State := decodingIn small (regs .dispatchingToken 3) ins 2 [0x41]

theorem cutAt_atDispatch (ins : List Byte) : AtDispatch (cutAt ins) (regs .dispatchingToken 3) := ⟨rfl, rfl, Nat.lt_succ_self 2⟩

theorem witness_LzToken_head :
    AtDispatch (cutAt [0, 0, 0x80, 0x01]) (regs .dispatchingToken 3) ∧ AtDispatch (cutAt [0, 0, 0x80]) (regs .dispatchingToken 3) ∧
    0x80 ≤ (nextByte (cutAt [0, 0, 0x80, 0x01]) 0).toNat ∧ 0x80 ≤ (nextByte (cutAt [0, 0, 0x80]) 0).toNat ∧
    (cutAt [0, 0, 0x80, 0x01]).srcCur.toNat + 2 ≤ (cutAt [0, 0, 0x80, 0x01]).inLen.toNat ∧
    (cutAt [0, 0, 0x80]).srcCur.toNat + 1 = (cutAt [0, 0, 0x80]).inLen.toNat :=
  ⟨cutAt_atDispatch _, cutAt_atDispatch _, by decide, by decide, by decide, by decide⟩

theorem witness_LzcToken :
    (atHandler .handlingLZC [] [0x41]).engine = .decoding { regs .handlingLZC 6 with pos := 1#13 } ∧
    (regs .handlingLZC 6).dstate = .handlingLZC ∧ (atHandler .handlingLZC [] [0x41]).outMem.wf = true ∧
    (1 ≤ (1#13).toNat ∧ (1#13).toNat ≤ (atHandler .handlingLZC [] [0x41]).outLen.toNat) ∧
    (atHandler .handlingLZC [] [0x41]).outLen.toNat + (7#5).toNat ≤ (roomFor 8).outCap.toNat ∧
    (roomFor 8).outCap.toNat < (atHandler .handlingLZC [] [0x41]).outLen.toNat + (8#5).toNat ∧
    (atHandler .handlingLZC [] [0x41]).inLen.toNat ≤ (atHandler .handlingLZC [] [0x41]).srcCur.toNat := by decide
theorem witness_LzcToken_test :
    (atContinuation 0x7F).srcCur.toNat < (atContinuation 0x7F).inLen.toNat ∧
    (nextByte (atContinuation 0x60) 0).toNat / 32 = 3 ∧ (nextByte (atContinuation 0x7F) 0).toNat / 32 = 3 ∧
    (nextByte (atContinuation 0x5F) 0).toNat / 32 ≠ 3 ∧ (nextByte (atContinuation 0x80) 0).toNat / 32 ≠ 3 := by decide

theorem witness_RlesToken :
    (atHandler .handlingRLE [] []).engine = .decoding { regs .handlingRLE 6 with pos := 1#13 } ∧
    (regs .handlingRLE 6).dstate = .handlingRLE ∧ (atHandler .handlingRLE [] []).outMem.wf = true ∧
    (atHandler .handlingRLE [] []).outLen.toNat + ((4#4).toNat + 4) ≤ (roomFor 8).outCap.toNat ∧
    (roomFor 8).outCap.toNat < (atHandler .handlingRLE [] []).outLen.toNat + ((5#4).toNat + 4) := by decide
theorem witness_RlesToken_head :
    AtDispatch (cutAt [0, 0, 0x6F, 0x09]) (regs .dispatchingToken 3) ∧ AtDispatch (cutAt [0, 0, 0x6F]) (regs .dispatchingToken 3) ∧
    (nextByte (cutAt [0, 0, 0x6F, 0x09]) 0).toNat / 64 = 1 ∧ (nextByte (cutAt [0, 0, 0x6F, 0x09]) 0).toNat / 16 % 2 = 0 ∧
    (cutAt [0, 0, 0x6F, 0x09]).srcCur.toNat + 2 ≤ (cutAt [0, 0, 0x6F, 0x09]).inLen.toNat ∧
    (nextByte (cutAt [0, 0, 0x6F]) 0).toNat / 64 = 1 ∧ (nextByte (cutAt [0, 0, 0x6F]) 0).toNat / 16 % 2 = 0 ∧
    (cutAt [0, 0, 0x6F]).srcCur.toNat + 1 = (cutAt [0, 0, 0x6F]).inLen.toNat :=
  ⟨cutAt_atDispatch _, cutAt_atDispatch _, by decide, by decide, by decide, by decide, by decide, by decide⟩

theorem witness_RlelToken :
    (atHandler .handlingRLE [] [0x41]).engine = .decoding { regs .handlingRLE 6 with pos := 1#13 } ∧
    (atHandler .handlingRLE [] [0x41]).outMem.wf = true ∧
    (atHandler .handlingRLE [] [0x41]).outLen.toNat + ((3#12).toNat + 4) ≤ (roomFor 8).outCap.toNat ∧
    (roomFor 8).outCap.toNat < (atHandler .handlingRLE [] [0x41]).outLen.toNat + ((4#12).toNat + 4) := by decide
theorem witness_RlelToken_head :
    AtDispatch (cutAt [0, 0, 0x50, 0xC4, 0x00]) (regs .dispatchingToken 3) ∧
    AtDispatch (cutAt [0, 0, 0x50, 0xC4]) (regs .dispatchingToken 3) ∧
    (nextByte (cutAt [0, 0, 0x50, 0xC4, 0x00]) 0).toNat / 64 = 1 ∧
    (nextByte (cutAt [0, 0, 0x50, 0xC4, 0x00]) 0).toNat / 16 % 2 = 1 ∧
    (cutAt [0, 0, 0x50, 0xC4, 0x00]).srcCur.toNat + 3 ≤ (cutAt [0, 0, 0x50, 0xC4, 0x00]).inLen.toNat ∧
    (nextByte (cutAt [0, 0, 0x50, 0xC4]) 0).toNat / 64 = 1 ∧ (nextByte (cutAt [0, 0, 0x50, 0xC4]) 0).toNat / 16 % 2 = 1 ∧
    (cutAt [0, 0, 0x50, 0xC4]).srcCur.toNat < (cutAt [0, 0, 0x50, 0xC4]).inLen.toNat ∧
    (cutAt [0, 0, 0x50, 0xC4]).inLen.toNat ≤ (cutAt [0, 0, 0x50, 0xC4]).srcCur.toNat + 2 :=
  ⟨cutAt_atDispatch _, cutAt_atDispatch _, by decide, by decide, by decide, by decide, by decide, by decide, by decide⟩

theorem witness_RawsToken :
    (atHandler .handlingRAW [1, 2] [3]).engine = .decoding { regs .handlingRAW 6 with pos := 1#13 } ∧
    (regs .handlingRAW 6).dstate = .handlingRAW ∧ (atHandler .handlingRAW [1, 2] [3]).outMem.wf = true ∧
    (atHandler .handlingRAW [1, 2] [3]).outLen.toNat ≤ (roomFor 8).outCap.toNat ∧
    (atHandler .handlingRAW [1, 2] [3]).srcCur.toNat ≤ (atHandler .handlingRAW [1, 2] [3]).inLen.toNat := by decide
theorem witness_RawsToken_head :
    AtDispatch (cutAt [0, 0, 0x1F]) (regs .dispatchingToken 3) ∧
    (cutAt [0, 0, 0x1F]).srcCur.toNat < (cutAt [0, 0, 0x1F]).inLen.toNat ∧ (nextByte (cutAt [0, 0, 0x1F]) 0).toNat < 32 :=
  ⟨cutAt_atDispatch _, by decide, by decide⟩
/-- The three clauses of a literal run: two literals that are there and fit, three of which one is missing, two of which one
does not fit. -/
theorem witness_LiteralRun :
    ((atHandler .handlingRAW [1, 2] [3]).srcCur.toNat + 2 ≤ (atHandler .handlingRAW [1, 2] [3]).inLen.toNat ∧
      (atHandler .handlingRAW [1, 2] [3]).outLen.toNat + 2 ≤ (roomFor 8).outCap.toNat) ∧
    ((atHandler .handlingRAW [1, 2] [3]).inLen.toNat < (atHandler .handlingRAW [1, 2] [3]).srcCur.toNat + 3 ∧
      (atHandler .handlingRAW [1, 2] [3]).inLen.toNat - (atHandler .handlingRAW [1, 2] [3]).srcCur.toNat ≤
        (roomFor 8).outCap.toNat - (atHandler .handlingRAW [1, 2] [3]).outLen.toNat) ∧
    ((roomFor 8).outCap.toNat < (atHandler .handlingRAW [1, 2] [0, 0, 0, 0, 0, 0, 0]).outLen.toNat + 2 ∧
      (roomFor 8).outCap.toNat - (atHandler .handlingRAW [1, 2] [0, 0, 0, 0, 0, 0, 0]).outLen.toNat <
        (atHandler .handlingRAW [1, 2] [0, 0, 0, 0, 0, 0, 0]).inLen.toNat -
          (atHandler .handlingRAW [1, 2] [0, 0, 0, 0, 0, 0, 0]).srcCur.toNat) := by decide

theorem witness_RawlToken :
    (atHandler .handlingRAW [1, 2] [3]).cfg.rawLongMode = .wide13 ∧
    ({ atHandler .handlingRAW [1, 2] [3] with cfg := { roomFor 8 with rawLongMode := .byte8 } } : State).cfg.rawLongMode
      = .byte8 ∧
    (nextByte (cutAt [0, 0, 0x20, 0xFF]) 0).toNat / 32 = 1 ∧
    (cutAt [0, 0, 0x20, 0xFF]).srcCur.toNat + 2 ≤ (cutAt [0, 0, 0x20, 0xFF]).inLen.toNat ∧
    (nextByte (cutAt [0, 0, 0x3F]) 0).toNat / 32 = 1 ∧
    (cutAt [0, 0, 0x3F]).srcCur.toNat + 1 = (cutAt [0, 0, 0x3F]).inLen.toNat := by decide

theorem witness_TokenFrame : ∃ u, exec (Token.raws 2#5).toInstr (atHandler .handlingRAW [1, 2] [3]) = .next u := by
  obtain ⟨t, h, -⟩ := of_nextWith (p := fun _ => True)
    (o := exec (Token.raws 2#5).toInstr (atHandler .handlingRAW [1, 2] [3])) (by decide +kernel)
  exact ⟨t, h⟩

theorem witness_DecodeEntry :
    (blk [1, 2]).engine = .idle ∧ (blk [1, 2]).inLen.toNat < ({ blk [1, 2] with arg := 3#32 } : State).arg.toNat ∧
    ({ blk [1, 2] with arg := 2#32 } : State).arg.toNat ≤ (blk [1, 2]).inLen.toNat := by decide

theorem witness_HeaderStep :
    (decodingIn small (regs .readingHeader 0) [3, 0, 0] 0 []).engine = .decoding (regs .readingHeader 0) ∧
    (regs .readingHeader 0).dstate = .readingHeader ∧
    (decodingIn small (regs .readingHeader 0) [3, 0] 0 []).inLen.toNat <
      (decodingIn small (regs .readingHeader 0) [3, 0] 0 []).srcCur.toNat + 3 ∧
    (decodingIn small (regs .readingHeader 0) [3, 0, 0] 0 []).srcCur.toNat + 3 ≤
      (decodingIn small (regs .readingHeader 0) [3, 0, 0] 0 []).inLen.toNat ∧
    (decodingIn small (regs .readingHeader 0) [3, 0, 0] 0 []).inByte 2 = 0x00#8 ∧
    (decodingIn small (regs .readingHeader 0) [3, 0, 1] 0 []).inByte 2 ≠ 0x00#8 := by decide

theorem witness_EndOfStream :
    (decodingIn small (regs .dispatchingToken 3) [3, 0, 0, 1] 3 []).engine = .decoding (regs .dispatchingToken 3) ∧
    (decodingIn small (regs .dispatchingToken 3) [3, 0, 0, 1] 3 []).srcCur.toNat = (regs .dispatchingToken 3).endAddr.toNat ∧
    (regs .dispatchingToken 3).endAddr.toNat < (decodingIn small (regs .dispatchingToken 3) [3, 0, 0, 1] 4 []).srcCur.toNat ∧
    (decodingIn small (regs .done 3) [3, 0, 0, 1] 3 []).engine = .decoding (regs .done 3) ∧
    (regs .done 3).dstate = .done := by decide

theorem witness_EmptyEscape :
    (blk [5, 0, 0]).engine = .idle ∧ (blk [5, 0, 0]).arg.toNat + 3 ≤ (blk [5, 0, 0]).inLen.toNat ∧
    (blk [5, 0, 0]).inByte ((blk [5, 0, 0]).arg.toNat + 2) = 0x00#8 := by decide

theorem witness_DecodeAlwaysEnds : (blk [5, 0, 1]).engine = .idle := by decide

theorem witness_CodecFrames :
    (∃ t, exec .decode (blk [3, 0, 0]) = .next t) ∧ (∃ t, exec .encode (blk [7]) = .next t) := by
  obtain ⟨t, h, -⟩ := of_nextWith (p := fun _ => True) (o := exec .decode (blk [3, 0, 0])) (by decide +kernel)
  obtain ⟨t', h', -⟩ := of_nextWith (p := fun _ => True) (o := exec .encode (blk [7])) (by decide +kernel)
  exact ⟨⟨t, h⟩, ⟨t', h'⟩⟩

theorem witness_CodecsAreTheirTransitions :
    (blk [3, 0, 0]).engine = .idle ∧ (blk [3, 0, 0]).arg.toNat ≤ (blk [3, 0, 0]).inLen.toNat ∧
    ({ blk [3, 0, 0] with arg := 3#32 } : State).arg.toNat ≤ (blk [3, 0, 0]).inLen.toNat ∧
    (loaded (roomFor 2) [7]).engine = .idle ∧ (loaded (roomFor 2) [7]).inLen.toNat ≠ 0 ∧
    2 ≤ (loaded (roomFor 2) [7]).cfg.outCap.toNat := by decide

/-- The stream of V-RLE1, and the same block with other bytes in OUT, WIN and RESULT. -/
def rle1 : State := blk [0x04, 0x00, 0x40, 0x09, 0x00]
def rle1' : State :=
  { rle1 with outMem := Memory.fillAll 5#8, outLen := 3#32, win := Memory.fillAll 6#8, result := 7#32, srcCur := 1#32 }

theorem witness_DecodeDependsOnItsInputAlone :
    rle1.engine = .idle ∧ rle1'.engine = .idle ∧ rle1.outMem.wf = true ∧ rle1'.outMem.wf = true ∧ SameBuffer rle1 rle1' ∧
    rle1'.arg = rle1.arg ∧ rle1'.cfg.outCap = rle1.cfg.outCap ∧ rle1'.cfg.rawLongMode = rle1.cfg.rawLongMode ∧
    (∃ t, exec .decode rle1 = .next t ∧ t.status = .done) ∧ (∃ t, exec .decode rle1' = .next t ∧ t.status = .done) :=
  ⟨rfl, rfl, rfl, rfl, ⟨rfl, fun _ _ => rfl⟩, rfl, rfl, rfl, of_nextWith (by decide +kernel), of_nextWith (by decide +kernel)⟩

/-- The stream of P1 as items. -/
def items1 : List Item :=
  [⟨.raws 4#5, [0x57, 0x58, 0x59, 0x5A]⟩, ⟨.rles 0#1 1#4 0x2E, []⟩, ⟨.lz 0#2 9#13, []⟩]
def stream1 : State := blk [0x0B, 0x00, 0x04, 0x57, 0x58, 0x59, 0x5A, 0x41, 0x2E, 0x80, 0x09, 0x00]

theorem witness_DecodeOfAStream :
    stream1.engine = .idle ∧ stream1.outMem.wf = true ∧ items1 ≠ [] ∧ Token.streamWf (items1.map Item.tok) = true ∧
    items1.all (Item.fits stream1.cfg.rawLongMode) = true ∧ declaredLength items1 ≤ 0xFFFF ∧
    stream1.arg.toNat + declaredLength items1 ≤ stream1.inLen.toNat ∧
    stream1.holdsAt stream1.arg.toNat (streamBytes items1) ∧
    stream1.closedAt (stream1.arg.toNat + declaredLength items1) items1 ∧
    applyItems items1 ([], 0) =
      some ([0x57, 0x58, 0x59, 0x5A, 0x2E, 0x2E, 0x2E, 0x2E, 0x2E, 0x57, 0x58, 0x59, 0x5A], 9) ∧
    13 ≤ stream1.cfg.outCap.toNat := by
  refine ⟨rfl, by decide, by decide, by decide, by decide, by decide, by decide, ?_, fun _ => by decide +kernel,
    by decide +kernel, by decide⟩
  show _ = _
  decide +kernel

theorem witness_RunDetector :
    0 < (blk [9, 9, 8]).inLen.toNat ∧ rleLen (blk [9, 9, 8]) 0 < min 4099 ((blk [9, 9, 8]).inLen.toNat - 0) ∧
    2 < (blk [9, 9, 8]).inLen.toNat := by decide +kernel

theorem witness_MatchFinder :
    (1 < (blk [1, 2, 3]).inLen.toNat ∧ min 0x1FFF 1 ≤ 1) ∧ (2 < (blk [1, 2, 3]).inLen.toNat ∧ 1 < min 0x1FFF 2) ∧
    (1 ≤ 1 ∧ 1 < min 0x1FFF 2) ∧ (1 ≤ 2 ∧ 2 ≤ 2) ∧ matchLen (blk [1, 2, 3]) 2 1 = (bestMatch (blk [1, 2, 3]) 2).1 := by
  decide +kernel

/-- One position for each case of the decision: a literal, a run of 4 that a match of 4 ties, a match of 4 over a run of 1. -/
theorem witness_EncoderPosition :
    (rleLen (encodingAt small [1] 0) 0 < 4 ∧ (bestMatch (encodingAt small [1] 0) 0).1 < 4 ∧
      ∃ u, (encodingAt small [1] 0).literal 1 = .ok u) ∧
    (4 ≤ rleLen (encodingAt small (List.replicate 9 5) 5) 5 ∧
      (bestMatch (encodingAt small (List.replicate 9 5) 5) 5).1 ≤ rleLen (encodingAt small (List.replicate 9 5) 5) 5 ∧
      ∃ u, (encodingAt small (List.replicate 9 5) 5).flushAndEmit (rleBytes 4 5) = .ok u) ∧
    (4 ≤ (bestMatch (encodingAt small [0, 1, 2, 3, 4, 0, 1, 2, 3, 4, 9] 6) 6).1 ∧
      rleLen (encodingAt small [0, 1, 2, 3, 4, 0, 1, 2, 3, 4, 9] 6) 6 <
        (bestMatch (encodingAt small [0, 1, 2, 3, 4, 0, 1, 2, 3, 4, 9] 6) 6).1 ∧
      ∃ u, (encodingAt small [0, 1, 2, 3, 4, 0, 1, 2, 3, 4, 9] 6).flushAndEmit (lzBytes 4 5) = .ok u) :=
  ⟨⟨by decide +kernel, by decide +kernel, of_succeeds (by decide +kernel)⟩,
    ⟨by decide +kernel, by decide +kernel, of_succeeds (by decide +kernel)⟩,
    ⟨by decide +kernel, by decide +kernel, of_succeeds (by decide +kernel)⟩⟩
/-- The same decisions with OUT full behind the header; a literal then fails with 255 literals pending in Byte8 mode. -/
theorem witness_EncoderPosition_errors :
    (let s : State := { encodingAt { roomFor 2 with rawLongMode := .byte8 } [1] 0 with winCur := 255#13 };
      rleLen s 0 < 4 ∧ (bestMatch s 0).1 < 4 ∧ s.literal 1 = .error .outputOverflow) ∧
    (let s := encodingAt (roomFor 2) (List.replicate 9 5) 5;
      4 ≤ rleLen s 5 ∧ (bestMatch s 5).1 ≤ rleLen s 5 ∧ s.flushAndEmit (rleBytes 4 5) = .error .outputOverflow) ∧
    (let s := encodingAt (roomFor 2) [0, 1, 2, 3, 4, 0, 1, 2, 3, 4, 9] 6;
      4 ≤ (bestMatch s 6).1 ∧ rleLen s 6 < (bestMatch s 6).1 ∧ s.flushAndEmit (lzBytes 4 5) = .error .outputOverflow) :=
  ⟨⟨by decide +kernel, by decide +kernel, of_overflows (by decide +kernel)⟩,
    ⟨by decide +kernel, by decide +kernel, of_overflows (by decide +kernel)⟩,
    ⟨by decide +kernel, by decide +kernel, of_overflows (by decide +kernel)⟩⟩

/-- The two bytes of a run behind a flush of nothing: they fit OUT exactly, or one of them does not; and a flush that fails. -/
theorem witness_EncoderPosition_behindFlush :
    (encodingAt (roomFor 4) [7] 0).outMem.wf = true ∧
    (encodingAt (roomFor 4) [7] 0).outLen.toNat ≤ (encodingAt (roomFor 4) [7] 0).cfg.outCap.toNat ∧
    (∃ v, (encodingAt (roomFor 4) [7] 0).flush = .ok v ∧ v.outLen.toNat + (rleBytes 4 5).length ≤ v.cfg.outCap.toNat) ∧
    (∃ v, (encodingAt (roomFor 3) [7] 0).flush = .ok v ∧ v.cfg.outCap.toNat < v.outLen.toNat + (rleBytes 4 5).length) ∧
    ({ encodingAt (roomFor 3) [7] 0 with winCur := 1#13 } : State).flush = .error .outputOverflow :=
  ⟨by decide, by decide, of_okWith (by decide +kernel), of_okWith (by decide +kernel), of_overflows (by decide +kernel)⟩

theorem witness_Flush :
    (blk []).outMem.wf = true ∧ (blk []).outLen.toNat ≤ (blk []).cfg.outCap.toNat ∧
    (let s : State := { blk [] with winCur := 62#13 };
      s.outLen.toNat + ((rawHead s.winCur.toNat).length + s.winCur.toNat) ≤ s.cfg.outCap.toNat) ∧
    (let s : State := { blk [] with winCur := 63#13 };
      s.cfg.outCap.toNat < s.outLen.toNat + ((rawHead s.winCur.toNat).length + s.winCur.toNat)) ∧
    (1 ≤ 31 ∧ 31 ≤ 31) ∧ (32 ≤ 8191 ∧ 8191 ≤ 8191) := by decide

theorem witness_LiteralAccumulator :
    (let s : State := { blk [] with winCur := 8190#13 }; s.win.wf = true ∧ s.winCur.toNat < s.cfg.rawMax) ∧
    (let s : State := { loaded { roomFor 257 with rawLongMode := .byte8 } [] with winCur := 255#13 };
      s.win.wf = true ∧ s.winCur.toNat = s.cfg.rawMax ∧ ∃ u, s.flush = .ok u) ∧
    (let s : State := { loaded { roomFor 256 with rawLongMode := .byte8 } [] with winCur := 255#13 };
      s.win.wf = true ∧ s.winCur.toNat = s.cfg.rawMax ∧ s.flush = .error .outputOverflow) :=
  ⟨⟨by decide, by decide⟩, ⟨by decide, by decide, of_succeeds (by decide +kernel)⟩,
    ⟨by decide, by decide, of_overflows (by decide +kernel)⟩⟩

theorem witness_EmitRle : (4 ≤ 19 ∧ 19 ≤ 4099 ∧ 19 ≤ 19) ∧ (4 ≤ 20 ∧ 20 ≤ 4099 ∧ 20 ≤ 20) := by decide

theorem witness_EmitLz : 4 ≤ 4 ∧ 1 ≤ 8191 ∧ 8191 ≤ 8191 := by decide

theorem witness_EncodeAlwaysEnds : (blk [1]).engine = .idle := by decide

theorem witness_EncodeEntry :
    (blk []).outMem.wf = true ∧ (blk []).inLen.toNat = 0 ∧
    ((loaded (roomFor 1) [7]).inLen.toNat ≠ 0 ∧ (loaded (roomFor 1) [7]).cfg.outCap.toNat < 2) ∧
    ((loaded (roomFor 2) [7]).inLen.toNat ≠ 0 ∧ 2 ≤ (loaded (roomFor 2) [7]).cfg.outCap.toNat) := by decide

theorem witness_EncoderFinish :
    (encodingAt (roomFor 2) [7] 1).engine = .encoding { EncoderRegs.enter with p := 1#32 } ∧
    (encodingAt (roomFor 2) [7] 1).inLen.toNat ≤ (1#32 : Word).toNat ∧
    ({ encodingAt (roomFor 2) [7] 1 with winCur := 1#13 } : State).flush = .error .outputOverflow ∧
    (∃ u, ({ encodingAt (roomFor 65536) [7] 1 with outLen := 65536#32 } : State).flush = .ok u ∧ 0xFFFF < u.outLen.toNat) ∧
    (∃ u, (encodingAt (roomFor 2) [7] 1).flush = .ok u ∧ u.outLen.toNat ≤ 0xFFFF ∧ u.outLen.toNat = u.cfg.outCap.toNat) ∧
    (∃ u, (encodingAt (roomFor 3) [7] 1).flush = .ok u ∧ 2 ≤ u.outLen.toNat ∧ u.outLen.toNat ≤ 0xFFFF ∧
      u.outLen.toNat < u.cfg.outCap.toNat ∧ u.outMem.wf = true) :=
  ⟨rfl, by decide, of_overflows (by decide +kernel), of_okWith (by decide +kernel), of_okWith (by decide +kernel),
    of_okWith (by decide +kernel)⟩

theorem witness_EncodeSuccess :
    (blk [1, 2, 3, 4, 5]).engine = .idle ∧ (blk [1, 2, 3, 4, 5]).outMem.wf = true ∧
    ∃ t, exec .encode (blk [1, 2, 3, 4, 5]) = .next t ∧ t.status = .done :=
  ⟨rfl, rfl, of_nextWith (by decide +kernel)⟩

theorem witness_EncodeCompletes :
    (let s := loaded (roomFor 6) [7];
      s.engine = .idle ∧ 1 ≤ s.inLen.toNat ∧ 3 * s.inLen.toNat + 2 ≤ 0xFFFF ∧
      3 * s.inLen.toNat + 3 ≤ s.cfg.outCap.toNat) ∧
    (let s : State := { loaded (roomFor 65535) [] with inLen := 21844#32 };
      s.engine = .idle ∧ 1 ≤ s.inLen.toNat ∧ 3 * s.inLen.toNat + 2 ≤ 0xFFFF ∧
      3 * s.inLen.toNat + 3 ≤ s.cfg.outCap.toNat) := by decide

theorem witness_EncodeOfOneByte :
    (loaded (roomFor 5) [7]).engine = .idle ∧ (loaded (roomFor 5) [7]).outMem.wf = true ∧
    (loaded (roomFor 5) [7]).inLen = 1#32 ∧ 5 ≤ (loaded (roomFor 5) [7]).cfg.outCap.toNat := by decide

/-- An input, and the same block with another FILL, ARG, cursor, window and OUT. -/
def in5 : State := blk [1, 2, 3, 4, 5]
def in5' : State :=
  { in5 with
    cfg := { small with fill := 0x55#8 }, arg := 9#32, srcCur := 3#32, winCur := 77#13, win := Memory.fillAll 1#8
    outMem := Memory.fillAll 2#8 }

theorem witness_EncodeDependsOnItsInputAlone :
    in5.engine = .idle ∧ in5'.engine = .idle ∧ in5.outMem.wf = true ∧ in5'.outMem.wf = true ∧ SameBuffer in5 in5' ∧
    in5'.cfg.outCap = in5.cfg.outCap ∧ in5'.cfg.rawLongMode = in5.cfg.rawLongMode ∧
    (∃ t, exec .encode in5 = .next t ∧ t.status = .done) ∧ (∃ t, exec .encode in5' = .next t ∧ t.status = .done) :=
  ⟨rfl, rfl, rfl, rfl, ⟨rfl, fun _ _ => rfl⟩, rfl, rfl, of_nextWith (by decide +kernel), of_nextWith (by decide +kernel)⟩

/-- S3: the output of ENCODE, loaded into another block. -/
def back5 : State := blk [0x08, 0x00, 0x05, 0x01, 0x02, 0x03, 0x04, 0x05, 0x00]

theorem witness_RoundTrip :
    in5.engine = .idle ∧ in5.outMem.wf = true ∧ back5.engine = .idle ∧ back5.outMem.wf = true ∧
    back5.cfg.rawLongMode = in5.cfg.rawLongMode ∧ in5.inLen.toNat ≤ back5.cfg.outCap.toNat ∧ back5.arg = 0#32 ∧
    ∃ t, exec .encode in5 = .next t ∧ t.status = .done ∧ back5.inLen = t.outLen ∧
      ∀ i, i < t.outLen.toNat → back5.inByte i = t.outByte i :=
  ⟨rfl, rfl, rfl, rfl, rfl, by decide, rfl, of_nextWith (by decide +kernel)⟩

theorem witness_RaiseError :
    RaisePoint.encodeRunning ≠ .command ∧ (RaisePoint.decodeEntry = .decodeEntry ∨ RaisePoint.decodeEntry = .encodeEntry) ∧
    (RaisePoint.encodeEntry = .decodeEntry ∨ RaisePoint.encodeEntry = .encodeEntry) := by decide

theorem witness_NoStepChangesAParameter : ∃ t, step (issue 7#32 (blk [])) = .next t :=
  ⟨_, rfl⟩

/-- A running DECODE that meets the invariant, and its step. -/
theorem witness_StepKeepsTheInvariant :
    let s := decodingIn small { regs .handlingLZC 2 with decl := 2#16, pos := 1#13 } [0x61, 0x00] 0 [0x41]
    s.Inv ∧ ∃ t, step s = .next t := by
  refine ⟨⟨?_, ?_, ?_, ?_⟩, ?_⟩
  · decide +kernel
  · decide +kernel
  · decide +kernel
  · decide +kernel
  · obtain ⟨t, h, -⟩ := of_nextWith (p := fun _ => True)
      (o := step (decodingIn small { regs .handlingLZC 2 with decl := 2#16, pos := 1#13 } [0x61, 0x00] 0 [0x41]))
      (by decide +kernel)
    exact ⟨t, h⟩

end Sys2Proof.Tests
end

section
/-! SUPPORT. The run of the machine behind Host/Core.lean follows the run of the command that stands in it; no instruction
changes what `State.SameInputs` names, by one frame lemma per operation, and no step changes the parameters. -/

namespace Sys2Proof.Machine

/-! ## The machine's run of a running command (R11; log 6) -/

theorem step_of_decoding {r : DecoderRegs} {s : State} (he : s.engine = .decoding r) : step s = decoderStep r s := by
  simp only [step, machineStep, he]

theorem step_of_encoding {r : EncoderRegs} {s : State} (he : s.engine = .encoding r) :
    step s = .next (encoderStep r s) := by
  simp only [step, machineStep, he]

theorem run_succ {s t : State} (n : Nat) (h : step s = .next t) :
    Host.Core.run Sys2Proof.core (n + 1) s = Host.Core.run Sys2Proof.core n t := by
  simp only [Host.Core.run, Sys2Proof.core, h]

/-- A run of a DECODE's transitions is a run of the machine. It may be shorter than n: where the command has ended, the machine's
next step would take a host action. -/
theorem run_eq_decoderRun (n : Nat) (s : State) : ∃ k, k ≤ n ∧ Host.Core.run Sys2Proof.core k s = decoderRun n s := by
  induction n generalizing s with
  | zero => exact ⟨0, Nat.le_refl 0, rfl⟩
  | succ n ih =>
    unfold decoderRun
    split
    next r he =>
      obtain ⟨t, ht⟩ := decoderStep_next he
      obtain ⟨k, hk, hrun⟩ := ih t
      refine ⟨k + 1, Nat.succ_le_succ hk, ?_⟩
      rw [run_succ k ((step_of_decoding he).trans ht), hrun, ht]
    next r he => exact ⟨0, Nat.zero_le _, rfl⟩
    next he => exact ⟨0, Nat.zero_le _, rfl⟩

/-- A run of an ENCODE's transitions is a run of the machine, as for DECODE. -/
theorem run_eq_encoderRun (n : Nat) (s : State) :
    ∃ k, k ≤ n ∧ Host.Core.run Sys2Proof.core k s = .next (encoderRun n s) := by
  induction n generalizing s with
  | zero => exact ⟨0, Nat.le_refl 0, rfl⟩
  | succ n ih =>
    unfold encoderRun
    split
    next r he =>
      obtain ⟨k, hk, hrun⟩ := ih (encoderStep r s)
      exact ⟨k + 1, Nat.succ_le_succ hk, (run_succ k (step_of_encoding he)).trans hrun⟩
    next r he => exact ⟨0, Nat.zero_le _, rfl⟩
    next he => exact ⟨0, Nat.zero_le _, rfl⟩

/-! ## The entries of the two commands -/

/-- Where the entry seek succeeds, DECODE is the run of its transitions (R131, R211). -/
theorem exec_decode_of_le {s : State} (h : s.arg.toNat ≤ s.inLen.toNat) :
    exec .decode s = decoderRun (decodeFuel s) (decodeEntry s) := by
  simp only [exec, execDecode, State.setCursor, if_pos h]

/-- Where the entry succeeds, ENCODE is the run of its transitions (R171, R212). -/
theorem exec_encode_of_entry {s u : State} (h : encodeEntry s = .ok u) :
    exec .encode s = .next (encoderRun (encodeFuel s) u) := by
  simp only [exec, execEncode, h]

/-- A list is appended where it fits, whatever OUT holds. -/
theorem State.appendAll_of_room {bs : List Byte} {s : State} (h : s.outLen.toNat + bs.length ≤ s.cfg.outCap.toNat) :
    ∃ t, s.appendAll bs = .ok t := by
  induction bs generalizing s with
  | nil => exact ⟨s, rfl⟩
  | cons b bs ih =>
    simp only [List.length_cons] at h
    have hlt : s.outLen.toNat < s.cfg.outCap.toNat := by omega
    have happ := State.outAppend_of_room b hlt
    have hlen : (s.outLen + 1#32).toNat + bs.length ≤ s.cfg.outCap.toNat := by rw [toNat_succ hlt]; omega
    obtain ⟨t, ht⟩ := ih (s := { s with outMem := s.outMem.write s.outLen.toNat b, outLen := s.outLen + 1#32 }) hlen
    exact ⟨t, by simp only [State.appendAll, happ, ht]⟩

/-- ENCODE enters where there is input and room for the header (R171). -/
theorem encodeEntry_of_room {s : State} (hin : s.inLen.toNat ≠ 0) (hcap : 2 ≤ s.cfg.outCap.toNat) :
    ∃ u, encodeEntry s = .ok u := by
  have hne : s.inLen ≠ 0#32 := fun h => hin (by rw [h]; rfl)
  obtain ⟨t, ht⟩ := State.appendAll_of_room (bs := [0x00#8, 0x00#8]) (s := { s with outLen := 0#32 })
    (by simpa using hcap)
  exact ⟨t.resetWindow.withEncoder EncoderRegs.enter, by simp only [encodeEntry, if_neg hne, ht]⟩

/-! ## Composing `State.SameInputs` -/

theorem State.SameInputs.refl (s : State) : s.SameInputs s := ⟨rfl, rfl, rfl, rfl, rfl, rfl⟩

theorem State.SameInputs.trans {s t u : State} (h : s.SameInputs t) (h' : t.SameInputs u) : s.SameInputs u where
  cfg := h'.cfg.trans h.cfg
  inMem := h'.inMem.trans h.inMem
  inLen := h'.inLen.trans h.inLen
  arg := h'.arg.trans h.arg
  pending := h'.pending.trans h.pending
  reply := h'.reply.trans h.reply

section
variable {s t : State}

theorem State.SameInputs.withDecoder (h : s.SameInputs t) (r : DecoderRegs) : s.SameInputs (t.withDecoder r) :=
  h.trans ⟨rfl, rfl, rfl, rfl, rfl, rfl⟩

theorem State.SameInputs.withEncoder (h : s.SameInputs t) (r : EncoderRegs) : s.SameInputs (t.withEncoder r) :=
  h.trans ⟨rfl, rfl, rfl, rfl, rfl, rfl⟩

theorem State.SameInputs.endCommand (h : s.SameInputs t) : s.SameInputs t.endCommand :=
  h.trans ⟨rfl, rfl, rfl, rfl, rfl, rfl⟩

theorem State.SameInputs.succeed (h : s.SameInputs t) : s.SameInputs t.succeed :=
  h.trans ⟨rfl, rfl, rfl, rfl, rfl, rfl⟩

theorem State.SameInputs.winAppend (h : s.SameInputs t) (b : Byte) : s.SameInputs (t.winAppend b) :=
  h.trans ⟨rfl, rfl, rfl, rfl, rfl, rfl⟩

end

theorem raiseError_sameInputs (e : ErrKind) (p : RaisePoint) (s : State) : s.SameInputs (raiseError e p s) where
  cfg := raiseError_cfg e p s
  inMem := raiseError_inMem e p s
  inLen := raiseError_inLen e p s
  arg := raiseError_arg e p s
  pending := raiseError_pending e p s
  reply := raiseError_reply e p s

theorem State.OutOnly.sameInputs {s t : State} (h : s.OutOnly t) : s.SameInputs t :=
  ⟨h.cfg, h.inMem, h.inLen, h.arg, h.pending, h.reply⟩

theorem Move.sameInputs {r r1 : DecoderRegs} {s s1 : State} (h : Move r s r1 s1) : s.SameInputs s1 := by
  constructor <;> rw [h.frame]

theorem EncMove.sameInputs {s s1 : State} (h : EncMove s s1) : s.SameInputs s1 := by
  constructor <;> rw [h.frame]

/-! ## DECODE leaves its inputs alone (R147) -/

theorem Transition.sameInputs {r : DecoderRegs} {s t : State} {o : Host.Outcome State Fault Refusal}
    (h : Transition r s o) (ho : o = .next t) : s.SameInputs t := by
  cases h with
  | goesOn r1 s1 hg => cases ho; exact hg.move.sameInputs.withDecoder r1
  | fails r1 s1 e hm _ _ =>
    cases ho
    exact (hm.sameInputs.withDecoder r1).trans (raiseError_sameInputs e .decodeRunning _)
  | succeeds _ => cases ho; exact (State.SameInputs.refl s).succeed.endCommand
  | ends _ => cases ho; exact (State.SameInputs.refl s).endCommand

theorem decoderStep_sameInputs {r : DecoderRegs} {s t : State} (he : s.engine = .decoding r)
    (h : decoderStep r s = .next t) : s.SameInputs t :=
  (decoderStep_transition he).sameInputs h

theorem decoderRun_sameInputs {n : Nat} {s t : State} (h : decoderRun n s = .next t) : s.SameInputs t := by
  obtain ⟨u, hu, hsame⟩ := decoderRun_keeps (P := s.SameInputs)
    (fun r v w he hv hw => hv.trans (decoderStep_sameInputs he hw)) n (.refl s)
  rw [h] at hu
  cases hu
  exact hsame

theorem execDecode_sameInputs {s t : State} (h : execDecode s = .next t) : s.SameInputs t := by
  unfold execDecode at h
  split at h
  · cases h; exact raiseError_sameInputs _ _ s
  · have hentry : s.SameInputs (decodeEntry s) := ⟨rfl, rfl, rfl, rfl, rfl, rfl⟩
    exact hentry.trans (decoderRun_sameInputs h)

/-! ## ENCODE leaves its inputs alone (R191), however many literals are pending -/

theorem State.literal_sameInputs {s t : State} {b : Byte} (h : s.literal b = .ok t) : s.SameInputs t := by
  unfold State.literal at h
  split at h
  · split at h
    next s1 hflush =>
      cases h
      obtain ⟨hmove, -⟩ := State.flush_ok hflush
      exact hmove.sameInputs.winAppend b
    next => cases h
  · cases h; exact (State.SameInputs.refl s).winAppend b

theorem encodeAt_sameInputs {s t : State} {p : Nat} (h : encodeAt p s = .ok t) : s.SameInputs t := by
  unfold encodeAt at h
  split at h
  · exact State.literal_sameInputs h
  · exact (State.flushAndEmit_ok h).sameInputs
  · exact (State.flushAndEmit_ok h).sameInputs

theorem State.encodeFinish_sameInputs {s t : State} (h : s.encodeFinish = .ok t) : s.SameInputs t := by
  obtain ⟨hframe, -, -, -⟩ := State.encodeFinish_ok h
  constructor <;> rw [hframe]

theorem encoderStep_sameInputs (r : EncoderRegs) (s : State) : s.SameInputs (encoderStep r s) := by
  unfold encoderStep
  split
  · split
    next s1 hat => exact (encodeAt_sameInputs hat).withEncoder _
    next => exact raiseError_sameInputs _ _ s
  · split
    next s1 hfin => exact (State.encodeFinish_sameInputs hfin).succeed.endCommand
    next => exact raiseError_sameInputs _ _ s

theorem encoderRun_sameInputs (n : Nat) (s : State) : s.SameInputs (encoderRun n s) :=
  encoderRun_keeps (P := s.SameInputs) (fun r u _ hu => hu.trans (encoderStep_sameInputs r u)) n (.refl s)

theorem encodeEntry_sameInputs {s u : State} (h : encodeEntry s = .ok u) : s.SameInputs u := by
  obtain ⟨-, hframe⟩ := encodeEntry_ok h
  constructor <;> rw [hframe]

theorem execEncode_sameInputs {s t : State} (h : execEncode s = .next t) : s.SameInputs t := by
  unfold execEncode at h
  split at h
  · cases h; exact raiseError_sameInputs _ _ s
  · cases h; exact (encodeEntry_sameInputs ‹_›).trans (encoderRun_sameInputs _ _)

/-! ## Every instruction leaves the inputs alone -/

theorem State.inHandler_eq_some {d : DState} {s : State} {r : DecoderRegs} (h : s.inHandler d = some r) :
    s.engine = .decoding r ∧ r.dstate = d := by
  unfold State.inHandler at h
  split at h
  · split at h
    · cases h; exact ⟨‹_›, ‹_›⟩
    · cases h
  · cases h
  · cases h

/-- A token answers a next state in its handling state only (R130; log 8). -/
theorem runToken_inHandler {tok : Token} {s t : State} (h : runToken tok s = .next t) :
    ∃ r, s.engine = .decoding r ∧ r.dstate = handlerState tok := by
  cases hin : s.inHandler (handlerState tok) with
  | some r => exact ⟨r, State.inHandler_eq_some hin⟩
  | none =>
    cases tok <;> simp only [handlerState] at hin <;>
      simp [runToken, execLz, execLzc, execRles, execRlel, execRaws, execRawl, hin] at h

theorem runToken_sameInputs {tok : Token} {s t : State} (h : runToken tok s = .next t) : s.SameInputs t := by
  obtain ⟨r, he, hd⟩ := runToken_inHandler h
  rcases runToken_cases he hd with ⟨r1, s1, hrun, hmove, -⟩ | ⟨r1, e, hrun, -, -⟩
  · rw [hrun] at h
    cases h
    exact hmove.sameInputs.withDecoder r1
  · rw [hrun] at h
    cases h
    exact ((State.SameInputs.refl s).withDecoder r1).trans (raiseError_sameInputs e .decodeRunning _)

theorem exec_toInstr (tok : Token) (s : State) : exec tok.toInstr s = runToken tok s := by
  cases tok <;> rfl

theorem execSrcSeek_sameInputs {s t : State} (h : execSrcSeek s = .next t) : s.SameInputs t := by
  unfold execSrcSeek State.setCursor at h
  by_cases hle : s.arg.toNat ≤ s.inLen.toNat
  · rw [if_pos hle] at h
    cases h
    exact ⟨rfl, rfl, rfl, rfl, rfl, rfl⟩
  · rw [if_neg hle] at h
    cases h
    exact raiseError_sameInputs .outOfBounds .command s

/-- A port read that succeeds only moves the cursor (R53). -/
theorem State.portRead_eq_some {s t : State} {n : Nat} {bs : List Byte} (h : s.portRead n = some (bs, t)) :
    t = s.advance n := by
  unfold State.portRead at h
  split at h
  · cases h; rfl
  · cases h

theorem State.portReadOf_eq_some {s t : State} {w : Width} {e : Endian} {v : Word} (h : s.portReadOf w e = some (v, t)) :
    ∃ n, t = s.advance n := by
  cases w with
  | w8 =>
    simp only [State.portReadOf] at h
    split at h
    · obtain ⟨-, -, ht⟩ := State.readU8_eq_some ‹_›
      cases h
      exact ⟨1, ht⟩
    · cases h
  | w16 =>
    simp only [State.portReadOf, State.readU16] at h
    split at h
    · cases h; exact ⟨2, State.portRead_eq_some ‹_›⟩
    · cases h
  | w32 =>
    simp only [State.portReadOf, State.readU32] at h
    split at h
    · cases h; exact ⟨4, State.portRead_eq_some ‹_›⟩
    · cases h
  | reserved => cases h

theorem execSrcRead_sameInputs {w : Width} {e : Endian} {s t : State} (h : execSrcRead w e s = .next t) :
    s.SameInputs t := by
  unfold execSrcRead at h
  split at h
  · cases h; exact raiseError_sameInputs .badCommand .command s
  · split at h
    · obtain ⟨n, rfl⟩ := State.portReadOf_eq_some ‹_›
      cases h
      exact ⟨rfl, rfl, rfl, rfl, rfl, rfl⟩
    · cases h; exact raiseError_sameInputs .outOfBounds .command s

/-- No instruction changes the parameters, the input, ARG, or the host's actions and reply. -/
theorem exec_sameInputs {i : Instr} {s t : State} (h : exec i s = .next t) : s.SameInputs t := by
  cases i with
  | lz c pos => exact runToken_sameInputs ((exec_toInstr (.lz c pos) s).symm.trans h)
  | lzc k => exact runToken_sameInputs ((exec_toInstr (.lzc k) s).symm.trans h)
  | rles x n v => exact runToken_sameInputs ((exec_toInstr (.rles x n v) s).symm.trans h)
  | rlel x n v => exact runToken_sameInputs ((exec_toInstr (.rlel x n v) s).symm.trans h)
  | raws l => exact runToken_sameInputs ((exec_toInstr (.raws l) s).symm.trans h)
  | rawl lh ll => exact runToken_sameInputs ((exec_toInstr (.rawl lh ll) s).symm.trans h)
  | decode => exact execDecode_sameInputs h
  | encode => exact execEncode_sameInputs h
  | srcSeek => exact execSrcSeek_sameInputs h
  | srcRead w e => exact execSrcRead_sameInputs h
  | winAppend => cases h; exact ((State.SameInputs.refl s).winAppend _).succeed
  | winGet => cases h; exact ⟨rfl, rfl, rfl, rfl, rfl, rfl⟩
  | winFill => cases h; exact ⟨rfl, rfl, rfl, rfl, rfl, rfl⟩
  | winSeek => cases h; exact ⟨rfl, rfl, rfl, rfl, rfl, rfl⟩

/-! ## The host's actions change no parameter (R6) -/

theorem issueCommand_sameInputs {w : Word} {s t : State} (h : issueCommand w s = .next t) : s.SameInputs t := by
  unfold issueCommand at h
  split at h
  · exact exec_sameInputs h
  · cases h; exact raiseError_sameInputs .badCommand .command s

@[simp] theorem State.loadIn_cfg (a : Word) (v : Byte) (s : State) : (s.loadIn a v).cfg = s.cfg := by
  unfold State.loadIn
  split <;> rfl

@[simp] theorem State.writeInLen_cfg (w : Word) (s : State) : (s.writeInLen w).cfg = s.cfg := by
  unfold State.writeInLen
  split <;> rfl

@[simp] theorem State.readOutAt_cfg (i : Word) (s : State) : (s.readOutAt i).cfg = s.cfg := by
  unfold State.readOutAt
  split <;> rfl

theorem writeRegister_cfg {index : Nat} {w : Word} {s t : State} (h : writeRegister index w s = .next t) :
    t.cfg = s.cfg := by
  unfold writeRegister at h
  split at h
  · cases h; exact State.writeInLen_cfg w s
  · cases h; rfl
  · exact (issueCommand_sameInputs h).cfg
  · cases h; rfl

theorem hostStep_cfg {a : HostAction} {s t : State} (h : hostStep a s = .next t) : t.cfg = s.cfg := by
  cases a with
  | loadIn a v => cases h; exact State.loadIn_cfg a v s
  | writeReg index w => exact writeRegister_cfg h
  | readReg index => cases h; rfl
  | readOut i => cases h; exact State.readOutAt_cfg i s
  | reset => cases h; rfl

theorem step_cfg {s t : State} (h : step s = .next t) : t.cfg = s.cfg := by
  unfold step machineStep at h
  split at h
  · exact (decoderStep_sameInputs ‹_› h).cfg
  · cases h; exact (encoderStep_sameInputs _ s).cfg
  · split at h
    · cases h; rfl
    · exact (hostStep_cfg h).trans (State.takeAction_cfg _ s)

/-! ## The obligations -/

/-- Settles O39: behind its entry either command is the run of its transitions with its fuel, and the machine makes that run
in at most as many steps. -/
theorem codecsAreTheirTransitions : Obligations.CodecsAreTheirTransitions := by
  unfold Obligations.CodecsAreTheirTransitions
  refine ⟨fun s _ harg => ?_, fun s _ hin hcap => ?_⟩
  · rw [exec_decode_of_le harg]
    exact run_eq_decoderRun (decodeFuel s) (decodeEntry s)
  · obtain ⟨u, hu⟩ := encodeEntry_of_room hin hcap
    obtain ⟨k, hk, hrun⟩ := run_eq_encoderRun (encodeFuel s) u
    exact ⟨u, k, hu, hk, hrun.trans (exec_encode_of_entry hu).symm⟩

/-- Settles O58: transitions and instructions leave the inputs of a command alone, the parameters among them; the host's
other actions write other fields, and a reset takes the parameters over. -/
theorem noStepChangesAParameter : Obligations.NoStepChangesAParameter := by
  unfold Obligations.NoStepChangesAParameter
  exact fun _ _ h => step_cfg h

end Sys2Proof.Machine
end

section
/-! SUPPORT. Every step keeps the invariant: what each operation keeps of the block between commands (`State.BlockOk`), and how
the registers of a running command fit it behind each transition. -/

namespace Sys2Proof.Machine

/-! ## Memories within their capacity -/

/-- A memory in canonical form that lists addresses below `cap` only, over a background already drawn. -/
structure Memory.Within (m : Memory) (cap draws : Nat) : Prop where
  wf : m.wf = true
  below : cellsBelow cap m.cells = true
  drawn : m.background.drawn draws = true

theorem Memory.Within.write {m : Memory} {cap draws a : Nat} (h : m.Within cap draws) (ha : a < cap) (b : Byte) :
    (m.write a b).Within cap draws :=
  ⟨Memory.wf_write h.wf a b, Memory.below_write h.below ha, by rw [Memory.write_background]; exact h.drawn⟩

theorem Memory.Within.mono {m : Memory} {cap d d' : Nat} (h : m.Within cap d) (hd : d ≤ d') : m.Within cap d' :=
  ⟨h.wf, h.below, Background.drawn_mono h.drawn hd⟩

theorem Memory.within_unwritten {cap d draws : Nat} (hd : d < draws) : (Memory.unwritten d).Within cap draws :=
  ⟨Memory.wf_unwritten d, rfl, decide_eq_true hd⟩

theorem Memory.within_fillAll (v : Byte) (cap draws : Nat) : (Memory.fillAll v).Within cap draws :=
  ⟨Memory.wf_fillAll v, rfl, rfl⟩

/-! ## The block and the registers of the running command -/

/-- The invariant without the registers of a running command. -/
structure State.BlockOk (s : State) : Prop where
  inMem : s.inMem.Within s.cfg.inCap.toNat s.draws
  outMem : s.outMem.Within s.cfg.outCap.toNat s.draws
  win : s.win.Within Config.winSize s.draws
  inLen : s.inLen.toNat ≤ s.cfg.inCap.toNat
  srcCur : s.srcCur.toNat ≤ s.cfg.inCap.toNat
  outLen : s.outLen.toNat ≤ s.cfg.outCap.toNat
  code : s.codeOk = true

theorem State.inv_iff_blockOk {s : State} : s.Inv ↔ s.BlockOk ∧ s.engineOk = true := by
  rw [State.inv_iff]
  constructor
  · rintro ⟨hin, hout, hwin, hlen, hcur, hcode, heng⟩
    exact ⟨⟨⟨hin.wf, hin.below, hin.drawn⟩, ⟨hout.wf, hout.below, hout.drawn⟩, ⟨hwin.wf, hwin.below, hwin.drawn⟩, hlen,
      hcur, hout.len, hcode⟩, heng⟩
  · rintro ⟨h, heng⟩
    exact ⟨⟨h.inMem.wf, h.inMem.below, h.inMem.drawn⟩, ⟨h.outMem.wf, h.outMem.below, h.outLen, h.outMem.drawn⟩,
      ⟨h.win.wf, h.win.below, h.win.drawn⟩, h.inLen, h.srcCur, h.code, heng⟩

/-- The registers of a running ENCODE fit its state: the clauses of `encoderOk`. -/
structure State.EncoderFits (s : State) (r : EncoderRegs) : Prop where
  position : r.p.toNat ≤ s.inLen.toNat
  input : 1 ≤ s.inLen.toNat
  pending : s.winCur.toNat ≤ s.cfg.rawMax
  header : 2 ≤ s.outLen.toNat

theorem State.encoderOk_iff_fits {s : State} {r : EncoderRegs} : s.encoderOk r = true ↔ s.EncoderFits r := by
  rw [State.encoderOk_iff]
  exact ⟨fun ⟨hp, hin, hw, ho⟩ => ⟨hp, hin, hw, ho⟩, fun h => ⟨h.position, h.input, h.pending, h.header⟩⟩

section
variable {s t : State}

theorem State.inv_iff_of_idle (he : s.engine = .idle) : s.Inv ↔ s.BlockOk := by
  simp only [State.inv_iff_blockOk, State.engineOk, he, and_true]

theorem State.BlockOk.inv (h : s.BlockOk) (he : s.engine = .idle) : s.Inv := (State.inv_iff_of_idle he).mpr h

theorem State.inv_iff_of_decoding {r : DecoderRegs} (he : s.engine = .decoding r) :
    s.Inv ↔ s.BlockOk ∧ s.DecoderFits r := by
  simp only [State.inv_iff_blockOk, State.engineOk, he, State.decoderOk_iff]

theorem State.inv_iff_of_encoding {r : EncoderRegs} (he : s.engine = .encoding r) :
    s.Inv ↔ s.BlockOk ∧ s.EncoderFits r := by
  simp only [State.inv_iff_blockOk, State.engineOk, he, State.encoderOk_iff_fits]

/-! ## What each operation keeps of the block -/

theorem State.BlockOk.outOk (h : s.BlockOk) : s.OutOk := ⟨h.outMem.wf, h.outMem.below, h.outLen, h.outMem.drawn⟩

theorem State.BlockOk.winOk (h : s.BlockOk) (hw : s.winCur.toNat ≤ s.cfg.rawMax) : s.WinOk :=
  ⟨h.win.wf, h.win.below, hw, h.win.drawn⟩

theorem State.OutOk.within (h : s.OutOk) : s.outMem.Within s.cfg.outCap.toNat s.draws := ⟨h.wf, h.below, h.drawn⟩

theorem State.WinOk.within (h : s.WinOk) : s.win.Within Config.winSize s.draws := ⟨h.wf, h.below, h.drawn⟩

theorem State.BlockOk.succeed (h : s.BlockOk) : s.succeed.BlockOk := { h with code := rfl }

theorem State.BlockOk.failWith (h : s.BlockOk) (e : ErrKind) : (s.failWith e).BlockOk := { h with code := rfl }

theorem State.BlockOk.withEngine (h : s.BlockOk) (g : Engine) : ({ s with engine := g } : State).BlockOk := { h with }

theorem State.BlockOk.withResult (h : s.BlockOk) (v : Word) : ({ s with result := v } : State).BlockOk := { h with }

theorem State.BlockOk.withReply (h : s.BlockOk) (v : Option Word) : ({ s with reply := v } : State).BlockOk := { h with }

theorem State.BlockOk.withArg (h : s.BlockOk) (v : Word) : ({ s with arg := v } : State).BlockOk := { h with }

theorem State.BlockOk.takeAction (h : s.BlockOk) (rest : List HostAction) : (s.takeAction rest).BlockOk := { h with }

theorem State.BlockOk.withSrcCur (h : s.BlockOk) {a : Word} (ha : a.toNat ≤ s.inLen.toNat) :
    ({ s with srcCur := a } : State).BlockOk :=
  { h with srcCur := Nat.le_trans ha h.inLen }

theorem State.BlockOk.winAppend (h : s.BlockOk) (b : Byte) : (s.winAppend b).BlockOk :=
  { h with win := h.win.write s.winCur.isLt b }

theorem State.BlockOk.winFill (h : s.BlockOk) (v : Byte) : (s.winFill v).BlockOk :=
  { h with win := Memory.within_fillAll v _ _ }

theorem State.BlockOk.winSeek (h : s.BlockOk) (c : Nat) : (s.winSeek c).BlockOk := { h with }

/-- Draws taken later leave the block as it is. -/
theorem State.BlockOk.withDraws (h : s.BlockOk) {n : Nat} (hn : s.draws ≤ n) : ({ s with draws := n } : State).BlockOk :=
  { h with inMem := h.inMem.mono hn, outMem := h.outMem.mono hn, win := h.win.mono hn }

theorem State.BlockOk.dropOut (h : s.BlockOk) : s.dropOut.BlockOk :=
  { h.withDraws (Nat.le_succ s.draws) with
    outMem := Memory.within_unwritten (Nat.lt_succ_self s.draws), outLen := Nat.zero_le _ }

theorem State.BlockOk.freeCursor (h : s.BlockOk) : s.freeCursor.BlockOk :=
  (h.withDraws (Nat.le_succ s.draws)).withSrcCur s.freeCursor_le

theorem State.BlockOk.freeWindow (h : s.BlockOk) : s.freeWindow.BlockOk :=
  { h.withDraws (Nat.le_add_right s.draws 2) with win := Memory.within_unwritten (by simp) }

/-- An error keeps the block, wherever it is raised (R245). -/
theorem State.BlockOk.raiseError (h : s.BlockOk) (e : ErrKind) (p : RaisePoint) : (raiseError e p s).BlockOk := by
  cases p with
  | command => exact h.failWith e
  | decodeEntry => exact (h.failWith e).dropOut
  | decodeRunning => exact ((h.failWith e).dropOut.freeCursor).withEngine _
  | encodeEntry => exact (h.failWith e).dropOut
  | encodeRunning => exact ((h.failWith e).dropOut.freeWindow).withEngine _

/-! ## DECODE -/

theorem Move.blockOk {r r1 : DecoderRegs} (hm : Move r s r1 t) (h : s.BlockOk) (hcur : s.srcCur.toNat ≤ s.inLen.toNat) :
    t.BlockOk := by
  have hout := hm.outOk h.outOk
  have hin := hm.inside hcur
  rw [hm.frame] at hout ⊢
  exact { h with outMem := hout.within, outLen := hout.len, srcCur := Nat.le_trans hin h.inLen }

/-- A DECODE that has failed does not go on. -/
theorem GoesOn.not_failed {r r1 : DecoderRegs} (hg : GoesOn r s r1 t) : r.dstate ≠ .failed := fun hd => by
  have hone : Machine.decodeLeft r s = 1 := by simp only [Machine.decodeLeft, hd]
  have hleft := hg.left
  have hpos := decodeLeft_pos r1 t
  omega

/-- Behind a transition that goes on the registers fit again: END is as the header set it, and a position is usable where the
continuation test comes next (R132, R137). -/
theorem GoesOn.decoderFits {r r1 : DecoderRegs} (hg : GoesOn r s r1 t) (hb : s.BlockOk) (hf : s.DecoderFits r) :
    (t.withDecoder r1).DecoderFits r1 where
  cursor := by
    rw [State.withDecoder_srcCur, State.withDecoder_inLen, hg.move.inLen]
    exact hg.move.inside hf.cursor
  base := by
    rw [State.withDecoder_inLen, hg.move.inLen, hg.move.base]
    exact hf.base
  header hd := absurd hd hg.running.1
  endOf _ _ := by
    rw [hg.move.base]
    by_cases hd : r.dstate = .readingHeader
    · exact hg.endOf.1 hd
    · obtain ⟨hend, hdecl⟩ := hg.endOf.2 hd
      rw [hend, hdecl]
      exact hf.endOf hd hg.not_failed
  position hd := hg.position hd hb.outOk hf.position
  failed hd := absurd hd hg.running.2

/-- A DECODE that fails stands in Failed, its cursor inside the input (R245). -/
theorem raiseError_decoderFits {r : DecoderRegs} (e : ErrKind) (hbase : r.base.toNat ≤ s.inLen.toNat) :
    (raiseError e .decodeRunning s).DecoderFits { r with dstate := .failed } where
  cursor := ((s.failWith e).dropOut).freeCursor_le
  base := hbase
  header hd := by cases hd
  endOf _ hd := absurd rfl hd
  position hd := by cases hd
  failed _ := ⟨rfl, rfl⟩

theorem decoderStep_inv {r : DecoderRegs} (he : s.engine = .decoding r) (hinv : s.Inv) (h : decoderStep r s = .next t) :
    t.Inv := by
  obtain ⟨hb, hf⟩ := (State.inv_iff_of_decoding he).mp hinv
  have htr := decoderStep_transition he
  generalize decoderStep r s = o at h htr
  cases htr with
  | goesOn r1 s1 hg =>
    cases h
    exact (State.inv_iff_of_decoding rfl).mpr ⟨(hg.move.blockOk hb hf.cursor).withEngine _, hg.decoderFits hb hf⟩
  | fails r1 s1 e hm _ _ =>
    cases h
    have hbase : r1.base.toNat ≤ s1.inLen.toNat := by rw [hm.inLen, hm.base]; exact hf.base
    exact (State.inv_iff_of_decoding rfl).mpr
      ⟨((hm.blockOk hb hf.cursor).withEngine _).raiseError e .decodeRunning, raiseError_decoderFits e hbase⟩
  | succeeds _ =>
    cases h
    exact (hb.succeed.withEngine _).inv rfl
  | ends _ =>
    cases h
    exact (hb.withEngine _).inv rfl

/-- The entry of DECODE: SRC_CUR and BASE are ARG, OUT_LEN is 0 (R131). -/
theorem decodeEntry_inv (hb : s.BlockOk) (harg : s.arg.toNat ≤ s.inLen.toNat) : (decodeEntry s).Inv := by
  have hblock : (decodeEntry s).BlockOk := { hb.withSrcCur harg with outLen := Nat.zero_le _ }
  refine (State.inv_iff_of_decoding rfl).mpr ⟨hblock, harg, harg, fun _ => ⟨rfl, rfl⟩, fun hd => absurd rfl hd, ?_, ?_⟩
  · intro hd; cases hd
  · intro hd; cases hd

theorem execDecode_inv (hb : s.BlockOk) (he : s.engine = .idle) (h : execDecode s = .next t) : t.Inv := by
  by_cases harg : s.arg.toNat ≤ s.inLen.toNat
  · obtain ⟨u, hu, hinv⟩ := decoderRun_keeps (P := State.Inv) (fun _ _ _ he hs hstep => decoderStep_inv he hs hstep)
      (decodeFuel s) (decodeEntry_inv hb harg)
    rw [show execDecode s = .next u from (exec_decode_of_le harg).trans hu] at h
    cases h
    exact hinv
  · rw [execDecode, State.setCursor, if_neg harg] at h
    cases h
    exact (hb.raiseError .outOfBounds .decodeEntry).inv he

/-! ## ENCODE -/

/-- What changes OUT and the window only, and leaves both in order, keeps the block. -/
theorem State.BlockOk.of_outOk_winOk (h : s.BlockOk)
    (hframe : t = { s with outMem := t.outMem, outLen := t.outLen, win := t.win, winCur := t.winCur })
    (hout : t.OutOk) (hwin : t.WinOk) : t.BlockOk := by
  rw [hframe] at hout hwin ⊢
  exact { h with outMem := hout.within, outLen := hout.len, win := hwin.within }

theorem EncMove.blockOk (hm : EncMove s t) (h : s.BlockOk) (hw : s.winCur.toNat ≤ s.cfg.rawMax) : t.BlockOk :=
  h.of_outOk_winOk hm.frame (hm.outOk h.outOk) (hm.winOk (h.winOk hw))

theorem State.encodeFinish_blockOk (hfin : s.encodeFinish = .ok t) (h : s.BlockOk) (hw : s.winCur.toNat ≤ s.cfg.rawMax)
    (h2 : 2 ≤ s.outLen.toNat) : t.BlockOk := by
  obtain ⟨hframe, hout, hwin, -⟩ := State.encodeFinish_ok hfin
  exact h.of_outOk_winOk hframe (hout h.outOk h2) (hwin (h.winOk hw))

theorem encoderStep_inv {r : EncoderRegs} (he : s.engine = .encoding r) (hinv : s.Inv) : (encoderStep r s).Inv := by
  obtain ⟨hb, hf⟩ := (State.inv_iff_of_encoding he).mp hinv
  rcases encoderStep_cases (r := r) hf.pending with ⟨-, r1, s1, hstep, hm, -, hp⟩ | ⟨-, s1, hfin, hstep⟩ | ⟨e, hstep, -⟩
  · have hlen := hm.sameInputs.inLen
    rw [hstep]
    refine (State.inv_iff_of_encoding rfl).mpr ⟨(hm.blockOk hb hf.pending).withEngine _, ?_, ?_, ?_, ?_⟩
    · rwa [State.withEncoder_inLen, hlen]
    · rw [State.withEncoder_inLen, hlen]; exact hf.input
    · exact (hm.winOk (hb.winOk hf.pending)).pending
    · exact Nat.le_trans hf.header (hm.grows hb.outOk)
  · rw [hstep]
    exact ((State.encodeFinish_blockOk hfin hb hf.pending hf.header).succeed.withEngine _).inv rfl
  · rw [hstep]
    have hidle : (raiseError e .encodeRunning s).engine = .idle := by simp only [Machine.raiseError, he, Engine.fail]
    exact (hb.raiseError e .encodeRunning).inv hidle

theorem State.appendAll_outLen {bs : List Byte} (ho : s.OutOk) (h : s.appendAll bs = .ok t) :
    t.outLen.toNat = s.outLen.toNat + bs.length := by
  by_cases hfit : s.outLen.toNat + bs.length ≤ s.cfg.outCap.toNat
  · obtain ⟨u, hu, happ, -⟩ := State.appendAll_spec ho.wf hfit
    rw [h] at hu
    cases hu
    exact happ.length
  · rw [State.appendAll_overflow ho.len (by omega)] at h
    cases h

/-- The entry of ENCODE: the header's two bytes stand in OUT and no literal is pending (R171). -/
theorem encodeEntry_inv (hb : s.BlockOk) (h : encodeEntry s = .ok t) : t.Inv := by
  unfold encodeEntry at h
  split at h
  · cases h
  next hne =>
    split at h
    · cases h
    next s1 happ =>
      cases h
      have hstart : ({ s with outLen := 0#32 } : State).BlockOk := { hb with outLen := Nat.zero_le _ }
      have hsame := State.appendAll_outOnly happ
      have hout := hstart.outOk.appendAll happ
      have hlen := State.appendAll_outLen hstart.outOk happ
      have hblock : s1.BlockOk := by
        rw [hsame.same] at hout ⊢
        exact { hb with outMem := hout.within, outLen := hout.len }
      refine (State.inv_iff_of_encoding rfl).mpr ⟨((hblock.winFill _).winSeek 0).withEngine _, Nat.zero_le _, ?_,
        Nat.zero_le _, ?_⟩
      · show 1 ≤ s1.inLen.toNat
        rw [hsame.inLen]
        exact Nat.one_le_iff_ne_zero.mpr fun hz => hne (BitVec.eq_of_toNat_eq hz)
      · show 2 ≤ s1.outLen.toNat
        rw [hlen]
        exact Nat.le_add_left 2 _

theorem execEncode_inv (hb : s.BlockOk) (he : s.engine = .idle) (h : execEncode s = .next t) : t.Inv := by
  unfold execEncode at h
  split at h
  next e _ =>
    cases h
    exact (hb.raiseError e .encodeEntry).inv he
  next u hu =>
    cases h
    exact encoderRun_keeps (fun _ _ he hs => encoderStep_inv he hs) _ (encodeEntry_inv hb hu)

/-! ## The commands of the port -/

theorem execSrcSeek_inv (hb : s.BlockOk) (he : s.engine = .idle) (h : execSrcSeek s = .next t) : t.Inv := by
  by_cases harg : s.arg.toNat ≤ s.inLen.toNat
  · rw [execSrcSeek, State.setCursor, if_pos harg] at h
    cases h
    exact (hb.withSrcCur harg).succeed.inv he
  · rw [execSrcSeek, State.setCursor, if_neg harg] at h
    cases h
    exact (hb.raiseError .outOfBounds .command).inv he

/-- A port read that succeeds leaves the cursor inside the input (R53). -/
theorem State.portRead_srcCur_le {n : Nat} {bs : List Byte} (h : s.portRead n = some (bs, t)) :
    t.srcCur.toNat ≤ s.inLen.toNat := by
  obtain rfl := State.portRead_eq_some h
  by_cases hle : s.srcCur.toNat + n ≤ s.inLen.toNat
  · rw [State.advance_srcCur_toNat hle]
    exact hle
  · rw [State.portRead_of_gt (by omega)] at h
    cases h

theorem State.portReadOf_srcCur_le {w : Width} {e : Endian} {v : Word} (h : s.portReadOf w e = some (v, t)) :
    t.srcCur.toNat ≤ s.inLen.toNat := by
  cases w with
  | w8 =>
    simp only [State.portReadOf] at h
    split at h
    · cases h
      obtain ⟨hlt, -, rfl⟩ := State.readU8_eq_some ‹_›
      rw [State.advance_srcCur_toNat hlt]
      exact hlt
    · cases h
  | w16 =>
    simp only [State.portReadOf, State.readU16] at h
    split at h
    · cases h; exact State.portRead_srcCur_le ‹_›
    · cases h
  | w32 =>
    simp only [State.portReadOf, State.readU32] at h
    split at h
    · cases h; exact State.portRead_srcCur_le ‹_›
    · cases h
  | reserved => cases h

theorem execSrcRead_inv {w : Width} {e : Endian} (hb : s.BlockOk) (he : s.engine = .idle)
    (h : execSrcRead w e s = .next t) : t.Inv := by
  unfold execSrcRead at h
  split at h
  · cases h
    exact (hb.raiseError .badCommand .command).inv he
  · split at h
    next v s1 hread =>
      have hcur := State.portReadOf_srcCur_le hread
      obtain ⟨n, rfl⟩ := State.portReadOf_eq_some hread
      cases h
      exact ((hb.withSrcCur hcur).withResult v).succeed.inv he
    next =>
      cases h
      exact (hb.raiseError .outOfBounds .command).inv he

/-! ## Every instruction of an idle block -/

/-- Where no command runs, no token has a meaning (log 8). -/
theorem runToken_of_idle (tok : Token) (he : s.engine = .idle) : runToken tok s ≠ .next t := fun h => by
  obtain ⟨r, hr, -⟩ := runToken_inHandler h
  rw [he] at hr
  cases hr

theorem exec_inv {i : Instr} (hb : s.BlockOk) (he : s.engine = .idle) (h : exec i s = .next t) : t.Inv := by
  cases i with
  | lz c pos => exact absurd h (runToken_of_idle (.lz c pos) he)
  | lzc k => exact absurd h (runToken_of_idle (.lzc k) he)
  | rles x n v => exact absurd h (runToken_of_idle (.rles x n v) he)
  | rlel x n v => exact absurd h (runToken_of_idle (.rlel x n v) he)
  | raws l => exact absurd h (runToken_of_idle (.raws l) he)
  | rawl lh ll => exact absurd h (runToken_of_idle (.rawl lh ll) he)
  | decode => exact execDecode_inv hb he h
  | encode => exact execEncode_inv hb he h
  | srcSeek => exact execSrcSeek_inv hb he h
  | srcRead w e => exact execSrcRead_inv hb he h
  | winAppend => cases h; exact (hb.winAppend _).succeed.inv he
  | winGet => cases h; exact (hb.withResult _).succeed.inv he
  | winFill => cases h; exact (hb.winFill _).succeed.inv he
  | winSeek => cases h; exact (hb.winSeek _).succeed.inv he

/-! ## The host's actions -/

theorem State.BlockOk.loadIn (h : s.BlockOk) (a : Word) (v : Byte) : (s.loadIn a v).BlockOk := by
  unfold State.loadIn
  split
  · exact { h with inMem := h.inMem.write ‹_› v }
  · exact h

theorem State.BlockOk.writeInLen (h : s.BlockOk) (w : Word) : (s.writeInLen w).BlockOk := by
  unfold State.writeInLen
  split
  · exact { h with inLen := ‹_› }
  · exact h

theorem State.BlockOk.readOutAt (h : s.BlockOk) (i : Word) : (s.readOutAt i).BlockOk := by
  unfold State.readOutAt
  split
  · exact h.withReply _
  · exact (h.withDraws (Nat.le_succ s.draws)).withReply _

@[simp] theorem State.loadIn_engine (a : Word) (v : Byte) (s : State) : (s.loadIn a v).engine = s.engine := by
  unfold State.loadIn
  split <;> rfl

@[simp] theorem State.writeInLen_engine (w : Word) (s : State) : (s.writeInLen w).engine = s.engine := by
  unfold State.writeInLen
  split <;> rfl

@[simp] theorem State.readOutAt_engine (i : Word) (s : State) : (s.readOutAt i).engine = s.engine := by
  unfold State.readOutAt
  split <;> rfl

theorem State.resetWith_blockOk (c : Config) (d : Nat) (todo : List HostAction) : (State.resetWith c d todo).BlockOk where
  inMem := Memory.within_unwritten (Nat.lt_add_of_pos_right (by decide))
  outMem := Memory.within_unwritten (Nat.add_lt_add_left (by decide) d)
  win := Memory.within_unwritten (Nat.add_lt_add_left (by decide) d)
  inLen := Nat.zero_le _
  srcCur := Nat.zero_le _
  outLen := Nat.zero_le _
  code := rfl

theorem State.resetWith_inv (c : Config) (d : Nat) (todo : List HostAction) : (State.resetWith c d todo).Inv :=
  (State.resetWith_blockOk c d todo).inv rfl

theorem issueCommand_inv {w : Word} (hb : s.BlockOk) (he : s.engine = .idle) (h : issueCommand w s = .next t) :
    t.Inv := by
  unfold issueCommand at h
  split at h
  · exact exec_inv hb he h
  · cases h
    exact (hb.raiseError .badCommand .command).inv he

theorem writeRegister_inv {index : Nat} {w : Word} (hb : s.BlockOk) (he : s.engine = .idle)
    (h : writeRegister index w s = .next t) : t.Inv := by
  unfold writeRegister at h
  split at h
  · cases h
    exact (hb.writeInLen w).inv ((State.writeInLen_engine w s).trans he)
  · cases h
    exact (hb.withArg w).inv he
  · exact issueCommand_inv hb he h
  · cases h
    exact hb.inv he

theorem hostStep_inv {a : HostAction} (hb : s.BlockOk) (he : s.engine = .idle) (h : hostStep a s = .next t) : t.Inv := by
  cases a with
  | loadIn a v =>
    cases h
    exact (hb.loadIn a v).inv ((State.loadIn_engine a v s).trans he)
  | writeReg index w => exact writeRegister_inv hb he h
  | readReg index =>
    cases h
    exact (hb.withReply _).inv he
  | readOut i =>
    cases h
    exact (hb.readOutAt i).inv ((State.readOutAt_engine i s).trans he)
  | reset =>
    cases h
    exact State.resetWith_inv _ _ _

theorem step_inv (hinv : s.Inv) (h : step s = .next t) : t.Inv := by
  unfold step machineStep at h
  split at h
  next r he => exact decoderStep_inv he hinv h
  next r he =>
    cases h
    exact encoderStep_inv he hinv
  next he =>
    split at h
    · cases h
      exact hinv
    · exact hostStep_inv (((State.inv_iff_of_idle he).mp hinv).takeAction _) he h

end

/-! ## The obligations of the invariant -/

/-- Settles O59: a running command's transition keeps the block and lets its registers fit it again; an idle block takes a host
action, and a command runs from its entry by such transitions. -/
theorem stepKeepsTheInvariant : Obligations.StepKeepsTheInvariant := by
  unfold Obligations.StepKeepsTheInvariant
  exact fun _ _ hinv h => step_inv hinv h

/-- Settles O60: no cell is listed, every register is 0, and no command runs. -/
theorem resetMeetsTheInvariant : Obligations.ResetMeetsTheInvariant := by
  unfold Obligations.ResetMeetsTheInvariant
  exact State.resetWith_inv

end Sys2Proof.Machine
end

section
/-! SUPPORT. The encodings as numbers (30_encoding.md R83 to R102): the bits of a byte or word by division and remainder, what
the decoder reads at each control byte and command word, and what number each control byte of the encoder is. -/

namespace Sys2Proof.Machine

/-! ## Bits as numbers -/

theorem toNat_append_eq_mul_add {m n : Nat} (x : BitVec m) (y : BitVec n) :
    (x ++ y).toNat = x.toNat * 2 ^ n + y.toNat := by
  rw [BitVec.toNat_append, ← Nat.shiftLeft_add_eq_or_of_lt y.isLt, Nat.shiftLeft_eq]

theorem toNat_extractLsb'_eq_div_mod {w : Nat} (i n : Nat) (x : BitVec w) :
    (x.extractLsb' i n).toNat = x.toNat / 2 ^ i % 2 ^ n := by
  rw [BitVec.extractLsb'_toNat, Nat.shiftRight_eq_div_pow]

theorem getLsbD_eq_decide {w : Nat} (x : BitVec w) (i : Nat) :
    x.getLsbD i = decide (x.toNat / 2 ^ i % 2 = 1) := by
  rw [BitVec.getLsbD, Nat.testBit_eq_decide_div_mod_eq]

/-! ## What the decoder reads at a control byte (R83 to R90) -/

section
variable {c : Byte}

theorem classOf_eq_lz (h : 0x80 ≤ c.toNat) : classOf c = .lz := by
  have h7 : c.getLsbD 7 = true := by rw [getLsbD_eq_decide, decide_eq_true_eq]; omega
  rw [classOf, if_pos h7]

theorem classOf_eq_rle (h : 0x40 ≤ c.toNat) (h' : c.toNat < 0x80) : classOf c = .rle := by
  have h7 : ¬ c.getLsbD 7 = true := by rw [getLsbD_eq_decide, decide_eq_true_eq]; omega
  have h6 : c.getLsbD 6 = true := by rw [getLsbD_eq_decide, decide_eq_true_eq]; omega
  rw [classOf, if_neg h7, if_pos h6]

theorem classOf_eq_raw (h : c.toNat < 0x40) : classOf c = .raw := by
  have h7 : ¬ c.getLsbD 7 = true := by rw [getLsbD_eq_decide, decide_eq_true_eq]; omega
  have h6 : ¬ c.getLsbD 6 = true := by rw [getLsbD_eq_decide, decide_eq_true_eq]; omega
  rw [classOf, if_neg h7, if_neg h6]

theorem isContinuation_iff : isContinuation c = true ↔ 0x60 ≤ c.toNat ∧ c.toNat < 0x80 := by
  rw [isContinuation, beq_iff_eq, ← BitVec.toNat_inj, toNat_extractLsb'_eq_div_mod, BitVec.toNat_ofNat]
  omega

theorem decodeToken_lz (h : 0x80 ≤ c.toNat) (pl : Byte) (rest : List Byte) :
    decodeToken .dispatch (c :: pl :: rest) = .ok (.lz (c.extractLsb' 5 2) (c.extractLsb' 0 5 ++ pl), rest) := by
  simp only [decodeToken, decodeAtDispatch, classOf_eq_lz h, decodeLz]

theorem decodeToken_rles (h : 0x40 ≤ c.toNat) (h' : c.toNat < 0x80) (h4 : c.toNat / 16 % 2 = 0) (v : Byte)
    (rest : List Byte) :
    decodeToken .dispatch (c :: v :: rest) = .ok (.rles (c.extractLsb' 5 1) (c.extractLsb' 0 4) v, rest) := by
  have hbit : ¬ c.getLsbD 4 = true := by rw [getLsbD_eq_decide, decide_eq_true_eq]; omega
  simp only [decodeToken, decodeAtDispatch, classOf_eq_rle h h', decodeRle, if_neg hbit]

theorem decodeToken_rlel (h : 0x40 ≤ c.toNat) (h' : c.toNat < 0x80) (h4 : c.toNat / 16 % 2 = 1) (nl v : Byte)
    (rest : List Byte) :
    decodeToken .dispatch (c :: nl :: v :: rest) =
      .ok (.rlel (c.extractLsb' 5 1) (c.extractLsb' 0 4 ++ nl) v, rest) := by
  have hbit : c.getLsbD 4 = true := by rw [getLsbD_eq_decide, decide_eq_true_eq]; omega
  simp only [decodeToken, decodeAtDispatch, classOf_eq_rle h h', decodeRle, if_pos hbit]

theorem decodeToken_raws (h : c.toNat < 0x20) (rest : List Byte) :
    decodeToken .dispatch (c :: rest) = .ok (.raws (c.extractLsb' 0 5), rest) := by
  have hbit : ¬ c.getLsbD 5 = true := by rw [getLsbD_eq_decide, decide_eq_true_eq]; omega
  simp only [decodeToken, decodeAtDispatch, classOf_eq_raw (Nat.lt_trans h (by decide)), decodeRaw, if_neg hbit]

theorem decodeToken_rawl (h : 0x20 ≤ c.toNat) (h' : c.toNat < 0x40) (ll : Byte) (rest : List Byte) :
    decodeToken .dispatch (c :: ll :: rest) = .ok (.rawl (c.extractLsb' 0 5) ll, rest) := by
  have hbit : c.getLsbD 5 = true := by rw [getLsbD_eq_decide, decide_eq_true_eq]; omega
  simp only [decodeToken, decodeAtDispatch, classOf_eq_raw h', decodeRaw, if_pos hbit]

theorem decodeToken_lzc (h : 0x60 ≤ c.toNat) (h' : c.toNat < 0x80) (rest : List Byte) :
    decodeToken .continuation (c :: rest) = .ok (.lzc (c.extractLsb' 0 5), rest) := by
  simp only [decodeToken, if_pos (isContinuation_iff.mpr ⟨h, h'⟩)]

theorem decodeToken_notContinuation (h : c.toNat < 0x60 ∨ 0x80 ≤ c.toNat) (rest : List Byte) :
    decodeToken .continuation (c :: rest) = .error .notContinuation := by
  have hc : ¬ isContinuation c = true := by rw [isContinuation_iff]; omega
  simp only [decodeToken, if_neg hc]

end

/-- A token read at dispatch is one that the decoder recognises there (R84). -/
theorem decodeToken_dispatch_context {bs rest : List Byte} {t : Token}
    (h : decodeToken .dispatch bs = .ok (t, rest)) : t.context = .dispatch := by
  cases bs with
  | nil => cases h
  | cons c bs => exact (decodeAtDispatch_ok h).2.2

/-! ## The control bytes the encoder writes (R85 to R90) -/

/-- The control byte 1CCPPPPP of an LZ token (R85). -/
def lzControlByte (k : BitVec 2) (ph : BitVec 5) : Byte := 1#1 ++ k ++ ph

/-- The control byte 01XSNNNN of an RLE token, S telling the long form (R87, R88). -/
def rleControlByte (x long : BitVec 1) (n : BitVec 4) : Byte := 0b01#2 ++ x ++ long ++ n

/-- A control byte of a three-bit tag and five bits: LZC 011, RAWS 000, RAWL 001 (R86, R89, R90). -/
def taggedControlByte (tag : BitVec 3) (low : BitVec 5) : Byte := tag ++ low

theorem encodeToken_lz (k : BitVec 2) (pos : BitVec 13) :
    encodeToken (.lz k pos) = [lzControlByte k (pos.extractLsb' 8 5), pos.extractLsb' 0 8] := rfl
theorem encodeToken_lzc (k : BitVec 5) : encodeToken (.lzc k) = [taggedControlByte 0b011#3 k] := rfl
theorem encodeToken_rles (x : BitVec 1) (n : BitVec 4) (v : Byte) :
    encodeToken (.rles x n v) = [rleControlByte x 0#1 n, v] := rfl
theorem encodeToken_rlel (x : BitVec 1) (n : BitVec 12) (v : Byte) :
    encodeToken (.rlel x n v) = [rleControlByte x 1#1 (n.extractLsb' 8 4), n.extractLsb' 0 8, v] := rfl
theorem encodeToken_raws (l : BitVec 5) : encodeToken (.raws l) = [taggedControlByte 0b000#3 l] := rfl
theorem encodeToken_rawl (lh : BitVec 5) (ll : Byte) :
    encodeToken (.rawl lh ll) = [taggedControlByte 0b001#3 lh, ll] := rfl

theorem lzControlByte_toNat (k : BitVec 2) (ph : BitVec 5) :
    (lzControlByte k ph).toNat = 0x80 + k.toNat * 0x20 + ph.toNat := by
  rw [lzControlByte, toNat_append_eq_mul_add, toNat_append_eq_mul_add, BitVec.toNat_ofNat]
  omega

theorem rleControlByte_toNat (x long : BitVec 1) (n : BitVec 4) :
    (rleControlByte x long n).toNat = 0x40 + x.toNat * 0x20 + long.toNat * 0x10 + n.toNat := by
  rw [rleControlByte, toNat_append_eq_mul_add, toNat_append_eq_mul_add, toNat_append_eq_mul_add, BitVec.toNat_ofNat]
  omega

theorem taggedControlByte_toNat (tag : BitVec 3) (low : BitVec 5) :
    (taggedControlByte tag low).toNat = tag.toNat * 0x20 + low.toNat := toNat_append_eq_mul_add tag low

theorem lzControlByte_fields (k : BitVec 2) (ph : BitVec 5) :
    (lzControlByte k ph).extractLsb' 5 2 = k ∧ (lzControlByte k ph).extractLsb' 0 5 = ph := by
  constructor <;> apply BitVec.eq_of_toNat_eq <;> rw [toNat_extractLsb'_eq_div_mod, lzControlByte_toNat] <;> omega

theorem rleControlByte_fields (x long : BitVec 1) (n : BitVec 4) :
    (rleControlByte x long n).extractLsb' 5 1 = x ∧ (rleControlByte x long n).extractLsb' 0 4 = n := by
  constructor <;> apply BitVec.eq_of_toNat_eq <;> rw [toNat_extractLsb'_eq_div_mod, rleControlByte_toNat] <;> omega

theorem taggedControlByte_low (tag : BitVec 3) (low : BitVec 5) : (taggedControlByte tag low).extractLsb' 0 5 = low := by
  apply BitVec.eq_of_toNat_eq
  rw [toNat_extractLsb'_eq_div_mod, taggedControlByte_toNat]
  omega

/-- A field of n bits is its high bits before its low byte. -/
theorem extractLsb'_append_lowByte {n : Nat} (x : BitVec (n + 8)) : x.extractLsb' 8 n ++ x.extractLsb' 0 8 = x := by
  rw [BitVec.extractLsb'_append_extractLsb'_eq_extractLsb' (by rfl), BitVec.extractLsb'_eq_self]

/-! ## Command words (R100 to R102) -/

theorem opCode_toNat (w : Word) : (w.extractLsb' 0 4).toNat = w.toNat % 16 := by
  rw [toNat_extractLsb'_eq_div_mod]
  omega

theorem widthOf_code_toNat (w : Word) : (widthOf w).code.toNat = w.toNat / 32 % 4 := by
  have hw : (w.extractLsb' 5 2).toNat = w.toNat / 32 % 4 := toNat_extractLsb'_eq_div_mod 5 2 w
  rw [← hw, widthOf]
  generalize w.extractLsb' 5 2 = code
  revert code
  decide

theorem endianOf_code_toNat (w : Word) : (endianOf w).code.toNat = w.toNat / 16 % 2 := by
  rw [endianOf, getLsbD_eq_decide]
  split
  next h => exact (of_decide_eq_true h).symm
  next h => rw [decide_eq_true_eq] at h; exact (Nat.mod_two_ne_one.mp h).symm

theorem decodeCommand_reserved {w : Word} (h : w.toNat % 16 = 0 ∨ 9 ≤ w.toNat % 16) :
    decodeCommand w = .error (.reservedCommand (w.extractLsb' 0 4)) := by
  have hop := opCode_toNat w
  unfold decodeCommand
  split
  case h_9 => rfl
  all_goals omega

/-- The bits above bit 6 are ignored (R100). -/
theorem decodeCommand_congr {w w' : Word} (h : w'.toNat % 128 = w.toNat % 128) : decodeCommand w' = decodeCommand w := by
  have hop : w'.extractLsb' 0 4 = w.extractLsb' 0 4 := by
    apply BitVec.eq_of_toNat_eq
    rw [opCode_toNat, opCode_toNat]
    omega
  have hwidth : w'.extractLsb' 5 2 = w.extractLsb' 5 2 := by
    apply BitVec.eq_of_toNat_eq
    rw [toNat_extractLsb'_eq_div_mod, toNat_extractLsb'_eq_div_mod]
    omega
  have hendian : w'.getLsbD 4 = w.getLsbD 4 := by
    rw [getLsbD_eq_decide, getLsbD_eq_decide, decide_eq_decide]
    omega
  simp only [decodeCommand, widthOf, endianOf, hop, hwidth, hendian]

/-! ## The bytes of a token and the word of a command are read back -/

theorem decodeToken_encodeToken (t : Token) (rest : List Byte) :
    decodeToken t.context (encodeToken t ++ rest) = .ok (t, rest) := by
  cases t with
  | lz k pos =>
    have hc := lzControlByte_toNat k (pos.extractLsb' 8 5)
    obtain ⟨hk, hp⟩ := lzControlByte_fields k (pos.extractLsb' 8 5)
    rw [encodeToken_lz]
    exact (decodeToken_lz (by omega) _ rest).trans (by rw [hk, hp, extractLsb'_append_lowByte])
  | lzc k =>
    have hc := taggedControlByte_toNat 0b011#3 k
    rw [BitVec.toNat_ofNat] at hc
    rw [encodeToken_lzc]
    exact (decodeToken_lzc (by omega) (by omega) rest).trans (by rw [taggedControlByte_low])
  | rles x n v =>
    have hc := rleControlByte_toNat x 0#1 n
    rw [BitVec.toNat_ofNat] at hc
    obtain ⟨hx, hn⟩ := rleControlByte_fields x 0#1 n
    rw [encodeToken_rles]
    exact (decodeToken_rles (by omega) (by omega) (by omega) v rest).trans (by rw [hx, hn])
  | rlel x n v =>
    have hc := rleControlByte_toNat x 1#1 (n.extractLsb' 8 4)
    rw [BitVec.toNat_ofNat] at hc
    obtain ⟨hx, hn⟩ := rleControlByte_fields x 1#1 (n.extractLsb' 8 4)
    rw [encodeToken_rlel]
    exact (decodeToken_rlel (by omega) (by omega) (by omega) _ v rest).trans
      (by rw [hx, hn, extractLsb'_append_lowByte])
  | raws l =>
    have hc := taggedControlByte_toNat 0b000#3 l
    rw [BitVec.toNat_ofNat] at hc
    rw [encodeToken_raws]
    exact (decodeToken_raws (by omega) rest).trans (by rw [taggedControlByte_low])
  | rawl lh ll =>
    have hc := taggedControlByte_toNat 0b001#3 lh
    rw [BitVec.toNat_ofNat] at hc
    rw [encodeToken_rawl]
    exact (decodeToken_rawl (by omega) (by omega) ll rest).trans (by rw [taggedControlByte_low])

theorem decode_stream_encodeToken (t : Token) :
    decode (.stream t.context (encodeToken t)) = .ok (t.toInstr, []) := by
  have h := decodeToken_encodeToken t []
  rw [List.append_nil] at h
  rw [decode, h]

theorem decode_command_of_ok {w : Word} {i : Instr} (h : decodeCommand w = .ok i) :
    decode (.command w) = .ok (i, []) := by
  rw [decode, h]

theorem decodeCommand_srcRead (w : Width) (e : Endian) :
    decodeCommand (0#25 ++ w.code ++ e.code ++ 4#4) = .ok (.srcRead w e) := by
  cases w <;> cases e <;> decide

theorem decode_encode (i : Instr) : decode (encode i) = .ok (i, []) := by
  cases i with
  | lz k pos => exact decode_stream_encodeToken (.lz k pos)
  | lzc k => exact decode_stream_encodeToken (.lzc k)
  | rles x n v => exact decode_stream_encodeToken (.rles x n v)
  | rlel x n v => exact decode_stream_encodeToken (.rlel x n v)
  | raws l => exact decode_stream_encodeToken (.raws l)
  | rawl lh ll => exact decode_stream_encodeToken (.rawl lh ll)
  | srcRead w e => exact decode_command_of_ok (decodeCommand_srcRead w e)
  | decode | encode | srcSeek | winAppend | winGet | winFill | winSeek => exact decode_command_of_ok (by decide)

/-! ## The continuation test (R84, R96) -/

theorem toNat_eq_zero_of_fits {x : BitVec 1} (h : (!(true && x == 1#1)) = true) : x.toNat = 0 := by
  revert x
  decide

/-- A token that fits after LZ or LZC and is no LZC opens with a byte outside 0x60..0x7F. -/
theorem decodeToken_continuation_encodeToken {t : Token} (hfit : t.fitsAfter true = true) (hctx : t.context = .dispatch)
    (rest : List Byte) : decodeToken .continuation (encodeToken t ++ rest) = .error .notContinuation := by
  cases t with
  | lz k pos =>
    have hc := lzControlByte_toNat k (pos.extractLsb' 8 5)
    rw [encodeToken_lz]
    exact decodeToken_notContinuation (by omega) _
  | lzc k => cases hctx
  | rles x n v =>
    have hc := rleControlByte_toNat x 0#1 n
    rw [toNat_eq_zero_of_fits hfit, BitVec.toNat_ofNat] at hc
    rw [encodeToken_rles]
    exact decodeToken_notContinuation (by omega) _
  | rlel x n v =>
    have hc := rleControlByte_toNat x 1#1 (n.extractLsb' 8 4)
    rw [toNat_eq_zero_of_fits hfit, BitVec.toNat_ofNat] at hc
    rw [encodeToken_rlel]
    exact decodeToken_notContinuation (by omega) _
  | raws l =>
    have hc := taggedControlByte_toNat 0b000#3 l
    rw [BitVec.toNat_ofNat] at hc
    rw [encodeToken_raws]
    exact decodeToken_notContinuation (by omega) _
  | rawl lh ll =>
    have hc := taggedControlByte_toNat 0b001#3 lh
    rw [BitVec.toNat_ofNat] at hc
    rw [encodeToken_rawl]
    exact decodeToken_notContinuation (by omega) _

/-- An RLE control byte with bit 5 set is an LZC byte whose K is the byte's form bit before its count bits. -/
theorem decodeToken_continuation_rleControlByte (long : BitVec 1) (n : BitVec 4) (rest : List Byte) :
    ∃ k, k.toNat = long.toNat * 0x10 + n.toNat ∧
      decodeToken .continuation (rleControlByte 1#1 long n :: rest) = .ok (.lzc k, rest) := by
  have hc := rleControlByte_toNat 1#1 long n
  rw [BitVec.toNat_ofNat] at hc
  refine ⟨_, ?_, decodeToken_lzc (by omega) (by omega) rest⟩
  rw [toNat_extractLsb'_eq_div_mod, hc]
  omega

/-! ## The rotation of R91 -/

/-- Rotated left by three, bits 6:5 are bits 1:0, and the bits that the mask clears stay clear. -/
theorem rotateLeft_maskedCount (c : Byte) : (c &&& 0x60#8).rotateLeft 3 = (c.extractLsb' 5 2).setWidth 8 := by
  apply BitVec.eq_of_getLsbD_eq
  intro i hi
  rw [BitVec.getLsbD_rotateLeft, BitVec.getLsbD_and, BitVec.getLsbD_and]
  interval_cases i <;> simp

/-! ## The obligations -/

/-- Settles O3: each control byte the encoder writes lies in the range in which the decoder reads its format, and its fields are
the bits that were put in. -/
theorem decodeInvertsEncode : Obligations.DecodeInvertsEncode := by
  unfold Obligations.DecodeInvertsEncode
  exact ⟨fun i _ => decode_encode i, decodeToken_encodeToken⟩

/-- Settles O1: the five ranges of the control byte are the conditions under which the decoder reads its five formats. -/
theorem tokenFormats : Obligations.TokenFormats := by
  unfold Obligations.TokenFormats
  intro c b1 b2 rest
  refine ⟨fun h => ?lz, fun h h' h4 => ?rles, fun h h' h4 => ?rlel, fun h => ?raws, fun h h' => ?rawl⟩
  case lz =>
    refine ⟨_, _, decodeToken_lz h b1 _, classOf_eq_lz h, toNat_extractLsb'_eq_div_mod 5 2 c, ?_⟩
    rw [toNat_append_eq_mul_add, toNat_extractLsb'_eq_div_mod]
    omega
  case rles =>
    refine ⟨_, _, decodeToken_rles h h' h4 b1 _, classOf_eq_rle h h', ?_⟩
    rw [toNat_extractLsb'_eq_div_mod]
    omega
  case rlel =>
    refine ⟨_, _, decodeToken_rlel h h' h4 b1 b2 _, classOf_eq_rle h h', ?_⟩
    rw [toNat_append_eq_mul_add, toNat_extractLsb'_eq_div_mod]
    omega
  case raws =>
    refine ⟨_, decodeToken_raws h _, classOf_eq_raw (by omega), ?_⟩
    rw [toNat_extractLsb'_eq_div_mod]
    omega
  case rawl =>
    refine ⟨_, decodeToken_rawl h h' b1 _, classOf_eq_raw h', ?_⟩
    rw [toNat_extractLsb'_eq_div_mod]
    omega

/-- Settles O4: the first byte alone decides, by whether it lies in 0x60..0x7F. -/
theorem tokensAtTheContinuationTest : Obligations.TokensAtTheContinuationTest := by
  unfold Obligations.TokensAtTheContinuationTest
  refine ⟨fun t rest hfit hctx => decodeToken_continuation_encodeToken hfit hctx rest, fun n v rest => ?_,
    fun n v rest => ?_⟩
  · obtain ⟨k, hk, h⟩ := decodeToken_continuation_rleControlByte 0#1 n (v :: rest)
    rw [BitVec.toNat_ofNat] at hk
    exact ⟨k, by omega, h⟩
  · obtain ⟨k, hk, h⟩ := decodeToken_continuation_rleControlByte 1#1 (n.extractLsb' 8 4) (n.setWidth 8 :: v :: rest)
    rw [BitVec.toNat_ofNat, toNat_extractLsb'_eq_div_mod] at hk
    refine ⟨k, by omega, ?_⟩
    rw [encodeToken_rlel, ← BitVec.setWidth_eq_extractLsb' (by decide)]
    exact h

/-- Settles O5: the decoder's match is on OP, and W and E are read by their own bits. -/
theorem commandWords : Obligations.CommandWords := by
  unfold Obligations.CommandWords
  intro w
  have hop := opCode_toNat w
  refine ⟨fun h => ?_, fun h => ?_, fun h => ?_,
    fun h => ⟨_, _, ?_, widthOf_code_toNat w, endianOf_code_toNat w⟩,
    fun h => ?_, fun h => ?_, fun h => ?_, fun h => ?_,
    fun h => ⟨_, decodeCommand_reserved h, hop⟩, fun w' h => decodeCommand_congr h⟩
  all_goals simp only [decodeCommand, hop, h]

/-- Settles O2: a token read at dispatch has the dispatch context, which no LZC has. -/
theorem continuationBytes : Obligations.ContinuationBytes := by
  unfold Obligations.ContinuationBytes
  refine ⟨fun b rest h h' => ⟨_, decodeToken_lzc h h' rest, ?_⟩, fun b rest h => decodeToken_notContinuation h rest,
    fun bs rest k h => ?_⟩
  · rw [toNat_extractLsb'_eq_div_mod]
    omega
  · exact Context.noConfusion (decodeToken_dispatch_context h)

/-- Settles O7: the rotation moves bits 6:5 to bits 1:0. -/
theorem lzCountFormula : Obligations.LzCountFormula := by
  unfold Obligations.LzCountFormula
  intro c
  constructor
  · rw [lzCountOfControl, lzCount, rotateLeft_maskedCount, BitVec.toNat_setWidth_of_le (by decide)]
  · rw [lzCount, toNat_extractLsb'_eq_div_mod]
    rfl

/-- Settles O6: each line is a closed computation of the decoder. -/
theorem sampleWordsDecode : Obligations.SampleWordsDecode := by
  unfold Obligations.SampleWordsDecode
  decide

end Sys2Proof.Machine
end

section
/-! SUPPORT. The window under a list of appends (40_window.md R111, R115): where the cursor stands, which cells hold the
appended bytes, and which cells keep theirs. -/

namespace Sys2Proof.Machine

/-! ## One append -/

theorem State.winAppend_winCur_toNat (b : Byte) (s : State) :
    (s.winAppend b).winCur.toNat = (s.winCur.toNat + 1) % 8192 := by
  rw [State.winAppend_winCur, BitVec.toNat_add]
  rfl

theorem State.winAppend_win_wf {s : State} (h : s.win.wf = true) (b : Byte) : (s.winAppend b).win.wf = true :=
  Memory.wf_write h _ b

theorem State.winAppend_win_read {s : State} (h : s.win.wf = true) (b : Byte) (x : Nat) :
    (s.winAppend b).win.read x = if x = s.winCur.toNat then b else s.win.read x :=
  Memory.read_write h _ x b

/-- Cell j from the cursor behind an append is cell j + 1 from the cursor before it. -/
theorem State.winAppend_cell (b : Byte) (s : State) (j : Nat) :
    ((s.winAppend b).winCur.toNat + j) % 8192 = (s.winCur.toNat + (j + 1)) % 8192 := by
  rw [State.winAppend_winCur_toNat]
  omega

/-! ## A list of appends -/

theorem State.winCur_foldl_winAppend (s : State) (bs : List Byte) :
    (bs.foldl (fun u b => u.winAppend b) s).winCur.toNat = (s.winCur.toNat + bs.length) % 8192 := by
  induction bs generalizing s with
  | nil => exact (Nat.mod_eq_of_lt s.winCur.isLt).symm
  | cons b bs ih => rw [List.foldl_cons, ih, State.winAppend_cell, List.length_cons]

/-- A cell that no append meets reads as before, whatever their number. -/
theorem State.read_foldl_winAppend_of_ne {s : State} {bs : List Byte} {x : Nat} (h : s.win.wf = true)
    (hx : ∀ j, j < bs.length → x ≠ (s.winCur.toNat + j) % 8192) :
    (bs.foldl (fun u b => u.winAppend b) s).win.read x = s.win.read x := by
  induction bs generalizing s with
  | nil => rfl
  | cons b bs ih =>
    have hne : x ≠ s.winCur.toNat := by
      simpa [Nat.mod_eq_of_lt s.winCur.isLt] using hx 0 (Nat.zero_lt_succ _)
    have hrest : ∀ j, j < bs.length → x ≠ ((s.winAppend b).winCur.toNat + j) % 8192 := fun j hj => by
      rw [State.winAppend_cell]
      exact hx (j + 1) (Nat.succ_lt_succ hj)
    rw [List.foldl_cons, ih (State.winAppend_win_wf h b) hrest, State.winAppend_win_read h, if_neg hne]

/-- At most N appends meet N different cells, so that the byte of each is still there behind the last one. -/
theorem State.read_foldl_winAppend {s : State} {bs : List Byte} (h : s.win.wf = true) (hlen : bs.length ≤ 8192) {j : Nat}
    (hj : j < bs.length) :
    (bs.foldl (fun u b => u.winAppend b) s).win.read ((s.winCur.toNat + j) % 8192) = bs.getD j 0#8 := by
  induction bs generalizing s j with
  | nil => exact absurd hj (Nat.not_lt_zero j)
  | cons b bs ih =>
    rw [List.length_cons] at hlen hj
    have hwf := State.winAppend_win_wf h b
    rw [List.foldl_cons]
    cases j with
    | zero =>
      have hcell : (s.winCur.toNat + 0) % 8192 = s.winCur.toNat := Nat.mod_eq_of_lt s.winCur.isLt
      have hrest : ∀ k, k < bs.length → s.winCur.toNat ≠ ((s.winAppend b).winCur.toNat + k) % 8192 := fun k hk => by
        rw [State.winAppend_cell]
        omega
      rw [hcell, State.read_foldl_winAppend_of_ne hwf hrest, State.winAppend_win_read h, if_pos rfl, List.getD_cons_zero]
    | succ j => rw [← State.winAppend_cell b, ih hwf (by omega) (by omega), List.getD_cons_succ]

/-- Settles O25: one append writes the cursor's cell and moves the cursor on by one, and at most N appends write no cell
twice. -/
theorem windowCapacity : Obligations.WindowCapacity := by
  unfold Obligations.WindowCapacity
  intro s bs hwf hlen
  exact ⟨fun j hj => State.read_foldl_winAppend hwf hlen hj, fun x _ hx => State.read_foldl_winAppend_of_ne hwf hx,
    State.winCur_foldl_winAppend s bs⟩

end Sys2Proof.Machine
end

section
/-! SUPPORT. How a DECODE enters and ends, and what no token and neither codec changes, however it ends (41_decoder.md R131,
R144, R147; 42_encoder.md R191). -/

namespace Sys2Proof.Machine

/-! ## How a DECODE ends -/

/-- What a DECODE that failed behind its entry seek shows (R144, R245). -/
structure State.ShowsDecodeError (s : State) : Prop where
  status : s.status = .error
  outLen : s.outLen = 0#32
  srcCur : s.srcCur.toNat ≤ s.inLen.toNat
  errCode : s.errCode = some .corruptStream ∨ s.errCode = some .outputOverflow

/-- A DECODE in Failed shows its error, and one that has ended shows that or success. -/
def State.ShowsDecodeEnd (s : State) : Prop :=
  match s.engine with
  | .idle => (s.status = .done ∧ s.errCode = none) ∨ s.ShowsDecodeError
  | .decoding r => r.dstate = .failed → s.ShowsDecodeError
  | .encoding _ => True

theorem raiseError_showsDecodeError {e : ErrKind} (he : e = .corruptStream ∨ e = .outputOverflow) (s : State) :
    (raiseError e .decodeRunning s).ShowsDecodeError where
  status := rfl
  outLen := rfl
  srcCur := ((s.failWith e).dropOut).freeCursor_le
  errCode := he.imp (congrArg some) (congrArg some)

theorem decoderStep_showsDecodeEnd {r : DecoderRegs} {s t : State} (he : s.engine = .decoding r) (hs : s.ShowsDecodeEnd)
    (h : decoderStep r s = .next t) : t.ShowsDecodeEnd := by
  have htr := decoderStep_transition he
  generalize decoderStep r s = o at h htr
  cases htr with
  | goesOn r1 s1 hg => cases h; exact fun hf => absurd hf hg.running.2
  | fails r1 s1 e _ he1 _ => cases h; exact fun _ => raiseError_showsDecodeError he1 _
  | succeeds _ => cases h; exact .inl ⟨rfl, rfl⟩
  | ends hd =>
    cases h
    simp only [State.ShowsDecodeEnd, he] at hs
    obtain ⟨hst, hlen, hcur, hcode⟩ := hs hd
    exact .inr ⟨hst, hlen, hcur, hcode⟩

/-- The entry seek of R131 fails. -/
theorem exec_decode_of_gt {s : State} (h : s.inLen.toNat < s.arg.toNat) :
    exec .decode s = .next (raiseError .outOfBounds .decodeEntry s) := by
  simp only [exec, execDecode, State.setCursor, if_neg (Nat.not_le.mpr h)]

/-- Behind its entry seek a DECODE ends, and shows how. -/
theorem exec_decode_ends {s : State} (h : s.arg.toNat ≤ s.inLen.toNat) :
    ∃ t, exec .decode s = .next t ∧ t.engine = .idle ∧ t.ShowsDecodeEnd := by
  obtain ⟨t, ht, hidle⟩ := decoderRun_ends (decodeFuel s) (decodeEntry_left s) (fun q hq => by cases hq)
  obtain ⟨u, hu, hshow⟩ := decoderRun_keeps (P := State.ShowsDecodeEnd) (fun _ _ _ => decoderStep_showsDecodeEnd)
    (decodeFuel s) (s := decodeEntry s) (fun hd => by cases hd)
  rw [ht] at hu
  cases hu
  exact ⟨t, (exec_decode_of_le h).trans ht, hidle, hshow⟩

/-- Settles O37: either the entry seek fails, or the run ends within its fuel and shows success or one of the two errors a
transition raises. -/
theorem decodeAlwaysEnds : Obligations.DecodeAlwaysEnds := by
  unfold Obligations.DecodeAlwaysEnds
  intro s he
  by_cases harg : s.arg.toNat ≤ s.inLen.toNat
  · obtain ⟨t, ht, hidle, hshow⟩ := exec_decode_ends harg
    refine ⟨t, ht, hidle, ?_⟩
    have hsame := exec_sameInputs ht
    simp only [State.ShowsDecodeEnd, hidle] at hshow
    refine hshow.imp id fun herr => ⟨herr.status, herr.outLen, ?_, .inr herr.errCode⟩
    rw [← hsame.inLen]
    exact Nat.le_trans herr.srcCur (Nat.le_max_right _ _)
  · exact ⟨_, exec_decode_of_gt (Nat.not_le.mp harg), he, .inr ⟨rfl, rfl, Nat.le_max_left _ _, .inl rfl⟩⟩

/-- Settles O33: the two branches of the entry seek (`decodeEntry` itself is the model's state behind it). -/
theorem decodeEntry_holds : Obligations.DecodeEntry := by
  unfold Obligations.DecodeEntry
  exact fun s _ => ⟨fun h => ⟨_, exec_decode_of_gt h, rfl, fun _ => rfl⟩,
    fun h => ⟨DecoderRegs.enter s.arg, rfl, rfl, exec_decode_of_le h⟩⟩

/-! ## What DECODE and its tokens leave alone besides their inputs -/

/-- WIN, WIN_CUR and RESULT, which no DECODE writes (R147). -/
structure State.SameWindow (s t : State) : Prop where
  win : t.win = s.win
  winCur : t.winCur = s.winCur
  result : t.result = s.result

theorem State.SameWindow.refl (s : State) : s.SameWindow s := ⟨rfl, rfl, rfl⟩

theorem State.SameWindow.trans {s t u : State} (h : s.SameWindow t) (h' : t.SameWindow u) : s.SameWindow u :=
  ⟨h'.win.trans h.win, h'.winCur.trans h.winCur, h'.result.trans h.result⟩

theorem Move.sameWindow {r r1 : DecoderRegs} {s s1 : State} (h : Move r s r1 s1) : s.SameWindow s1 := by
  constructor <;> rw [h.frame]

theorem raiseError_sameWindow (e : ErrKind) (s : State) : s.SameWindow (raiseError e .decodeRunning s) := ⟨rfl, rfl, rfl⟩

theorem State.SameWindow.withDecoder {s t : State} (h : s.SameWindow t) (r : DecoderRegs) :
    s.SameWindow (t.withDecoder r) := h.trans ⟨rfl, rfl, rfl⟩

theorem decoderStep_sameWindow {r : DecoderRegs} {s t : State} (he : s.engine = .decoding r)
    (h : decoderStep r s = .next t) : s.SameWindow t := by
  have htr := decoderStep_transition he
  generalize decoderStep r s = o at h htr
  cases htr with
  | goesOn r1 s1 hg => cases h; exact hg.move.sameWindow.withDecoder r1
  | fails r1 s1 e hm _ _ => cases h; exact (hm.sameWindow.withDecoder r1).trans (raiseError_sameWindow e _)
  | succeeds _ => cases h; exact ⟨rfl, rfl, rfl⟩
  | ends _ => cases h; exact ⟨rfl, rfl, rfl⟩

theorem decoderRun_sameWindow {n : Nat} {s t : State} (h : decoderRun n s = .next t) : s.SameWindow t := by
  obtain ⟨u, hu, hsame⟩ := decoderRun_keeps (P := s.SameWindow)
    (fun _ _ _ he hv hw => hv.trans (decoderStep_sameWindow he hw)) n (.refl s)
  rw [h] at hu
  cases hu
  exact hsame

theorem exec_decode_sameWindow {s t : State} (h : exec .decode s = .next t) : s.SameWindow t := by
  by_cases harg : s.arg.toNat ≤ s.inLen.toNat
  · rw [exec_decode_of_le harg] at h
    have hentry : s.SameWindow (decodeEntry s) := ⟨rfl, rfl, rfl⟩
    exact hentry.trans (decoderRun_sameWindow h)
  · rw [exec_decode_of_gt (Nat.not_le.mp harg)] at h
    cases h
    exact ⟨rfl, rfl, rfl⟩

theorem runToken_sameWindow {tok : Token} {s t : State} (h : runToken tok s = .next t) : s.SameWindow t := by
  obtain ⟨r, he, hd⟩ := runToken_inHandler h
  rcases runToken_cases he hd with ⟨r1, s1, hrun, hmove, -⟩ | ⟨r1, e, hrun, -, -⟩
  · rw [hrun] at h
    cases h
    exact hmove.sameWindow.withDecoder r1
  · rw [hrun] at h
    cases h
    exact ((State.SameWindow.refl s).withDecoder r1).trans (raiseError_sameWindow e _)

/-! ## What ENCODE leaves alone besides its inputs -/

/-- SRC_CUR and RESULT, which no ENCODE writes (R191). -/
structure State.SamePort (s t : State) : Prop where
  srcCur : t.srcCur = s.srcCur
  result : t.result = s.result

theorem State.SamePort.refl (s : State) : s.SamePort s := ⟨rfl, rfl⟩

theorem State.SamePort.trans {s t u : State} (h : s.SamePort t) (h' : t.SamePort u) : s.SamePort u :=
  ⟨h'.srcCur.trans h.srcCur, h'.result.trans h.result⟩

theorem EncMove.samePort {s s1 : State} (h : EncMove s s1) : s.SamePort s1 := by
  constructor <;> rw [h.frame]

theorem raiseError_samePort_encodeRunning (e : ErrKind) (s : State) : s.SamePort (raiseError e .encodeRunning s) := ⟨rfl, rfl⟩

theorem State.literal_samePort {s t : State} {b : Byte} (h : s.literal b = .ok t) : s.SamePort t := by
  unfold State.literal at h
  split at h
  · split at h
    next s1 hflush =>
      cases h
      obtain ⟨hmove, -⟩ := State.flush_ok hflush
      exact hmove.samePort.trans ⟨rfl, rfl⟩
    next => cases h
  · cases h; exact ⟨rfl, rfl⟩

theorem encodeAt_samePort {s t : State} {p : Nat} (h : encodeAt p s = .ok t) : s.SamePort t := by
  unfold encodeAt at h
  split at h
  · exact State.literal_samePort h
  · exact (State.flushAndEmit_ok h).samePort
  · exact (State.flushAndEmit_ok h).samePort

theorem encoderStep_samePort (r : EncoderRegs) (s : State) : s.SamePort (encoderStep r s) := by
  unfold encoderStep
  split
  · split
    next s1 hat => exact (encodeAt_samePort hat).trans ⟨rfl, rfl⟩
    next => exact raiseError_samePort_encodeRunning _ s
  · split
    next s1 hfin =>
      obtain ⟨hframe, -, -, -⟩ := State.encodeFinish_ok hfin
      have hport : s.SamePort s1 := by constructor <;> rw [hframe]
      exact hport.trans ⟨rfl, rfl⟩
    next => exact raiseError_samePort_encodeRunning _ s

theorem exec_encode_samePort {s t : State} (h : exec .encode s = .next t) : s.SamePort t := by
  simp only [exec, execEncode] at h
  split at h
  · cases h; exact ⟨rfl, rfl⟩
  · next u hu =>
    cases h
    obtain ⟨-, hframe⟩ := encodeEntry_ok hu
    have hentry : s.SamePort u := by constructor <;> rw [hframe]
    exact encoderRun_keeps (P := s.SamePort) (fun r v _ hv => hv.trans (encoderStep_samePort r v)) _ hentry

/-! ## The obligations -/

/-- Settles O38: every transition of either codec leaves alone what its command does, and so do the entries. -/
theorem codecFrames : Obligations.CodecFrames := by
  unfold Obligations.CodecFrames
  refine ⟨fun s t h => ?_, fun s t h => ?_⟩
  · obtain ⟨hwin, hcur, hres⟩ := exec_decode_sameWindow h
    exact ⟨exec_sameInputs h, hwin, hcur, hres⟩
  · obtain ⟨hcur, hres⟩ := exec_encode_samePort h
    exact ⟨exec_sameInputs h, hcur, hres⟩

/-- Settles O32: a token goes on by a move of the decoder, or raises an error, and neither writes the window or RESULT. -/
theorem tokenFrame : Obligations.TokenFrame := by
  unfold Obligations.TokenFrame
  intro tok s u h
  obtain ⟨hwin, hcur, hres⟩ := runToken_sameWindow ((exec_toInstr tok s).symm.trans h)
  exact ⟨exec_sameInputs h, hwin, hcur, hres⟩

end Sys2Proof.Machine
end

section
/-! SUPPORT. The decoder's transitions by the bytes at SRC_CUR (41_decoder.md R132 to R143): the header, the token read at
dispatch, the continuation byte, the end check; and what each token appends or which error it raises. -/

namespace Sys2Proof.Machine

/-! ## The bytes at SRC_CUR -/

theorem Memory.bytes_add (m : Memory) (a n k : Nat) : m.bytes a (n + k) = m.bytes a n ++ m.bytes (a + n) k := by
  induction n generalizing a with
  | zero => rw [Nat.zero_add]; rfl
  | succ n ih =>
    rw [Nat.add_right_comm, Memory.bytes, Memory.bytes, ih, List.cons_append, Nat.add_right_comm a 1 n, Nat.add_assoc a n 1]

theorem State.advance_advance (m n : Nat) (s : State) : (s.advance m).advance n = s.advance (m + n) := by
  simp only [State.advance, BitVec.ofNat_add, BitVec.add_assoc]

section
variable {s : State}

/-- The first k of the stream's bytes, where they are all there. -/
theorem State.streamBytes_of_le {k n : Nat} (hk : k ≤ n) (h : s.srcCur.toNat + k ≤ s.inLen.toNat) :
    ∃ rest, s.streamBytes n = s.inMem.bytes s.srcCur.toNat k ++ rest := by
  refine ⟨s.inMem.bytes (s.srcCur.toNat + k) (min n (s.inLen.toNat - s.srcCur.toNat) - k), ?_⟩
  rw [← Memory.bytes_add, State.streamBytes]
  congr 1
  omega

/-- The stream's last k bytes. -/
theorem State.streamBytes_of_eq {k n : Nat} (hk : k ≤ n) (h : s.srcCur.toNat + k = s.inLen.toNat) :
    s.streamBytes n = s.inMem.bytes s.srcCur.toNat k := by
  rw [State.streamBytes]
  congr 1
  omega

theorem State.streamBytes_of_ge (h : s.inLen.toNat ≤ s.srcCur.toNat) (n : Nat) : s.streamBytes n = [] := by
  rw [State.streamBytes, Nat.sub_eq_zero_of_le h, Nat.min_zero]
  rfl

/-- The first byte, and the bytes behind it. -/
theorem State.streamBytes_succ (h : s.srcCur.toNat < s.inLen.toNat) (n : Nat) :
    s.streamBytes (n + 1) = nextByte s 0 :: (s.advance 1).streamBytes n := by
  rw [State.streamBytes, State.streamBytes, State.advance_srcCur_toNat h, State.advance_inLen,
    show min (n + 1) (s.inLen.toNat - s.srcCur.toNat) = min n (s.inLen.toNat - (s.srcCur.toNat + 1)) + 1 by omega]
  rfl

end

/-! ## Heads that are cut off -/

section
variable {c : Byte}

theorem decodeToken_lz_truncated (h : 0x80 ≤ c.toNat) : decodeToken .dispatch [c] = .error .truncated := by
  simp only [decodeToken, decodeAtDispatch, classOf_eq_lz h, decodeLz]

theorem decodeToken_rles_truncated (h : 0x40 ≤ c.toNat) (h' : c.toNat < 0x80) :
    decodeToken .dispatch [c] = .error .truncated := by
  simp only [decodeToken, decodeAtDispatch, classOf_eq_rle h h', decodeRle]
  split <;> rfl

theorem decodeToken_rlel_truncated (h : 0x40 ≤ c.toNat) (h' : c.toNat < 0x80) (h4 : c.toNat / 16 % 2 = 1) (nl : Byte) :
    decodeToken .dispatch [c, nl] = .error .truncated := by
  have hbit : c.getLsbD 4 = true := by rw [getLsbD_eq_decide, decide_eq_true_eq]; omega
  simp only [decodeToken, decodeAtDispatch, classOf_eq_rle h h', decodeRle, if_pos hbit]

theorem decodeToken_rawl_truncated (h : 0x20 ≤ c.toNat) (h' : c.toNat < 0x40) :
    decodeToken .dispatch [c] = .error .truncated := by
  have hbit : c.getLsbD 5 = true := by rw [getLsbD_eq_decide, decide_eq_true_eq]; omega
  simp only [decodeToken, decodeAtDispatch, classOf_eq_raw h', decodeRaw, if_pos hbit]

end

/-! ## Errors of a running DECODE -/

/-- An error raised behind some bytes of the stream is an error of the transition that read them (R245). -/
theorem decodeFailed_of_same {r1 : DecoderRegs} {s s1 : State} (hin : s.SameInputs s1) (hwin : s.SameWindow s1)
    (he : s1.engine = .decoding r1) (e : ErrKind) : s.DecodeFailed (raiseError e .decodeRunning s1) e := by
  have h := raiseError_decodeFailed e he
  exact ⟨hin.trans h.inputs, h.win.trans hwin.win, h.winCur.trans hwin.winCur, h.result.trans hwin.result, h.status,
    h.errCode, h.outLen, by rw [← hin.inLen]; exact h.srcCur, h.failed⟩

theorem corrupt_decodeFailed {r : DecoderRegs} {s : State} (he : s.engine = .decoding r) :
    ∃ t, corrupt s = .next t ∧ s.DecodeFailed t .corruptStream :=
  ⟨_, rfl, raiseError_decodeFailed _ he⟩

/-- CorruptStream behind n bytes that were read. -/
theorem corrupt_advance_decodeFailed {r : DecoderRegs} {s : State} (n : Nat) :
    ∃ t, corrupt ((s.advance n).withDecoder r) = .next t ∧ s.DecodeFailed t .corruptStream :=
  ⟨_, rfl, decodeFailed_of_same (s := s) (s1 := (s.advance n).withDecoder r) ⟨rfl, rfl, rfl, rfl, rfl, rfl⟩ ⟨rfl, rfl, rfl⟩
    rfl _⟩

/-! ## The transition at dispatch (R134) -/

section
variable {s : State} {r : DecoderRegs} {t : Token} {rest : List Byte} {e : DecodeReject}

theorem step_at_dispatch (he : s.engine = .decoding r) (hd : r.dstate = .dispatchingToken) :
    step s = dispatchToken r s := by
  rw [step_of_decoding he, decoderStep, hd]

/-- The state behind the whole head is the one behind the control byte, moved on by the operands. -/
theorem handling_advance (t : Token) (c : Byte) (h : c = nextByte s 0) :
    handling { r with ctrl := c } (headLength t - 1) (s.advance 1) =
      behindHead s r (headLength t) (handlerOf (classOf (nextByte s 0))) := by
  have hpos : 1 + (headLength t - 1) = headLength t := by cases t <;> rfl
  rw [handling, State.advance_advance, hpos, h]
  rfl

theorem dispatchToken_of_ok (hlt : s.srcCur.toNat < r.endAddr.toNat)
    (hdec : decodeToken .dispatch (s.streamBytes 3) = .ok (t, rest)) :
    dispatchToken r s = runToken t (behindHead s r (headLength t) (handlerOf (classOf (nextByte s 0)))) := by
  by_cases hin : s.srcCur.toNat < s.inLen.toNat
  · rw [State.streamBytes_succ hin] at hdec
    rw [← handling_advance t (nextByte s 0) rfl, dispatchToken, if_pos hlt, State.readU8_of_lt hin]
    simp only [handleToken]
    rw [show s.inByte s.srcCur.toNat = nextByte s 0 from rfl, hdec]
  · rw [State.streamBytes_of_ge (Nat.not_lt.mp hin)] at hdec
    cases hdec

theorem dispatchToken_of_error (he : s.engine = .decoding r) (hlt : s.srcCur.toNat < r.endAddr.toNat)
    (hdec : decodeToken .dispatch (s.streamBytes 3) = .error e) :
    ∃ u, dispatchToken r s = .next u ∧ s.DecodeFailed u .corruptStream := by
  by_cases hin : s.srcCur.toNat < s.inLen.toNat
  · rw [State.streamBytes_succ hin] at hdec
    rw [dispatchToken, if_pos hlt, State.readU8_of_lt hin]
    simp only [handleToken]
    rw [show s.inByte s.srcCur.toNat = nextByte s 0 from rfl, hdec, ← State.withDecoder_self (s := s.advance 1) he]
    exact corrupt_advance_decodeFailed 1
  · rw [dispatchToken, if_pos hlt, State.readU8_of_ge (Nat.not_lt.mp hin)]
    exact corrupt_decodeFailed he

theorem dispatchToken_of_ge (hge : r.endAddr.toNat ≤ s.srcCur.toNat) : dispatchToken r s = endCheck r s := by
  rw [dispatchToken, if_neg (Nat.not_lt.mpr hge)]

theorem step_dispatched (hat : AtDispatch s r) (hdec : decodeToken .dispatch (s.streamBytes 3) = .ok (t, rest)) :
    step s = exec t.toInstr (behindHead s r (headLength t) (handlerOf (classOf (nextByte s 0)))) := by
  rw [step_at_dispatch hat.engine hat.dstate, dispatchToken_of_ok hat.below hdec, exec_toInstr]

/-- Where the first k bytes of the stream decide, the token they make runs. -/
theorem step_head {k : Nat} (hat : AtDispatch s r) (hk : k ≤ 3) (hin : s.srcCur.toNat + k ≤ s.inLen.toNat)
    (hdec : ∀ rest, decodeToken .dispatch (s.inMem.bytes s.srcCur.toNat k ++ rest) = .ok (t, rest)) :
    step s = exec t.toInstr (behindHead s r (headLength t) (handlerOf (classOf (nextByte s 0)))) := by
  obtain ⟨rest, hbytes⟩ := State.streamBytes_of_le hk hin
  exact step_dispatched hat ((congrArg _ hbytes).trans (hdec rest))

theorem step_dispatch_error (hat : AtDispatch s r) (hdec : decodeToken .dispatch (s.streamBytes 3) = .error e) :
    ∃ u, step s = .next u ∧ s.DecodeFailed u .corruptStream := by
  rw [step_at_dispatch hat.engine hat.dstate]
  exact dispatchToken_of_error hat.engine hat.below hdec

/-- Where the input ends behind k bytes that make no token, the step is CorruptStream. -/
theorem step_cut_off {k : Nat} (hat : AtDispatch s r) (hk : k ≤ 3) (hin : s.srcCur.toNat + k = s.inLen.toNat)
    (hdec : decodeToken .dispatch (s.inMem.bytes s.srcCur.toNat k) = .error e) :
    ∃ u, step s = .next u ∧ s.DecodeFailed u .corruptStream :=
  step_dispatch_error hat ((congrArg _ (State.streamBytes_of_eq hk hin)).trans hdec)

/-! ## The transition at the continuation test (R137) -/

theorem step_at_continuation (he : s.engine = .decoding r) (hd : r.dstate = .handlingLZC) :
    step s = continuationTest r s := by
  rw [step_of_decoding he, decoderStep, hd]

theorem continuationTest_of_ok (hdec : decodeToken .continuation (s.streamBytes 1) = .ok (t, rest)) :
    continuationTest r s = runToken t ((s.advance 1).withDecoder r) := by
  rw [continuationTest, hdec]

theorem continuationTest_of_notContinuation
    (hdec : decodeToken .continuation (s.streamBytes 1) = .error .notContinuation) :
    continuationTest r s = toState r .dispatchingToken s := by
  rw [continuationTest, hdec]

theorem continuationTest_of_ge (hge : s.inLen.toNat ≤ s.srcCur.toNat) : continuationTest r s = corrupt s := by
  simp only [continuationTest, State.streamBytes_of_ge hge, decodeToken]

theorem State.streamBytes_one (h : s.srcCur.toNat < s.inLen.toNat) : s.streamBytes 1 = [nextByte s 0] := by
  rw [State.streamBytes_succ h, State.streamBytes, Nat.zero_min]
  rfl

end

/-! ## The end of a token -/

section
variable {s t : State} {r : DecoderRegs} {d : DState} {n : Nat}

theorem State.Appended.withDecoder {f : Nat → Byte} (h : s.Appended t n f) (r : DecoderRegs) :
    s.Appended (t.withDecoder r) n f := ⟨h.length, h.bytes, h.others⟩

theorem State.OutOnly.withDecoder_frame (h : s.OutOnly t) (r : DecoderRegs) :
    t.withDecoder r =
      { s with
        outMem := (t.withDecoder r).outMem, outLen := (t.withDecoder r).outLen, engine := (t.withDecoder r).engine } := by
  rw [h.same]
  rfl

theorem endToken_of_error {x : Except ErrKind State} {e : ErrKind} (h : x = .error e) :
    ∃ u, endToken r d s x = .next u ∧ s.DecodeFailed u e := by
  rw [h]
  exact ⟨_, rfl, decodeFailed_of_same ((State.SameInputs.refl s).withDecoder r) ((State.SameWindow.refl s).withDecoder r)
    rfl e⟩

/-- A run of one byte ends its token by the room in OUT (R138, R139). -/
theorem endToken_appendRun (v : Byte) (hwf : s.outMem.wf = true) (hle : s.outLen.toNat ≤ s.cfg.outCap.toNat) :
    (s.outLen.toNat + n ≤ s.cfg.outCap.toNat →
      ∃ u, endToken r d s (s.appendRun v n) = .next u ∧ s.Appended u n (fun _ => v) ∧
        u = { s with outMem := u.outMem, outLen := u.outLen, engine := u.engine } ∧
        u.engine = .decoding { r with dstate := d }) ∧
    (s.cfg.outCap.toNat < s.outLen.toNat + n →
      ∃ u, endToken r d s (s.appendRun v n) = .next u ∧ s.DecodeFailed u .outputOverflow) := by
  rw [State.appendRun_eq_appendAll]
  refine ⟨fun hfit => ?_, fun hover => ?_⟩
  · obtain ⟨u, hu, happ, -⟩ := State.appendAll_spec (bs := List.replicate n v) hwf (by simpa using hfit)
    rw [List.length_replicate] at happ
    have hbytes : s.Appended u n (fun _ => v) := happ.congr fun k hk => by simp [List.getD_eq_getElem?_getD, hk]
    rw [hu]
    exact ⟨_, rfl, hbytes.withDecoder _, (State.appendAll_outOnly hu).withDecoder_frame _, rfl⟩
  · exact endToken_of_error (State.appendAll_overflow hle (by simpa using hover))

/-- A literal run ends its token by the bytes left in IN and the room in OUT (R140, R141, R248). -/
theorem endToken_copyLiterals (hwf : s.outMem.wf = true) (hle : s.outLen.toNat ≤ s.cfg.outCap.toNat)
    (hcur : s.srcCur.toNat ≤ s.inLen.toNat) (n : Nat) :
    LiteralRun s r n
      (endToken { r with cnt := BitVec.ofNat 13 n } .dispatchingToken s (s.copyLiterals n)) := by
  refine ⟨fun hin hfit => ?_, fun hin hroom => ?_, fun hover hroom => ?_⟩
  · obtain ⟨u, hu, happ, -⟩ := State.copyLiterals_spec hwf hin hfit
    obtain ⟨hsrc, -⟩ := State.copyLiterals_srcCur hu
    have hframe := State.copyLiterals_frame hu
    rw [hu]
    refine ⟨_, rfl, happ.withDecoder _, hsrc, ?_, rfl⟩
    rw [hframe]
    rfl
  · exact endToken_of_error (State.copyLiterals_corrupt hle hcur hin hroom)
  · exact endToken_of_error (State.copyLiterals_overflow hle hover hroom)

/-! ## The tokens in their handling states -/

theorem exec_lz (he : s.engine = .decoding r) (hd : r.dstate = .handlingLZ) (c : BitVec 2) (pos : BitVec 13) :
    exec (.lz c pos) s = endToken { r with pos := pos, cnt := BitVec.ofNat 13 (c.toNat + 4) } .handlingLZC s
      (s.copyBack pos.toNat (c.toNat + 4)) := by
  simp only [exec, execLz, State.inHandler, he, hd, if_true, lzCount]

theorem exec_lzc (he : s.engine = .decoding r) (hd : r.dstate = .handlingLZC) (k : BitVec 5) :
    exec (.lzc k) s = endToken { r with cnt := BitVec.ofNat 13 k.toNat } .handlingLZC s
      (s.copyBack r.pos.toNat k.toNat) := by
  simp only [exec, execLzc, State.inHandler, he, hd, if_true, lzcCount]

theorem exec_rles (he : s.engine = .decoding r) (hd : r.dstate = .handlingRLE) (x : BitVec 1) (m : BitVec 4) (v : Byte) :
    exec (.rles x m v) s = endToken { r with cnt := BitVec.ofNat 13 (m.toNat + 4), val := v } .dispatchingToken s
      (s.appendRun v (m.toNat + 4)) := by
  simp only [exec, execRles, State.inHandler, he, hd, if_true, rlesCount]

theorem exec_rlel (he : s.engine = .decoding r) (hd : r.dstate = .handlingRLE) (x : BitVec 1) (m : BitVec 12) (v : Byte) :
    exec (.rlel x m v) s = endToken { r with cnt := BitVec.ofNat 13 (m.toNat + 4), val := v } .dispatchingToken s
      (s.appendRun v (m.toNat + 4)) := by
  simp only [exec, execRlel, State.inHandler, he, hd, if_true, rlelCount]

theorem exec_raws (he : s.engine = .decoding r) (hd : r.dstate = .handlingRAW) (l : BitVec 5) :
    exec (.raws l) s = endToken { r with cnt := BitVec.ofNat 13 l.toNat } .dispatchingToken s
      (s.copyLiterals l.toNat) := by
  simp only [exec, execRaws, State.inHandler, he, hd, if_true, rawsLength]

theorem exec_rawl (he : s.engine = .decoding r) (hd : r.dstate = .handlingRAW) (lh : BitVec 5) (ll : Byte) :
    exec (.rawl lh ll) s =
      endToken { r with cnt := BitVec.ofNat 13 (rawlLength s.cfg.rawLongMode lh ll) } .dispatchingToken s
        (s.copyLiterals (rawlLength s.cfg.rawLongMode lh ll)) := by
  simp only [exec, execRawl, State.inHandler, he, hd, if_true]

end

/-! ## The obligations of the tokens -/

/-- Settles O8: the head decoded from the stream's bytes is the one dispatch decodes behind the control byte it has read. -/
theorem stepRunsTheDispatchedToken : Obligations.StepRunsTheDispatchedToken := by
  unfold Obligations.StepRunsTheDispatchedToken
  exact ⟨fun _ _ _ _ hat hdec => step_dispatched hat hdec, fun _ _ _ hat hdec => step_dispatch_error hat hdec,
    fun _ _ he hd hge => (step_at_dispatch he hd).trans (dispatchToken_of_ge hge)⟩

/-- Settles O9: the two branches of the continuation test that find a byte. -/
theorem stepRunsTheContinuationByte : Obligations.StepRunsTheContinuationByte := by
  unfold Obligations.StepRunsTheContinuationByte
  intro s r he hd
  rw [step_at_continuation he hd]
  exact ⟨fun t rest hdec => (continuationTest_of_ok hdec).trans (exec_toInstr t _).symm,
    fun hdec => continuationTest_of_notContinuation hdec⟩

/-- Settles O26: the back-copy by position and room, and the head of two bytes. -/
theorem lzToken : Obligations.LzToken := by
  unfold Obligations.LzToken
  refine ⟨fun s r c pos he hd hwf hle => ?_, fun s r hat hc => ⟨fun hin => ?_, fun hin => ?_⟩⟩
  · rw [exec_lz he hd]
    refine ⟨fun h1 h2 hfit => ?_, fun hbad => ?_, fun h1 h2 hover => ?_⟩
    · obtain ⟨t, ht, happ, -⟩ := State.copyBack_spec hwf h1 h2 hfit
      rw [ht]
      exact ⟨_, rfl, happ.withDecoder _, (State.copyBack_outOnly ht).withDecoder_frame _, rfl⟩
    · exact endToken_of_error (State.copyBack_corrupt hbad)
    · exact endToken_of_error (State.copyBack_overflow h1 h2 hle hover)
  · have hstep := step_head hat (by decide) hin fun rest => decodeToken_lz hc (nextByte s 1) rest
    rw [classOf_eq_lz hc] at hstep
    refine ⟨_, _, toNat_extractLsb'_eq_div_mod 5 2 _, ?_, hstep⟩
    rw [toNat_append_eq_mul_add, toNat_extractLsb'_eq_div_mod]
    omega
  · exact step_cut_off hat (by decide) hin (decodeToken_lz_truncated hc)

/-- Settles O27: the back-copy by room at a position that is usable already, and the three cases of the continuation test. -/
theorem lzcToken : Obligations.LzcToken := by
  unfold Obligations.LzcToken
  refine ⟨fun s r k he hd hwf hle h1 h2 => ?_, fun s r he hd => ⟨fun hin hc => ?_, fun hin hc => ?_, fun hge => ?_⟩⟩
  · rw [exec_lzc he hd]
    refine ⟨fun hfit => ?_, fun hover => endToken_of_error (State.copyBack_overflow h1 h2 hle hover)⟩
    obtain ⟨t, ht, happ, -⟩ := State.copyBack_spec hwf h1 h2 hfit
    rw [ht]
    refine ⟨_, rfl, happ.withDecoder _, (State.copyBack_outOnly ht).withDecoder_frame _, ?_⟩
    rw [← hd]
    rfl
  · have hdec := decodeToken_lzc (c := nextByte s 0) (by omega) (by omega) []
    rw [← State.streamBytes_one hin] at hdec
    refine ⟨_, toNat_extractLsb'_eq_div_mod 0 5 (nextByte s 0) |>.trans (by omega), ?_⟩
    exact (step_at_continuation he hd).trans (continuationTest_of_ok hdec)
  · have hdec := decodeToken_notContinuation (c := nextByte s 0) (by omega) []
    rw [← State.streamBytes_one hin] at hdec
    exact (step_at_continuation he hd).trans (continuationTest_of_notContinuation hdec)
  · rw [step_at_continuation he hd, continuationTest_of_ge hge]
    exact corrupt_decodeFailed he

/-- Settles O28: the run by room, and the head of two bytes, whatever bit 5 of its control byte. -/
theorem rlesToken : Obligations.RlesToken := by
  unfold Obligations.RlesToken
  refine ⟨fun s r x n v he hd hwf hle => ?_, fun s r hat hc h4 => ⟨fun hin => ?_, fun hin => ?_⟩⟩
  · rw [exec_rles he hd]
    exact endToken_appendRun v hwf hle
  · have hstep := step_head hat (by decide) hin fun rest =>
      decodeToken_rles (c := nextByte s 0) (by omega) (by omega) h4 (nextByte s 1) rest
    rw [classOf_eq_rle (by omega) (by omega)] at hstep
    exact ⟨_, _, toNat_extractLsb'_eq_div_mod 0 4 (nextByte s 0) |>.trans (by omega), hstep⟩
  · exact step_cut_off hat (by decide) hin (decodeToken_rles_truncated (c := nextByte s 0) (by omega) (by omega))

/-- Settles O29: the run by room, and the head of three bytes, whatever bit 5 of its control byte. -/
theorem rlelToken : Obligations.RlelToken := by
  unfold Obligations.RlelToken
  refine ⟨fun s r x n v he hd hwf hle => ?_, fun s r hat hc h4 => ⟨fun hin => ?_, fun hlt hin => ?_⟩⟩
  · rw [exec_rlel he hd]
    exact endToken_appendRun v hwf hle
  · have hstep := step_head hat (by decide) hin fun rest =>
      decodeToken_rlel (c := nextByte s 0) (by omega) (by omega) h4 (nextByte s 1) (nextByte s 2) rest
    rw [classOf_eq_rle (by omega) (by omega)] at hstep
    refine ⟨_, _, ?_, hstep⟩
    rw [toNat_append_eq_mul_add, toNat_extractLsb'_eq_div_mod]
    omega
  · have h2 : s.srcCur.toNat + 1 = s.inLen.toNat ∨ s.srcCur.toNat + 2 = s.inLen.toNat := by omega
    rcases h2 with hone | htwo
    · exact step_cut_off hat (by decide) hone (decodeToken_rles_truncated (c := nextByte s 0) (by omega) (by omega))
    · exact step_cut_off hat (by decide) htwo
        (decodeToken_rlel_truncated (c := nextByte s 0) (by omega) (by omega) h4 (nextByte s 1))

/-- Settles O30: the literal run, and the head of one byte. -/
theorem rawsToken : Obligations.RawsToken := by
  unfold Obligations.RawsToken
  refine ⟨fun s r l he hd hwf hle hcur => ?_, fun s r hat hlt hc => ?_⟩
  · rw [exec_raws he hd]
    exact endToken_copyLiterals hwf hle hcur l.toNat
  · have hstep := step_head (k := 1) hat (by decide) hlt fun rest => decodeToken_raws hc rest
    rw [classOf_eq_raw (by omega)] at hstep
    exact ⟨_, toNat_extractLsb'_eq_div_mod 0 5 (nextByte s 0) |>.trans (by omega), hstep⟩

/-- Settles O31: the literal run of the length each mode assembles, and the head of two bytes. -/
theorem rawlToken : Obligations.RawlToken := by
  unfold Obligations.RawlToken
  refine ⟨fun s r lh ll he hd hwf hle hcur => ?_, fun s r hat hc => ⟨fun hin => ?_, fun hin => ?_⟩⟩
  · rw [exec_rawl he hd]
    refine ⟨fun hmode => ?_, fun hmode => ?_⟩
    · have hlen : rawlLength s.cfg.rawLongMode lh ll = lh.toNat * 256 + ll.toNat := by
        rw [hmode]
        exact toNat_append_eq_mul_add lh ll
      rw [hlen]
      exact endToken_copyLiterals hwf hle hcur _
    · rw [hmode]
      exact endToken_copyLiterals hwf hle hcur ll.toNat
  · have hstep := step_head hat (by decide) hin fun rest =>
      decodeToken_rawl (c := nextByte s 0) (by omega) (by omega) (nextByte s 1) rest
    rw [classOf_eq_raw (by omega)] at hstep
    exact ⟨_, toNat_extractLsb'_eq_div_mod 0 5 (nextByte s 0) |>.trans (by omega), hstep⟩
  · exact step_cut_off hat (by decide) hin (decodeToken_rawl_truncated (c := nextByte s 0) (by omega) (by omega))

/-! ## The header and the end of the stream -/

/-- The number in two header bytes, the first least significant (R55, R132). -/
def headerValue (b0 b1 : Byte) : Nat := b0.toNat + 256 * b1.toNat

theorem headerValue_lt (b0 b1 : Byte) : headerValue b0 b1 < 65536 := by
  have h0 := b0.isLt
  have h1 := b1.isLt
  rw [headerValue]
  omega

/-- The registers behind a header of value n that goes to state d: DECL is n, END is BASE + n (R132). -/
def DecoderRegs.withHeader (r : DecoderRegs) (n : Nat) (d : DState) : DecoderRegs :=
  { r with decl := BitVec.ofNat 16 n, endAddr := BitVec.ofNat 33 (r.base.toNat + n), dstate := d }

section
variable {s : State} {r : DecoderRegs}

theorem DecoderRegs.withHeader_decl_toNat (b0 b1 : Byte) (d : DState) :
    (r.withHeader (headerValue b0 b1) d).decl.toNat = headerValue b0 b1 := by
  have h := headerValue_lt b0 b1
  rw [DecoderRegs.withHeader, BitVec.toNat_ofNat]
  omega

theorem DecoderRegs.withHeader_endAddr_toNat (b0 b1 : Byte) (d : DState) :
    (r.withHeader (headerValue b0 b1) d).endAddr.toNat = r.base.toNat + headerValue b0 b1 := by
  have h := headerValue_lt b0 b1
  have hb := r.base.isLt
  rw [DecoderRegs.withHeader, BitVec.toNat_ofNat]
  omega

theorem State.readU16_le (h : s.srcCur.toNat + 2 ≤ s.inLen.toNat) :
    s.readU16 .le = some (BitVec.ofNat 32 (headerValue (nextByte s 0) (nextByte s 1)), s.advance 2) := by
  simp only [State.readU16, State.portRead_of_le h]
  rfl

theorem State.readU16_of_gt (h : s.inLen.toNat < s.srcCur.toNat + 2) (e : Endian) : s.readU16 e = none := by
  simp only [State.readU16, State.portRead_of_gt h]

/-- Behind a header that is there with a third byte, that byte tells the empty escape from the tokens (R132, R133). -/
theorem readHeader_of_le (h : s.srcCur.toNat + 3 ≤ s.inLen.toNat) :
    readHeader r s = .next ((s.advance 2).withDecoder (r.withHeader (headerValue (nextByte s 0) (nextByte s 1))
      (if nextByte s 2 = 0x00#8 then .done else .dispatchingToken))) := by
  have hcur := State.advance_srcCur_toNat (s := s) (n := 2) (by omega)
  have hpeek : (s.advance 2).peek = some (nextByte s 2) := by
    rw [State.peek, hcur, State.advance_inLen, if_pos (by omega)]
    rfl
  have hlt := headerValue_lt (nextByte s 0) (nextByte s 1)
  have hdecl : (BitVec.ofNat 32 (headerValue (nextByte s 0) (nextByte s 1))).setWidth 16 =
      BitVec.ofNat 16 (headerValue (nextByte s 0) (nextByte s 1)) := by
    apply BitVec.eq_of_toNat_eq
    simp only [BitVec.toNat_setWidth, BitVec.toNat_ofNat]
    omega
  have hend : r.base.setWidth 33 + (BitVec.ofNat 32 (headerValue (nextByte s 0) (nextByte s 1))).setWidth 33 =
      BitVec.ofNat 33 (r.base.toNat + headerValue (nextByte s 0) (nextByte s 1)) := by
    have hb := r.base.isLt
    apply BitVec.eq_of_toNat_eq
    simp only [BitVec.toNat_add, BitVec.toNat_setWidth, BitVec.toNat_ofNat]
    omega
  simp only [readHeader, State.readU16_le (Nat.le_of_succ_le h), hpeek, hdecl, hend]
  split <;> rfl

theorem readHeader_of_gt (he : s.engine = .decoding r) (h : s.inLen.toNat < s.srcCur.toNat + 3) :
    ∃ t, readHeader r s = .next t ∧ s.DecodeFailed t .corruptStream := by
  by_cases h2 : s.srcCur.toNat + 2 ≤ s.inLen.toNat
  · have hcur := State.advance_srcCur_toNat h2
    have hpeek : (s.advance 2).peek = none := by
      rw [State.peek, hcur, State.advance_inLen, if_neg (by omega)]
    simp only [readHeader, State.readU16_le h2, hpeek]
    exact corrupt_advance_decodeFailed 2
  · simp only [readHeader, State.readU16_of_gt (Nat.not_le.mp h2)]
    exact corrupt_decodeFailed he

end

/-- Settles O34: a header with its third byte is read as `readHeader_of_le` says, and one without it is an overrun. -/
theorem headerStep : Obligations.HeaderStep := by
  unfold Obligations.HeaderStep
  intro s r he hd
  have hstep : step s = readHeader r s := by rw [step_of_decoding he, decoderStep, hd]
  rw [hstep]
  refine ⟨readHeader_of_gt he, fun h => ⟨_, _, readHeader_of_le h, rfl, State.advance_srcCur_toNat (by omega),
    DecoderRegs.withHeader_decl_toNat _ _ _, ?_, rfl, fun hz => if_pos hz, fun hz => if_neg hz⟩⟩
  rw [DecoderRegs.withHeader_endAddr_toNat, DecoderRegs.withHeader_decl_toNat]

/-- Settles O35: the end check compares SRC_CUR with END, and Done ends the command. -/
theorem endOfStream : Obligations.EndOfStream := by
  unfold Obligations.EndOfStream
  intro s r he
  refine ⟨fun hd heq => ?_, fun hd hlt => ?_, fun hd => ?_⟩
  · rw [step_at_dispatch he hd, dispatchToken_of_ge (Nat.le_of_eq heq.symm), endCheck, if_pos heq]
    rfl
  · rw [step_at_dispatch he hd, dispatchToken_of_ge (Nat.le_of_lt hlt), endCheck, if_neg (Nat.ne_of_gt hlt)]
    exact corrupt_decodeFailed he
  · rw [step_of_decoding he, decoderStep, hd]
    rfl

end Sys2Proof.Machine
end

section
/-! SUPPORT. Two runs of DECODE on the same input: a simulation along the transitions of both (41_decoder.md R146). -/

namespace Sys2Proof.Machine

/-! ## States that agree on what a DECODE reads -/

/-- Two states that agree on the input a DECODE reads, its cursor, the output so far and the two parameters it looks at. -/
structure State.Twin (s s' : State) : Prop where
  buffer : SameBuffer s s'
  srcCur : s'.srcCur = s.srcCur
  outLen : s'.outLen = s.outLen
  outCap : s'.cfg.outCap = s.cfg.outCap
  mode : s'.cfg.rawLongMode = s.cfg.rawLongMode
  out : ∀ i, i < s.outLen.toNat → s'.outByte i = s.outByte i
  wf : s.outMem.wf = true
  wf' : s'.outMem.wf = true
  room : s.outLen.toNat ≤ s.cfg.outCap.toNat

/-- Two results of one operation: the same error, or states that agree. -/
inductive TwinResult : Except ErrKind State → Except ErrKind State → Prop
  | ok {t t' : State} (h : t.Twin t') : TwinResult (.ok t) (.ok t')
  | error (e : ErrKind) : TwinResult (.error e) (.error e)

section
variable {s s' : State}

theorem State.Twin.inLen (h : s.Twin s') : s'.inLen = s.inLen := h.buffer.1

theorem State.Twin.advance (h : s.Twin s') (n : Nat) : (s.advance n).Twin (s'.advance n) :=
  { h with srcCur := congrArg (· + BitVec.ofNat 32 n) h.srcCur }

theorem State.Twin.withDecoder (h : s.Twin s') (r r' : DecoderRegs) : (s.withDecoder r).Twin (s'.withDecoder r') :=
  { h with }

theorem State.Twin.streamBytes (h : s.Twin s') (n : Nat) : s'.streamBytes n = s.streamBytes n := by
  rw [State.streamBytes, State.streamBytes, h.srcCur, h.inLen, Memory.bytes_eq_iff]
  exact fun k hk => h.buffer.2 _ (by omega)

theorem State.Twin.nextByte_eq (h : s.Twin s') {n : Nat} (hn : s.srcCur.toNat + n < s.inLen.toNat) :
    nextByte s' n = nextByte s n := by
  rw [nextByte, nextByte, h.srcCur]
  exact h.buffer.2 _ hn

/-! ## The operations of a DECODE keep the agreement -/

theorem State.Twin.outAppend (h : s.Twin s') (v : Byte) : TwinResult (s.outAppend v) (s'.outAppend v) := by
  by_cases hfull : s.outLen.toNat = s.cfg.outCap.toNat
  · rw [State.outAppend_full v hfull, State.outAppend_full (s := s') v (by rw [h.outLen, h.outCap]; exact hfull)]
    exact .error _
  · have hlt : s.outLen.toNat < s.cfg.outCap.toNat := Nat.lt_of_le_of_ne h.room hfull
    have hlen := toNat_succ hlt
    rw [State.outAppend_of_room v hlt, State.outAppend_of_room (s := s') v (by rw [h.outLen, h.outCap]; exact hlt)]
    refine .ok { h with
      outLen := congrArg (· + 1#32) h.outLen, out := fun i hi => ?_, wf := Memory.wf_write h.wf _ _
      wf' := Memory.wf_write h.wf' _ _, room := hlen ▸ hlt }
    simp only [State.outByte, Memory.read_write h.wf, Memory.read_write h.wf', h.outLen]
    split
    · rfl
    · exact h.out i (by simp only [hlen] at hi; omega)

theorem State.Twin.backRef (h : s.Twin s') (pos : Nat) : s'.backRef pos = s.backRef pos := by
  rw [State.backRef_eq, State.backRef_eq, h.outLen]
  split
  · rfl
  · rw [h.out _ (by omega)]

theorem State.Twin.copyBack (h : s.Twin s') (pos n : Nat) : TwinResult (s.copyBack pos n) (s'.copyBack pos n) := by
  induction n generalizing s s' with
  | zero => exact .ok h
  | succ n ih =>
    simp only [State.copyBack, h.backRef pos]
    cases s.backRef pos with
    | error e => exact .error e
    | ok b =>
      dsimp only
      generalize hx : s.outAppend b = x, hx' : s'.outAppend b = x'
      cases hx ▸ hx' ▸ h.outAppend b with
      | ok h1 => exact ih h1
      | error e => exact .error e

theorem State.Twin.appendRun (h : s.Twin s') (v : Byte) (n : Nat) : TwinResult (s.appendRun v n) (s'.appendRun v n) := by
  induction n generalizing s s' with
  | zero => exact .ok h
  | succ n ih =>
    simp only [State.appendRun]
    generalize hx : s.outAppend v = x, hx' : s'.outAppend v = x'
    cases hx ▸ hx' ▸ h.outAppend v with
    | ok h1 => exact ih h1
    | error e => exact .error e

theorem State.Twin.copyLiterals (h : s.Twin s') (n : Nat) : TwinResult (s.copyLiterals n) (s'.copyLiterals n) := by
  induction n generalizing s s' with
  | zero => exact .ok h
  | succ n ih =>
    by_cases hin : s.srcCur.toNat < s.inLen.toNat
    · have hin' : s'.srcCur.toNat < s'.inLen.toNat := by rw [h.srcCur, h.inLen]; exact hin
      have hbyte : s'.inByte s'.srcCur.toNat = s.inByte s.srcCur.toNat := by rw [h.srcCur]; exact h.buffer.2 _ hin
      simp only [State.copyLiterals, State.readU8_of_lt hin, State.readU8_of_lt hin', hbyte]
      generalize hx : (s.advance 1).outAppend (s.inByte s.srcCur.toNat) = x,
        hx' : (s'.advance 1).outAppend (s.inByte s.srcCur.toNat) = x'
      cases hx ▸ hx' ▸ (h.advance 1).outAppend (s.inByte s.srcCur.toNat) with
      | ok h1 => exact ih h1
      | error e => exact .error e
    · have hge : s.inLen.toNat ≤ s.srcCur.toNat := Nat.not_lt.mp hin
      have hge' : s'.inLen.toNat ≤ s'.srcCur.toNat := by rw [h.srcCur, h.inLen]; exact hge
      simp only [State.copyLiterals, State.readU8_of_ge hge, State.readU8_of_ge hge']
      exact .error _

end

/-! ## Two DECODEs side by side -/

/-- What the host sees of the outcome of a DECODE (R146). -/
structure State.SameResult (t t' : State) : Prop where
  status : t'.status = t.status
  errCode : t'.errCode = t.errCode
  outLen : t'.outLen = t.outLen
  out : ∀ i, i < t.outLen.toNat → t'.outByte i = t.outByte i
  srcCur : t.status = .done → t'.srcCur = t.srcCur

/-- The states in which DECODE's own run stands between two transitions: each transition at dispatch runs a whole token, so
that none leaves it in the handling state of an LZ, RLE or RAW token. -/
def DState.betweenTokens : DState → Bool
  | .readingHeader => true
  | .dispatchingToken => true
  | .handlingLZ => false
  | .handlingLZC => true
  | .handlingRLE => false
  | .handlingRAW => false
  | .done => true
  | .failed => false

/-- Two DECODEs after the same number of transitions. -/
inductive Paired (s s' : State) : Prop
  | running (r : DecoderRegs) (he : s.engine = .decoding r) (he' : s'.engine = .decoding r)
      (hd : r.dstate.betweenTokens = true) (h : s.Twin s')
  | failed (r r' : DecoderRegs) (he : s.engine = .decoding r) (he' : s'.engine = .decoding r')
      (hd : r.dstate = .failed) (hd' : r'.dstate = .failed) (h : s.SameResult s')
  | ended (he : s.engine = .idle) (he' : s'.engine = .idle) (h : s.SameResult s')

/-- Both transitions go on, or fail alike. -/
def PairedOutcome (o o' : Host.Outcome State Fault Refusal) : Prop := ∃ t t', o = .next t ∧ o' = .next t' ∧ Paired t t'

section
variable {s s' : State}

/-- Two failures by the same error look the same, wherever the transitions stood. -/
theorem Paired.of_decodeFailed {t t' : State} {e : ErrKind} (h : s.DecodeFailed t e) (h' : s'.DecodeFailed t' e) :
    Paired t t' := by
  obtain ⟨r, he, hd⟩ := h.failed
  obtain ⟨r', he', hd'⟩ := h'.failed
  refine .failed r r' he he' hd hd' ⟨h'.status.trans h.status.symm, h'.errCode.trans h.errCode.symm,
    h'.outLen.trans h.outLen.symm, fun i hi => ?_, fun hs => ?_⟩
  · rw [h.outLen] at hi
    exact absurd hi (Nat.not_lt_zero i)
  · rw [h.status] at hs
    cases hs

theorem PairedOutcome.of_decodeFailed {o o' : Host.Outcome State Fault Refusal} {e : ErrKind}
    (h : ∃ t, o = .next t ∧ s.DecodeFailed t e) (h' : ∃ t', o' = .next t' ∧ s'.DecodeFailed t' e) : PairedOutcome o o' := by
  obtain ⟨t, ht, hf⟩ := h
  obtain ⟨t', ht', hf'⟩ := h'
  exact ⟨t, t', ht, ht', .of_decodeFailed hf hf'⟩

theorem State.Twin.toState (h : s.Twin s') (r : DecoderRegs) {d : DState} (hd : d.betweenTokens = true) :
    PairedOutcome (toState r d s) (toState r d s') :=
  ⟨_, _, rfl, rfl, .running { r with dstate := d } rfl rfl hd (h.withDecoder _ _)⟩

theorem PairedOutcome.corrupt {r r' : DecoderRegs} (he : s.engine = .decoding r) (he' : s'.engine = .decoding r') :
    PairedOutcome (Machine.corrupt s) (Machine.corrupt s') :=
  .of_decodeFailed (corrupt_decodeFailed he) (corrupt_decodeFailed he')

theorem TwinResult.endToken {x x' : Except ErrKind State} (h : TwinResult x x') (r : DecoderRegs) {d : DState}
    (hd : d.betweenTokens = true) : PairedOutcome (endToken r d s x) (endToken r d s' x') := by
  cases h with
  | ok h1 => exact h1.toState r hd
  | error e => exact .of_decodeFailed (endToken_of_error rfl) (endToken_of_error rfl)

/-- A token in two DECODEs that agree, both in its handling state. -/
theorem State.Twin.runToken (h : s.Twin s') {r : DecoderRegs} {t : Token} (he : s.engine = .decoding r)
    (he' : s'.engine = .decoding r) (hd : r.dstate = handlerState t) :
    PairedOutcome (runToken t s) (runToken t s') := by
  rw [← exec_toInstr, ← exec_toInstr]
  cases t with
  | lz c pos =>
    rw [Token.toInstr, exec_lz he hd, exec_lz he' hd]
    exact (h.copyBack _ _).endToken _ rfl
  | lzc k =>
    rw [Token.toInstr, exec_lzc he hd, exec_lzc he' hd]
    exact (h.copyBack _ _).endToken _ rfl
  | rles x n v =>
    rw [Token.toInstr, exec_rles he hd, exec_rles he' hd]
    exact (h.appendRun _ _).endToken _ rfl
  | rlel x n v =>
    rw [Token.toInstr, exec_rlel he hd, exec_rlel he' hd]
    exact (h.appendRun _ _).endToken _ rfl
  | raws l =>
    rw [Token.toInstr, exec_raws he hd, exec_raws he' hd]
    exact (h.copyLiterals _).endToken _ rfl
  | rawl lh ll =>
    rw [Token.toInstr, exec_rawl he hd, exec_rawl he' hd, h.mode]
    exact (h.copyLiterals _).endToken _ rfl

/-! ## One transition of both -/

section
variable {r : DecoderRegs}

theorem State.Twin.readHeader (h : s.Twin s') (he : s.engine = .decoding r) (he' : s'.engine = .decoding r) :
    PairedOutcome (readHeader r s) (readHeader r s') := by
  by_cases hin : s.srcCur.toNat + 3 ≤ s.inLen.toNat
  · have hin' : s'.srcCur.toNat + 3 ≤ s'.inLen.toNat := by rw [h.srcCur, h.inLen]; exact hin
    rw [readHeader_of_le hin, readHeader_of_le hin', h.nextByte_eq (n := 0) (by omega), h.nextByte_eq (n := 1) (by omega),
      h.nextByte_eq (n := 2) (by omega)]
    refine ⟨_, _, rfl, rfl, .running _ rfl rfl ?_ ((h.advance 2).withDecoder _ _)⟩
    rw [DecoderRegs.withHeader]
    split <;> rfl
  · have hout : s.inLen.toNat < s.srcCur.toNat + 3 := Nat.not_le.mp hin
    exact .of_decodeFailed (readHeader_of_gt he hout) (readHeader_of_gt he' (by rw [h.srcCur, h.inLen]; exact hout))

theorem State.Twin.dispatchToken (h : s.Twin s') (he : s.engine = .decoding r) (he' : s'.engine = .decoding r) :
    PairedOutcome (dispatchToken r s) (dispatchToken r s') := by
  have hbytes := h.streamBytes 3
  by_cases hlt : s.srcCur.toNat < r.endAddr.toNat
  · have hlt' : s'.srcCur.toNat < r.endAddr.toNat := by rw [h.srcCur]; exact hlt
    cases hdec : decodeToken .dispatch (s.streamBytes 3) with
    | error e =>
      exact .of_decodeFailed (dispatchToken_of_error he hlt hdec)
        (dispatchToken_of_error he' hlt' ((congrArg _ hbytes).trans hdec))
    | ok p =>
      obtain ⟨t, rest⟩ := p
      by_cases hin : s.srcCur.toNat < s.inLen.toNat
      · have hctrl : nextByte s' 0 = nextByte s 0 := h.nextByte_eq hin
        have hclass : handlerState t = handlerOf (classOf (nextByte s 0)) := by
          rw [State.streamBytes_succ hin] at hdec
          exact (decodeAtDispatch_ok hdec).1
        rw [dispatchToken_of_ok hlt hdec, dispatchToken_of_ok hlt' ((congrArg _ hbytes).trans hdec), behindHead, behindHead,
          hctrl]
        exact ((h.advance _).withDecoder _ _).runToken rfl rfl hclass.symm
      · rw [State.streamBytes_of_ge (Nat.not_lt.mp hin)] at hdec
        cases hdec
  · have hge : r.endAddr.toNat ≤ s.srcCur.toNat := Nat.not_lt.mp hlt
    rw [dispatchToken_of_ge hge, dispatchToken_of_ge (s := s') (by rw [h.srcCur]; exact hge), endCheck, endCheck, h.srcCur]
    split
    · exact h.toState r rfl
    · exact PairedOutcome.corrupt he he'

theorem State.Twin.continuationTest (h : s.Twin s') (he : s.engine = .decoding r) (he' : s'.engine = .decoding r)
    (hd : r.dstate = .handlingLZC) : PairedOutcome (continuationTest r s) (continuationTest r s') := by
  rw [Machine.continuationTest, Machine.continuationTest, h.streamBytes 1]
  split
  next t rest hdec =>
    obtain ⟨⟨k, rfl⟩, -⟩ := decodeContinuation_ok hdec
    exact ((h.advance 1).withDecoder r r).runToken rfl rfl hd
  next => exact h.toState r rfl
  next => exact PairedOutcome.corrupt he he'
  next => exact PairedOutcome.corrupt he he'

theorem State.Twin.decoderStep (h : s.Twin s') (he : s.engine = .decoding r) (he' : s'.engine = .decoding r)
    (hd : r.dstate.betweenTokens = true) : PairedOutcome (decoderStep r s) (decoderStep r s') := by
  rw [Machine.decoderStep, Machine.decoderStep]
  cases hr : r.dstate with
  | readingHeader => exact h.readHeader he he'
  | dispatchingToken => exact h.dispatchToken he he'
  | handlingLZC => exact h.continuationTest he he' hr
  | done => exact ⟨_, _, rfl, rfl, .ended rfl rfl ⟨rfl, rfl, h.outLen, h.out, fun _ => h.srcCur⟩⟩
  | handlingLZ | handlingRLE | handlingRAW | failed => rw [hr] at hd; cases hd

end

/-! ## Both runs -/

theorem decoderRun_of_idle (n : Nat) (he : s.engine = .idle) : decoderRun n s = .next s := by
  cases n with
  | zero => rfl
  | succ n => simp only [decoderRun, he]

theorem decoderRun_succ {r : DecoderRegs} {t : State} (n : Nat) (he : s.engine = .decoding r)
    (h : decoderStep r s = .next t) : decoderRun (n + 1) s = decoderRun n t := by
  simp only [decoderRun, he, h]

theorem Paired.decoderRun (n : Nat) (h : Paired s s') : PairedOutcome (decoderRun n s) (decoderRun n s') := by
  induction n generalizing s s' with
  | zero => exact ⟨s, s', rfl, rfl, h⟩
  | succ n ih =>
    cases h with
    | running r he he' hd h =>
      obtain ⟨t, t', ht, ht', hp⟩ := h.decoderStep he he' hd
      rw [decoderRun_succ n he ht, decoderRun_succ n he' ht']
      exact ih hp
    | failed r r' he he' hd hd' h =>
      have hstep : decoderStep r s = .next s.endCommand := by rw [Machine.decoderStep, hd]
      have hstep' : decoderStep r' s' = .next s'.endCommand := by rw [Machine.decoderStep, hd']
      rw [decoderRun_succ n he hstep, decoderRun_succ n he' hstep']
      exact ih (.ended rfl rfl ⟨h.status, h.errCode, h.outLen, h.out, h.srcCur⟩)
    | ended he he' h =>
      rw [decoderRun_of_idle _ he, decoderRun_of_idle _ he']
      exact ⟨s, s', rfl, rfl, .ended he he' h⟩

theorem Paired.sameResult (h : Paired s s') (hidle : s.engine = .idle) : s.SameResult s' := by
  cases h with
  | running r he _ _ _ => rw [hidle] at he; cases he
  | failed r r' he _ _ _ _ => rw [hidle] at he; cases he
  | ended _ _ h => exact h

/-- Behind their entries the two DECODEs agree. -/
theorem paired_decodeEntry (hwf : s.outMem.wf = true) (hwf' : s'.outMem.wf = true) (hbuf : SameBuffer s s')
    (harg : s'.arg = s.arg) (hcap : s'.cfg.outCap = s.cfg.outCap) (hmode : s'.cfg.rawLongMode = s.cfg.rawLongMode) :
    Paired (decodeEntry s) (decodeEntry s') :=
  .running (DecoderRegs.enter s.arg) rfl (by rw [← harg]; rfl) rfl
    { buffer := hbuf, srcCur := harg, outLen := rfl, outCap := hcap, mode := hmode, wf := hwf, wf' := hwf'
      out := fun i hi => absurd hi (Nat.not_lt_zero i), room := Nat.zero_le _ }

theorem exec_decode_sameResult {t t' : State} (hwf : s.outMem.wf = true) (hwf' : s'.outMem.wf = true)
    (hbuf : SameBuffer s s') (harg : s'.arg = s.arg) (hcap : s'.cfg.outCap = s.cfg.outCap)
    (hmode : s'.cfg.rawLongMode = s.cfg.rawLongMode) (h : exec .decode s = .next t) (h' : exec .decode s' = .next t') :
    t.SameResult t' := by
  have hlen : s'.inLen = s.inLen := hbuf.1
  by_cases hle : s.arg.toNat ≤ s.inLen.toNat
  · obtain ⟨v, hv, hidle, -⟩ := exec_decode_ends hle
    rw [h] at hv
    cases hv
    rw [exec_decode_of_le hle] at h
    rw [exec_decode_of_le (by rw [harg, hlen]; exact hle), decodeFuel, hlen, ← decodeFuel] at h'
    obtain ⟨u, u', hu, hu', hp⟩ := (paired_decodeEntry hwf hwf' hbuf harg hcap hmode).decoderRun (decodeFuel s)
    rw [h] at hu
    rw [h'] at hu'
    cases hu
    cases hu'
    exact hp.sameResult hidle
  · have hgt : s.inLen.toNat < s.arg.toNat := Nat.not_le.mp hle
    rw [exec_decode_of_gt hgt] at h
    rw [exec_decode_of_gt (by rw [harg, hlen]; exact hgt)] at h'
    cases h
    cases h'
    exact ⟨rfl, rfl, rfl, fun i hi => absurd hi (Nat.not_lt_zero i), fun hs => by cases hs⟩

end

/-- Settles O40: the two runs go through states that agree on all a transition reads, until both end alike. -/
theorem decodeDependsOnItsInputAlone : Obligations.DecodeDependsOnItsInputAlone := by
  unfold Obligations.DecodeDependsOnItsInputAlone
  intro s s' t t' _ _ hwf hwf' hbuf harg hcap hmode h h'
  obtain ⟨hstatus, hcode, hlen, hout, hcur⟩ := exec_decode_sameResult hwf hwf' hbuf harg hcap hmode h h'
  exact ⟨hstatus, hcode, hlen, hout, hcur⟩

end Sys2Proof.Machine
end

section
/-! SUPPORT. DECODE of a well-formed stream: each item, read where it stands, takes the output on to what the item means on
byte lists (41_decoder.md R131 to R143; 70_reset_and_hazards.md R274, R275, R277). -/

namespace Sys2Proof.Machine

/-! ## Byte lists in memory -/

/-- A list stands at an address exactly when each of its bytes does. -/
theorem Memory.bytes_eq_list_iff (m : Memory) (a : Nat) (bs : List Byte) :
    m.bytes a bs.length = bs ↔ ∀ k, k < bs.length → m.read (a + k) = bs.getD k 0#8 := by
  constructor
  · intro h k hk
    rw [← Memory.bytes_getD m a bs.length k 0#8 hk, h]
  · intro h
    refine List.ext_getElem (Memory.bytes_length m a _) fun k hk hk' => ?_
    rw [← List.getD_eq_getElem _ 0#8 hk, ← List.getD_eq_getElem _ 0#8 hk', Memory.bytes_getD m a _ k _ hk', h k hk']

theorem Memory.bytes_append_iff (m : Memory) (a : Nat) (bs cs : List Byte) :
    m.bytes a (bs ++ cs).length = bs ++ cs ↔
      m.bytes a bs.length = bs ∧ m.bytes (a + bs.length) cs.length = cs := by
  rw [List.length_append, Memory.bytes_add]
  exact ⟨fun h => List.append_inj h (Memory.bytes_length m a _), fun ⟨h1, h2⟩ => by rw [h1, h2]⟩

/-! ## The output as a byte list -/

theorem State.appendAll_singleton (v : Byte) (s : State) : s.appendAll [v] = s.outAppend v := by
  rw [State.appendAll]
  cases s.outAppend v <;> rfl

/-- OUT holds a byte list below OUT_LEN, within its capacity. -/
structure State.HoldsOut (s : State) (out : List Byte) : Prop where
  wf : s.outMem.wf = true
  length : s.outLen.toNat = out.length
  room : out.length ≤ s.cfg.outCap.toNat
  bytes : ∀ i, i < out.length → s.outByte i = out.getD i 0#8

section
variable {s t : State} {out out' : List Byte}

theorem State.HoldsOut.bytes_eq (h : s.HoldsOut out) : s.outMem.bytes 0 out.length = out :=
  (Memory.bytes_eq_list_iff _ 0 out).mpr fun k hk => by rw [Nat.zero_add]; exact h.bytes k hk

theorem State.HoldsOut.of_out (h : s.HoldsOut out) (hmem : t.outMem = s.outMem) (hlen : t.outLen = s.outLen)
    (hcfg : t.cfg = s.cfg) : t.HoldsOut out where
  wf := by rw [hmem]; exact h.wf
  length := by rw [hlen]; exact h.length
  room := by rw [hcfg]; exact h.room
  bytes i hi := by rw [State.outByte, hmem]; exact h.bytes i hi

/-- Bytes appended to OUT are appended to its list. -/
theorem State.HoldsOut.appended (h : s.HoldsOut out) {bs : List Byte} (happ : s.Appended t bs.length fun k => bs.getD k 0#8)
    (hwf : t.outMem.wf = true) (hcfg : t.cfg = s.cfg) (hroom : (out ++ bs).length ≤ s.cfg.outCap.toNat) :
    t.HoldsOut (out ++ bs) where
  wf := hwf
  length := by rw [happ.length, h.length, List.length_append]
  room := by rw [hcfg]; exact hroom
  bytes i hi := by
    by_cases hlt : i < out.length
    · rw [happ.others i (.inl (by rw [h.length]; exact hlt)), h.bytes i hlt, List.getD_append _ _ _ _ hlt]
    · have hge : out.length ≤ i := Nat.not_lt.mp hlt
      rw [List.length_append] at hi
      have hb := happ.bytes (i - out.length) (by omega)
      rw [h.length, Nat.add_sub_cancel' hge] at hb
      rw [hb, List.getD_append_right _ _ _ _ hge]

theorem State.HoldsOut.appendAll (h : s.HoldsOut out) (bs : List Byte) (hroom : (out ++ bs).length ≤ s.cfg.outCap.toNat) :
    ∃ t, s.appendAll bs = .ok t ∧ t.HoldsOut (out ++ bs) := by
  obtain ⟨t, ht, happ, hwf⟩ := State.appendAll_spec (bs := bs) h.wf (by rw [h.length, ← List.length_append]; exact hroom)
  exact ⟨t, ht, h.appended happ hwf (State.appendAll_outOnly ht).cfg hroom⟩

theorem State.HoldsOut.appendRun (h : s.HoldsOut out) (v : Byte) (n : Nat)
    (hroom : (out ++ List.replicate n v).length ≤ s.cfg.outCap.toNat) :
    ∃ t, s.appendRun v n = .ok t ∧ t.HoldsOut (out ++ List.replicate n v) := by
  rw [State.appendRun_eq_appendAll]
  exact h.appendAll _ hroom

/-- Literals that stand at SRC_CUR are appended (R140, R141). -/
theorem State.HoldsOut.copyLiterals (h : s.HoldsOut out) {lits : List Byte}
    (hlits : s.inMem.bytes s.srcCur.toNat lits.length = lits) (hin : s.srcCur.toNat + lits.length ≤ s.inLen.toNat)
    (hroom : (out ++ lits).length ≤ s.cfg.outCap.toNat) :
    ∃ t, s.copyLiterals lits.length = .ok t ∧ t.HoldsOut (out ++ lits) := by
  obtain ⟨t, ht, happ, hwf⟩ := State.copyLiterals_spec h.wf hin (by rw [h.length, ← List.length_append]; exact hroom)
  have hcfg : t.cfg = s.cfg := by rw [State.copyLiterals_frame ht]
  exact ⟨t, ht, h.appended (happ.congr ((Memory.bytes_eq_list_iff _ _ _).mp hlits)) hwf hcfg hroom⟩

theorem copyOut_length {pos n : Nat} {out out' : List Byte} (h : copyOut pos n out = some out') :
    out'.length = out.length + n := by
  induction n generalizing out with
  | zero => cases h; rfl
  | succ n ih =>
    rw [copyOut] at h
    split at h
    · rw [ih h, List.length_append, List.length_singleton]; omega
    · cases h

/-- The machine's back-copy is the one on lists (R136, R137). -/
theorem State.HoldsOut.copyBack (h : s.HoldsOut out) {pos n : Nat} (hcopy : copyOut pos n out = some out')
    (hroom : out'.length ≤ s.cfg.outCap.toNat) : ∃ t, s.copyBack pos n = .ok t ∧ t.HoldsOut out' := by
  induction n generalizing s out with
  | zero => cases hcopy; exact ⟨s, rfl, h⟩
  | succ n ih =>
    have hlen := copyOut_length hcopy
    rw [copyOut] at hcopy
    split at hcopy
    next hpos =>
      have hback : s.backRef pos = .ok (out.getD (out.length - pos) 0#8) := by
        rw [State.backRef_eq, h.length, if_neg (by omega), h.bytes _ (by omega)]
      obtain ⟨t, ht, hout⟩ := h.appendAll [out.getD (out.length - pos) 0#8]
        (by rw [List.length_append, List.length_singleton]; omega)
      rw [State.appendAll_singleton] at ht
      have hcfg := (State.OutOnly.appended ht).cfg
      obtain ⟨u, hu, hres⟩ := ih hout hcopy (by rw [hcfg]; exact hroom)
      exact ⟨u, by simp only [State.copyBack, hback, ht, hu], hres⟩
    next => cases hcopy

end

/-! ## The meaning of a stream on byte lists -/

theorem Item.apply_length {i : Item} {st st' : List Byte × Nat} (h : i.apply st = some st') :
    st.1.length ≤ st'.1.length := by
  unfold Item.apply at h
  cases htok : i.tok with
  | lz c pos | lzc k =>
    simp only [htok, Option.map_eq_some_iff] at h
    obtain ⟨out, hout, rfl⟩ := h
    rw [copyOut_length hout]
    exact Nat.le_add_right _ _
  | rles x n v | rlel x n v | raws l | rawl lh ll =>
    simp only [htok, Option.some.injEq] at h
    rw [← h, List.length_append]
    exact Nat.le_add_right _ _

theorem applyItems_cons {i : Item} {is : List Item} {st st' : List Byte × Nat} (h : applyItems (i :: is) st = some st') :
    ∃ st1, i.apply st = some st1 ∧ applyItems is st1 = some st' := by
  rw [applyItems] at h
  split at h
  next st1 h1 => exact ⟨st1, h1, h⟩
  next => cases h

theorem applyItems_length {is : List Item} {st st' : List Byte × Nat} (h : applyItems is st = some st') :
    st.1.length ≤ st'.1.length := by
  induction is generalizing st with
  | nil => cases h; exact Nat.le_refl _
  | cons i is ih =>
    obtain ⟨st1, h1, h2⟩ := applyItems_cons h
    exact Nat.le_trans (Item.apply_length h1) (ih h2)

/-- Whether the decoder stands at its continuation test behind a list of items. -/
def continuationAfter : Bool → List Item → Bool
  | cont, [] => cont
  | _, i :: is => continuationAfter i.tok.opensContinuation is

theorem continuationAfter_false (items : List Item) : continuationAfter false items = endsAtContinuation items := by
  have hgen : ∀ (cont : Bool) (is : List Item), continuationAfter cont is =
      (is.getLast?.map fun i => i.tok.opensContinuation).getD cont := by
    intro cont is
    induction is generalizing cont with
    | nil => rfl
    | cons i is ih => rw [continuationAfter, ih, List.getLast?_cons]; cases is.getLast? <;> rfl
  rw [hgen, endsAtContinuation]
  cases items.getLast? <;> rfl

/-! ## Tokens as bytes -/

theorem encodeToken_length (t : Token) : (encodeToken t).length = headLength t := by
  cases t <;> rfl

theorem Item.bytes_length (i : Item) : i.bytes.length = headLength i.tok + i.lits.length := by
  rw [Item.bytes, List.length_append, encodeToken_length]

theorem headLength_bounds (t : Token) : 1 ≤ headLength t ∧ headLength t ≤ 3 := by
  cases t <;> simp [headLength]

theorem Item.bytes_pos (i : Item) : 1 ≤ i.bytes.length := by
  rw [i.bytes_length]
  exact Nat.le_trans (headLength_bounds i.tok).1 (Nat.le_add_right _ _)

/-- A token's first byte is 0 for RAWS 0 only (R277). -/
theorem encodeToken_head_ne_zero {t : Token} (h : t ≠ .raws 0#5) : (encodeToken t).getD 0 0#8 ≠ 0x00#8 := by
  intro hz
  have hnat := congrArg BitVec.toNat hz
  cases t with
  | lz c pos =>
    simp only [encodeToken_lz, List.getD_cons_zero, lzControlByte_toNat, BitVec.toNat_ofNat] at hnat
    omega
  | lzc k =>
    simp only [encodeToken_lzc, List.getD_cons_zero, taggedControlByte_toNat, BitVec.toNat_ofNat] at hnat
    omega
  | rles x n v =>
    simp only [encodeToken_rles, List.getD_cons_zero, rleControlByte_toNat, BitVec.toNat_ofNat] at hnat
    omega
  | rlel x n v =>
    simp only [encodeToken_rlel, List.getD_cons_zero, rleControlByte_toNat, BitVec.toNat_ofNat] at hnat
    omega
  | raws l =>
    simp only [encodeToken_raws, List.getD_cons_zero, taggedControlByte_toNat, BitVec.toNat_ofNat] at hnat
    refine h (congrArg Token.raws (BitVec.eq_of_toNat_eq ?_))
    rw [BitVec.toNat_ofNat]
    omega
  | rawl lh ll =>
    simp only [encodeToken_rawl, List.getD_cons_zero, taggedControlByte_toNat, BitVec.toNat_ofNat] at hnat
    omega

/-- The continuation test looks at one byte only. -/
theorem notContinuation_iff {c : Byte} {bs : List Byte} :
    decodeToken .continuation (c :: bs) = .error .notContinuation ↔ isContinuation c = false := by
  rw [decodeToken]
  cases isContinuation c <;> simp

/-! ## Transitions one after another -/

/-- One transition of a running DECODE. -/
def DecodeStep (s t : State) : Prop := ∃ r, s.engine = .decoding r ∧ decoderStep r s = .next t

/-- A DECODE that reaches an idle state by transitions ends there. -/
theorem decoderRun_of_reaches {n : Nat} {s t u : State} (h : Relation.ReflTransGen DecodeStep s t) (ht : t.engine = .idle)
    (hrun : decoderRun n s = .next u) (hu : u.engine = .idle) : u = t := by
  induction h using Relation.ReflTransGen.head_induction_on generalizing n with
  | refl =>
    rw [decoderRun_of_idle n ht] at hrun
    cases hrun
    rfl
  | head hstep _ ih =>
    obtain ⟨r, he, hnext⟩ := hstep
    cases n with
    | zero =>
      cases hrun
      rw [hu] at he
      cases he
    | succ n =>
      rw [decoderRun_succ n he hnext] at hrun
      exact ih hrun

theorem exec_decode_of_reaches {s t : State} (harg : s.arg.toNat ≤ s.inLen.toNat)
    (h : Relation.ReflTransGen DecodeStep (decodeEntry s) t) (ht : t.engine = .idle) : exec .decode s = .next t := by
  obtain ⟨u, hu, hidle, -⟩ := exec_decode_ends harg
  have hut : u = t := decoderRun_of_reaches h ht ((exec_decode_of_le harg).symm.trans hu) hidle
  rw [hu, hut]

/-! ## An item in its handling state -/

section
variable {s : State} {r : DecoderRegs} {i : Item} {st st' : List Byte × Nat}

/-- The state t behind an item that ran in state s: what the item means, SRC_CUR behind its literals, and nothing else
changed. -/
structure RanItem (s : State) (r : DecoderRegs) (i : Item) (st' : List Byte × Nat) (t : State) (r' : DecoderRegs) :
    Prop where
  frame : t = { s with outMem := t.outMem, outLen := t.outLen, srcCur := t.srcCur }
  srcCur : t.srcCur.toNat = s.srcCur.toNat + i.lits.length
  out : t.HoldsOut st'.1
  pos : r'.pos.toNat = st'.2
  dstate : r'.dstate = nextState i.tok
  endAddr : r'.endAddr = r.endAddr

/-- Where OUT alone was appended to, the item has no literals. -/
theorem RanItem.of_outOnly {t : State} {r' : DecoderRegs} (h : s.OutOnly t) (hlits : i.lits.length = 0)
    (hout : t.HoldsOut st'.1) (hpos : r'.pos.toNat = st'.2) (hd : r'.dstate = nextState i.tok)
    (hend : r'.endAddr = r.endAddr) : RanItem s r i st' t r' where
  frame := by rw [h.same]
  srcCur := by rw [h.srcCur, hlits, Nat.add_zero]
  out := hout
  pos := hpos
  dstate := hd
  endAddr := hend

theorem RanItem.of_copyLiterals {t : State} {r' : DecoderRegs} (h : s.copyLiterals i.lits.length = .ok t)
    (hout : t.HoldsOut st'.1) (hpos : r'.pos.toNat = st'.2) (hd : r'.dstate = nextState i.tok)
    (hend : r'.endAddr = r.endAddr) : RanItem s r i st' t r' where
  frame := by rw [State.copyLiterals_frame h]
  srcCur := (State.copyLiterals_srcCur h).1
  out := hout
  pos := hpos
  dstate := hd
  endAddr := hend

/-- In its handling state an item does what it means (R136 to R141). -/
theorem runToken_item (he : s.engine = .decoding r) (hd : r.dstate = handlerState i.tok) (hout : s.HoldsOut st.1)
    (hpos : r.pos.toNat = st.2) (hfit : i.fits s.cfg.rawLongMode = true)
    (hlits : s.inMem.bytes s.srcCur.toNat i.lits.length = i.lits) (hin : s.srcCur.toNat + i.lits.length ≤ s.inLen.toNat)
    (happ : i.apply st = some st') (hroom : st'.1.length ≤ s.cfg.outCap.toNat) :
    ∃ t r', runToken i.tok s = .next (t.withDecoder r') ∧ RanItem s r i st' t r' := by
  rw [← exec_toInstr]
  simp only [Item.fits, beq_iff_eq] at hfit
  unfold Item.apply at happ
  cases htok : i.tok with
  | lz c pos =>
    simp only [htok, Option.map_eq_some_iff] at happ hd hfit
    obtain ⟨out, hcopy, rfl⟩ := happ
    obtain ⟨t, ht, hres⟩ := hout.copyBack hcopy hroom
    rw [Token.toInstr, exec_lz he hd]
    rw [lzCount] at ht
    rw [ht]
    exact ⟨t, _, rfl, .of_outOnly (State.copyBack_outOnly ht) hfit hres rfl (by rw [htok]; rfl) rfl⟩
  | lzc k =>
    simp only [htok, Option.map_eq_some_iff] at happ hd hfit
    obtain ⟨out, hcopy, rfl⟩ := happ
    rw [← hpos] at hcopy
    obtain ⟨t, ht, hres⟩ := hout.copyBack hcopy hroom
    rw [Token.toInstr, exec_lzc he hd]
    rw [lzcCount] at ht
    rw [ht]
    exact ⟨t, _, rfl, .of_outOnly (State.copyBack_outOnly ht) hfit hres hpos (by rw [htok]; rfl) rfl⟩
  | rles x n v =>
    simp only [htok, Option.some.injEq] at happ hd hfit
    rw [← happ] at hroom ⊢
    obtain ⟨t, ht, hres⟩ := hout.appendRun v (rlesCount n) hroom
    rw [Token.toInstr, exec_rles he hd]
    rw [rlesCount] at ht
    rw [ht]
    exact ⟨t, _, rfl, .of_outOnly (State.appendRun_outOnly ht) hfit hres hpos (by rw [htok]; rfl) rfl⟩
  | rlel x n v =>
    simp only [htok, Option.some.injEq] at happ hd hfit
    rw [← happ] at hroom ⊢
    obtain ⟨t, ht, hres⟩ := hout.appendRun v (rlelCount n) hroom
    rw [Token.toInstr, exec_rlel he hd]
    rw [rlelCount] at ht
    rw [ht]
    exact ⟨t, _, rfl, .of_outOnly (State.appendRun_outOnly ht) hfit hres hpos (by rw [htok]; rfl) rfl⟩
  | raws l =>
    simp only [htok, Option.some.injEq] at happ hd hfit
    rw [← happ] at hroom ⊢
    obtain ⟨t, ht, hres⟩ := hout.copyLiterals hlits hin hroom
    rw [Token.toInstr, exec_raws he hd, show l.toNat = i.lits.length from hfit.symm, ht]
    exact ⟨t, _, rfl, .of_copyLiterals ht hres hpos (by rw [htok]; rfl) rfl⟩
  | rawl lh ll =>
    simp only [htok, Option.some.injEq] at happ hd hfit
    rw [← happ] at hroom ⊢
    obtain ⟨t, ht, hres⟩ := hout.copyLiterals hlits hin hroom
    rw [Token.toInstr, exec_rawl he hd, show rawlLength s.cfg.rawLongMode lh ll = i.lits.length from hfit.symm, ht]
    exact ⟨t, _, rfl, .of_copyLiterals ht hres hpos (by rw [htok]; rfl) rfl⟩

end

/-! ## Items in a stream -/

/-- Where a DECODE waits for its next token: at the continuation test or at dispatch. -/
def awaiting (cont : Bool) : DState := if cont then .handlingLZC else .dispatchingToken

theorem nextState_eq_awaiting (t : Token) : nextState t = awaiting t.opensContinuation := by
  cases t <;> rfl

/-- An item that stands in the input at address a, has the literals its token says, and takes the output and position `st` to
`st'` within OUT. -/
structure StandsAt (s0 : State) (a : Nat) (i : Item) (st st' : List Byte × Nat) : Prop where
  fits : i.fits s0.cfg.rawLongMode = true
  held : s0.holdsAt a i.bytes
  inside : a + i.bytes.length ≤ s0.inLen.toNat
  means : i.apply st = some st'
  room : st'.1.length ≤ s0.cfg.outCap.toNat

/-- A DECODE of s0 that stands at address a of a stream whose END is `last`, the tokens before a having meant `st`. -/
structure InStream (s0 : State) (last a : Nat) (st : List Byte × Nat) (cont : Bool) (s : State) : Prop where
  frame : s = { s0 with outMem := s.outMem, outLen := s.outLen, srcCur := s.srcCur, engine := s.engine }
  srcCur : s.srcCur.toNat = a
  out : s.HoldsOut st.1
  regs : ∃ r, s.engine = .decoding r ∧ r.dstate = awaiting cont ∧ r.endAddr.toNat = last ∧ r.pos.toNat = st.2

section
variable {s0 s : State} {last a : Nat} {st st' : List Byte × Nat} {cont : Bool} {i : Item}

theorem InStream.inMem (h : InStream s0 last a st cont s) : s.inMem = s0.inMem := by rw [h.frame]
theorem InStream.inLen (h : InStream s0 last a st cont s) : s.inLen = s0.inLen := by rw [h.frame]
theorem InStream.cfg (h : InStream s0 last a st cont s) : s.cfg = s0.cfg := by rw [h.frame]

/-- A byte that is no LZC byte is pushed back, and dispatch follows (R137). -/
theorem InStream.pushBack (h : InStream s0 last a st true s)
    (hdec : decodeToken .continuation (s.streamBytes 1) = .error .notContinuation) :
    ∃ t, DecodeStep s t ∧ InStream s0 last a st false t := by
  obtain ⟨r, he, hd, hend, hpos⟩ := h.regs
  have hstep : decoderStep r s = toState r .dispatchingToken s := by
    rw [decoderStep, hd]
    exact continuationTest_of_notContinuation hdec
  refine ⟨_, ⟨r, he, hstep⟩, ?_, h.srcCur, h.out.of_out rfl rfl rfl, _, rfl, rfl, hend, hpos⟩
  rw [h.frame]
  rfl

/-- The item that stands at SRC_CUR, where its head has been read and its token runs. -/
theorem InStream.ran {n : Nat} {r r1 : DecoderRegs} (h : InStream s0 last a st cont s) (he : s.engine = .decoding r)
    (hpos : r.pos.toNat = st.2) (hend : r.endAddr.toNat = last) (hn : n = headLength i.tok)
    (hr1 : r1.dstate = handlerState i.tok ∧ r1.pos = r.pos ∧ r1.endAddr = r.endAddr)
    (hi : StandsAt s0 a i st st')
    (hstep : decoderStep r s = runToken i.tok ((s.advance n).withDecoder r1)) :
    ∃ t, DecodeStep s t ∧ InStream s0 last (a + i.bytes.length) st' i.tok.opensContinuation t := by
  obtain ⟨hd1, hpos1, hend1⟩ := hr1
  have hlen := i.bytes_length
  have hinside := hi.inside
  have hheld := hi.held
  rw [State.holdsAt, Item.bytes, Memory.bytes_append_iff, encodeToken_length, ← hn] at hheld
  have hcur : ((s.advance n).withDecoder r1).srcCur.toNat = a + n := by
    rw [State.withDecoder_srcCur, State.advance_srcCur_toNat (by rw [h.srcCur, h.inLen]; omega), h.srcCur]
  obtain ⟨t, r', hrun, hran⟩ := runToken_item (s := (s.advance n).withDecoder r1) (i := i) (st := st) rfl hd1
    (h.out.of_out rfl rfl rfl) (by rw [hpos1]; exact hpos)
    (by rw [State.withDecoder_cfg, State.advance_cfg, h.cfg]; exact hi.fits)
    (by rw [hcur, State.withDecoder_inMem, State.advance_inMem, h.inMem]; exact hheld.2)
    (by rw [hcur, State.withDecoder_inLen, State.advance_inLen, h.inLen]; omega) hi.means
    (by rw [State.withDecoder_cfg, State.advance_cfg, h.cfg]; exact hi.room)
  refine ⟨_, ⟨r, he, hstep.trans hrun⟩, ?_, ?_, hran.out.of_out rfl rfl rfl, r', rfl, ?_, ?_, hran.pos⟩
  · rw [hran.frame, h.frame]
    rfl
  · rw [State.withDecoder_srcCur, hran.srcCur, hcur, hlen, hn, Nat.add_assoc]
  · rw [hran.dstate, nextState_eq_awaiting]
  · rw [hran.endAddr, hend1, hend]

/-- The head of the item at SRC_CUR is what the stream's next bytes begin with. -/
theorem InStream.head_bytes (h : InStream s0 last a st cont s) (hi : StandsAt s0 a i st st') {n : Nat}
    (hn : headLength i.tok ≤ n) : ∃ rest, s.streamBytes n = encodeToken i.tok ++ rest := by
  have hlen := i.bytes_length
  have hinside := hi.inside
  have hheld := hi.held
  rw [State.holdsAt, Item.bytes, Memory.bytes_append_iff, encodeToken_length] at hheld
  obtain ⟨rest, hrest⟩ := State.streamBytes_of_le (s := s) hn (by rw [h.srcCur, h.inLen]; omega)
  exact ⟨rest, by rw [hrest, h.inMem, h.srcCur, hheld.1]⟩

theorem InStream.cursor_lt (h : InStream s0 last a st cont s) (hi : StandsAt s0 a i st st') :
    s.srcCur.toNat < s.inLen.toNat := by
  have hpos := i.bytes_pos
  have hinside := hi.inside
  rw [h.srcCur, h.inLen]
  omega

/-- A token read at dispatch (R134). -/
theorem InStream.dispatched (h : InStream s0 last a st false s) (hctx : i.tok.context = .dispatch) (hlt : a < last)
    (hi : StandsAt s0 a i st st') :
    ∃ t, DecodeStep s t ∧ InStream s0 last (a + i.bytes.length) st' i.tok.opensContinuation t := by
  obtain ⟨r, he, hd, hend, hpos⟩ := h.regs
  obtain ⟨rest, hbytes⟩ := h.head_bytes hi (headLength_bounds i.tok).2
  have hdec : decodeToken .dispatch (s.streamBytes 3) = .ok (i.tok, rest) := by
    rw [hbytes, ← hctx]
    exact decodeToken_encodeToken i.tok rest
  have hclass : handlerState i.tok = handlerOf (classOf (nextByte s 0)) := by
    rw [State.streamBytes_succ (h.cursor_lt hi)] at hdec
    exact (decodeAtDispatch_ok hdec).1
  refine h.ran he hpos hend (r1 := { r with ctrl := nextByte s 0, dstate := handlerOf (classOf (nextByte s 0)) }) rfl
    ⟨hclass.symm, rfl, rfl⟩ hi ?_
  rw [decoderStep, hd]
  exact dispatchToken_of_ok (by rw [h.srcCur, hend]; exact hlt) hdec

/-- An LZC byte at the continuation test (R137). -/
theorem InStream.continued (h : InStream s0 last a st true s) {k : BitVec 5} (htok : i.tok = .lzc k)
    (hi : StandsAt s0 a i st st') :
    ∃ t, DecodeStep s t ∧ InStream s0 last (a + i.bytes.length) st' i.tok.opensContinuation t := by
  obtain ⟨r, he, hd, hend, hpos⟩ := h.regs
  obtain ⟨rest, hbytes⟩ := h.head_bytes hi (n := 1) (by rw [htok, headLength])
  have hdec : decodeToken .continuation (s.streamBytes 1) = .ok (i.tok, rest) := by
    rw [hbytes, htok]
    exact decodeToken_encodeToken (.lzc k) rest
  refine h.ran he hpos hend (by rw [htok, headLength]) ⟨by rw [htok]; exact hd, rfl, rfl⟩ hi ?_
  rw [decoderStep, hd]
  exact continuationTest_of_ok hdec

/-- An item that fits where it stands is read, after a push-back where it follows an LZ or LZC and is no LZC itself (R274). -/
theorem InStream.item (h : InStream s0 last a st cont s) (horder : i.tok.fitsAfter cont = true) (hlt : a < last)
    (hi : StandsAt s0 a i st st') :
    ∃ t, Relation.ReflTransGen DecodeStep s t ∧ InStream s0 last (a + i.bytes.length) st' i.tok.opensContinuation t := by
  have hcases : i.tok.context = .dispatch ∨ ∃ k, i.tok = .lzc k := by
    cases i.tok with
    | lzc k => exact .inr ⟨k, rfl⟩
    | lz c pos | rles x n v | rlel x n v | raws l | rawl lh ll => exact .inl rfl
  rcases hcases with hctx | ⟨k, htok⟩
  · cases cont with
    | false =>
      obtain ⟨t, ht, hres⟩ := h.dispatched hctx hlt hi
      exact ⟨t, .single ht, hres⟩
    | true =>
      obtain ⟨rest, hbytes⟩ := h.head_bytes hi (n := 3) (headLength_bounds i.tok).2
      have hdec := decodeToken_continuation_encodeToken horder hctx rest
      rw [← hbytes, State.streamBytes_succ (h.cursor_lt hi)] at hdec
      rw [notContinuation_iff, ← notContinuation_iff (bs := []), ← State.streamBytes_one (h.cursor_lt hi)] at hdec
      obtain ⟨u, hu, hback⟩ := h.pushBack hdec
      obtain ⟨t, ht, hres⟩ := hback.dispatched hctx hlt hi
      exact ⟨t, .head hu (.single ht), hres⟩
  · cases cont with
    | false => rw [htok] at horder; cases horder
    | true =>
      obtain ⟨t, ht, hres⟩ := h.continued htok hi
      exact ⟨t, .single ht, hres⟩

/-- The items that stand from SRC_CUR up to END are read one after another. -/
theorem InStream.items {items : List Item} (h : InStream s0 last a st cont s)
    (horder : Token.orderWf cont (items.map Item.tok) = true) (hlast : a + (bodyBytes items).length = last)
    (hfits : items.all (Item.fits s0.cfg.rawLongMode) = true) (hheld : s0.holdsAt a (bodyBytes items))
    (hin : last ≤ s0.inLen.toNat) (happ : applyItems items st = some st') (hroom : st'.1.length ≤ s0.cfg.outCap.toNat) :
    ∃ t, Relation.ReflTransGen DecodeStep s t ∧ InStream s0 last last st' (continuationAfter cont items) t := by
  induction items generalizing s a st cont with
  | nil =>
    cases happ
    obtain rfl : a = last := hlast
    exact ⟨s, .refl, h⟩
  | cons i is ih =>
    obtain ⟨st1, happ1, happ2⟩ := applyItems_cons happ
    simp only [List.map_cons, Token.orderWf, Bool.and_eq_true] at horder
    rw [List.all_cons, Bool.and_eq_true] at hfits
    rw [bodyBytes, List.flatMap_cons, List.length_append, ← Nat.add_assoc] at hlast
    rw [State.holdsAt, bodyBytes, List.flatMap_cons, Memory.bytes_append_iff] at hheld
    have hpos := i.bytes_pos
    obtain ⟨u, hu, hnext⟩ := h.item horder.1 (by omega)
      ⟨hfits.1, hheld.1, by omega, happ1, Nat.le_trans (applyItems_length happ2) hroom⟩
    obtain ⟨t, ht, hres⟩ := ih hnext horder.2 hlast hfits.2 hheld.2 happ2
    exact ⟨t, hu.trans ht, hres⟩

/-! ## The two ends of a stream -/

/-- The header of a stream: END behind its last token, and a third byte that is no empty escape (R132, R133). -/
theorem InStream.header {items : List Item} (hwf : s.outMem.wf = true) (hne : items ≠ [])
    (horder : Token.streamWf (items.map Item.tok) = true) (hlen : declaredLength items ≤ 0xFFFF)
    (hin : s.arg.toNat + declaredLength items ≤ s.inLen.toNat) (hheld : s.holdsAt s.arg.toNat (streamBytes items)) :
    ∃ t, DecodeStep (decodeEntry s) t ∧
      InStream s (s.arg.toNat + declaredLength items) (s.arg.toNat + 2) ([], 0) false t := by
  obtain ⟨i, is, rfl⟩ := List.exists_cons_of_ne_nil hne
  have hpos := i.bytes_pos
  have hbody : (bodyBytes (i :: is)).length = i.bytes.length + (bodyBytes is).length := by
    rw [bodyBytes, List.flatMap_cons, List.length_append, bodyBytes]
  have hthree : s.arg.toNat + 3 ≤ s.inLen.toNat := by rw [declaredLength] at hin; omega
  have hread := (Memory.bytes_eq_list_iff _ _ _).mp hheld
  rw [streamBytes, List.length_cons, List.length_cons] at hread
  have h0 : nextByte (decodeEntry s) 0 = BitVec.ofNat 8 (declaredLength (i :: is)) := hread 0 (by omega)
  have h1 : nextByte (decodeEntry s) 1 = BitVec.ofNat 8 (declaredLength (i :: is) >>> 8) := hread 1 (by omega)
  have h2 : nextByte (decodeEntry s) 2 = (bodyBytes (i :: is)).getD 0 0#8 := hread 2 (by omega)
  have hvalue : headerValue (nextByte (decodeEntry s) 0) (nextByte (decodeEntry s) 1) = declaredLength (i :: is) := by
    rw [h0, h1, headerValue, BitVec.toNat_ofNat, BitVec.toNat_ofNat, Nat.shiftRight_eq_div_pow]
    omega
  have hthird : nextByte (decodeEntry s) 2 ≠ 0x00#8 := by
    have htok : i.tok ≠ .raws 0#5 := by
      intro heq
      simp [Token.streamWf, heq] at horder
    rw [h2, bodyBytes, List.flatMap_cons, Item.bytes, List.append_assoc,
      List.getD_append _ _ _ _ (by rw [encodeToken_length]; exact (headLength_bounds i.tok).1)]
    exact encodeToken_head_ne_zero htok
  have hstep := readHeader_of_le (s := decodeEntry s) (r := DecoderRegs.enter s.arg) hthree
  rw [if_neg hthird, hvalue] at hstep
  refine ⟨_, ⟨DecoderRegs.enter s.arg, rfl, hstep⟩, rfl, ?_,
    ⟨hwf, rfl, Nat.zero_le _, fun i hi => absurd hi (Nat.not_lt_zero i)⟩, _, rfl, rfl, ?_, rfl⟩
  · exact State.advance_srcCur_toNat (s := decodeEntry s) (n := 2) (Nat.le_of_succ_le hthree)
  · rw [← hvalue, DecoderRegs.withHeader_endAddr_toNat]
    rfl

/-- At END the command ends with success (R142, R143). -/
theorem InStream.finish (h : InStream s0 last last st false s) :
    Relation.ReflTransGen DecodeStep s s.succeed.endCommand := by
  obtain ⟨r, he, hd, hend, -⟩ := h.regs
  have hcheck : decoderStep r s = toState r .done s := by
    rw [decoderStep, hd]
    show dispatchToken r s = _
    rw [dispatchToken_of_ge (by rw [hend, h.srcCur]), endCheck, if_pos (by rw [hend, h.srcCur])]
  exact .head ⟨r, he, hcheck⟩ (.single ⟨{ r with dstate := .done }, rfl, rfl⟩)

/-- Behind a last LZ or LZC token the byte at END is pushed back first (R275). -/
theorem InStream.close (h : InStream s0 last last st cont s)
    (hclosed : cont = true → last < s0.inLen.toNat ∧ isContinuation (s0.inByte last) = false) :
    ∃ t, Relation.ReflTransGen DecodeStep s t ∧ InStream s0 last last st false t := by
  cases cont with
  | false => exact ⟨s, .refl, h⟩
  | true =>
    obtain ⟨hlt, hbyte⟩ := hclosed rfl
    have hnext : nextByte s 0 = s0.inByte last := by
      rw [nextByte, Nat.add_zero, h.srcCur, State.inByte, h.inMem]
      rfl
    have hdec : decodeToken .continuation (s.streamBytes 1) = .error .notContinuation := by
      rw [State.streamBytes_one (by rw [h.srcCur, h.inLen]; exact hlt), hnext]
      exact notContinuation_iff.mpr hbyte
    obtain ⟨t, ht, hres⟩ := h.pushBack hdec
    exact ⟨t, .single ht, hres⟩

end

/-- Settles O41: the header, the items one after another, the push-back behind a last LZ or LZC, and the end check. -/
theorem decodeOfAStream : Obligations.DecodeOfAStream := by
  unfold Obligations.DecodeOfAStream
  intro s items out pos hidle hwf hne horder hfits hlen hin hheld hclosed happ hroom
  have hbody : s.holdsAt (s.arg.toNat + 2) (bodyBytes items) :=
    ((Memory.bytes_append_iff s.inMem s.arg.toNat
      [BitVec.ofNat 8 (declaredLength items), BitVec.ofNat 8 (declaredLength items >>> 8)] (bodyBytes items)).mp hheld).2
  have htokens := horder
  simp only [Token.streamWf, Bool.and_eq_true] at htokens
  obtain ⟨s1, hstep1, hs1⟩ := InStream.header hwf hne horder hlen hin hheld
  obtain ⟨s2, hstep2, hs2⟩ := hs1.items htokens.1 (by rw [declaredLength, Nat.add_assoc]) hfits hbody hin happ hroom
  rw [continuationAfter_false] at hs2
  obtain ⟨s3, hstep3, hs3⟩ := hs2.close hclosed
  have hreach := ((Relation.ReflTransGen.head hstep1 hstep2).trans hstep3).trans hs3.finish
  refine ⟨s3.succeed.endCommand, exec_decode_of_reaches (by omega) hreach rfl, ?_, hs3.out.length, hs3.out.bytes_eq,
    hs3.srcCur⟩
  show ({ s3 with status := .done, errCode := none, engine := .idle } : State) =
    { s with outMem := s3.outMem, outLen := s3.outLen, srcCur := s3.srcCur, status := .done, errCode := none }
  rw [hs3.frame, ← hidle]

end Sys2Proof.Machine
end

section
/-! SUPPORT. The run detector and the match finder by the bytes they compare (42_encoder.md R173, R174), and the bytes the
encoder emits as the tokens they are (R177 to R179). -/

namespace Sys2Proof.Machine

/-! ## Runs and matches -/

theorem runAt_spec (m : Memory) (v : Byte) (a n : Nat) : ∀ k, k < runAt m v a n → m.read (a + k) = v := by
  induction n generalizing a with
  | zero => exact fun k hk => absurd hk (Nat.not_lt_zero k)
  | succ n ih =>
    intro k hk
    unfold runAt at hk
    split at hk
    next heq =>
      cases k with
      | zero => exact heq
      | succ k => rw [← Nat.add_assoc, Nat.add_right_comm]; exact ih (a + 1) k (Nat.lt_of_succ_lt_succ hk)
    next => exact absurd hk (Nat.not_lt_zero k)

theorem matchAt_spec (m : Memory) (a b n : Nat) : ∀ k, k < matchAt m a b n → m.read (a + k) = m.read (b + k) := by
  induction n generalizing a b with
  | zero => exact fun k hk => absurd hk (Nat.not_lt_zero k)
  | succ n ih =>
    intro k hk
    unfold matchAt at hk
    split at hk
    next heq =>
      cases k with
      | zero => exact heq
      | succ k =>
        rw [← Nat.add_assoc, Nat.add_right_comm, ← Nat.add_assoc b, Nat.add_right_comm b]
        exact ih (a + 1) (b + 1) k (Nat.lt_of_succ_lt_succ hk)
    next => exact absurd hk (Nat.not_lt_zero k)

/-- Every byte of the run at p is the byte at p (R173). -/
theorem rleLen_spec (s : State) (p k : Nat) (hk : k < rleLen s p) : s.inByte (p + k) = s.inByte p := by
  cases k with
  | zero => rfl
  | succ k =>
    rw [← Nat.add_assoc, Nat.add_right_comm]
    exact runAt_spec s.inMem (s.inByte p) (p + 1) _ k (Nat.lt_of_succ_lt_succ hk)

/-- The best match is none at all, or the match at one of the offsets tried (R174). -/
theorem bestMatch_cases (s : State) (p : Nat) :
    bestMatch s p = (0, 0) ∨
      (1 ≤ (bestMatch s p).2 ∧ (bestMatch s p).2 < min Config.searchLimit p ∧
        (bestMatch s p).1 = matchLen s p (bestMatch s p).2) := by
  refine List.foldlRecOn (motive := fun best => best = (0, 0) ∨
    (1 ≤ best.2 ∧ best.2 < min Config.searchLimit p ∧ best.1 = matchLen s p best.2)) _ _ (.inl rfl) fun best hbest i hi => ?_
  rw [List.mem_range'_1] at hi
  unfold betterMatch
  split
  · exact .inr ⟨hi.1, by show i < _; omega, rfl⟩
  · exact hbest

/-- A match of some length has an offset inside the input behind p, and its bytes are those that far back (R174). -/
theorem bestMatch_spec {s : State} {p : Nat} (h : 1 ≤ (bestMatch s p).1) :
    1 ≤ (bestMatch s p).2 ∧ (bestMatch s p).2 ≤ p ∧ (bestMatch s p).2 ≤ 8191 ∧
      ∀ k, k < (bestMatch s p).1 → s.inByte (p + k) = s.inByte (p - (bestMatch s p).2 + k) := by
  rcases bestMatch_cases s p with hnone | ⟨hoff, hlt, hlen⟩
  · rw [hnone] at h
    cases h
  · have hlimit : Config.searchLimit = 8191 := rfl
    refine ⟨hoff, by omega, by omega, fun k hk => ?_⟩
    rw [hlen] at hk
    exact matchAt_spec s.inMem p (p - (bestMatch s p).2) _ k hk

/-! ## Emitted bytes as tokens -/

theorem and_0xFF (n : Nat) : n &&& 0xFF = n % 256 := Nat.and_two_pow_sub_one_eq_mod n 8

theorem byteOf_toNat {n : Nat} (h : n < 256) : (byteOf n).toNat = n := by
  rw [byteOf, BitVec.toNat_ofNat, Nat.mod_eq_of_lt h]

theorem byteOf_and_0xFF (n : Nat) : byteOf (n &&& 0xFF) = BitVec.ofNat 8 n := by
  apply BitVec.eq_of_toNat_eq
  rw [and_0xFF, byteOf_toNat (Nat.mod_lt n (by decide)), BitVec.toNat_ofNat]

/-- The low byte of a field of n bits. -/
theorem extractLsb'_low_ofNat {w n : Nat} (hw : 8 ≤ w) : (BitVec.ofNat w n).extractLsb' 0 8 = BitVec.ofNat 8 n := by
  apply BitVec.eq_of_toNat_eq
  rw [toNat_extractLsb'_eq_div_mod, BitVec.toNat_ofNat, BitVec.toNat_ofNat, Nat.pow_zero, Nat.div_one,
    Nat.mod_mod_of_dvd _ (Nat.pow_dvd_pow 2 hw)]

/-- Up to 31 pending literals have the short RAW head (R177). -/
theorem rawHead_short {k : Nat} (h1 : 1 ≤ k) (h2 : k ≤ 31) : rawHead k = encodeToken (.raws (BitVec.ofNat 5 k)) := by
  rw [rawHead, if_neg (Nat.ne_of_gt h1), if_pos h2, encodeToken_raws, List.cons.injEq]
  refine ⟨BitVec.eq_of_toNat_eq ?_, rfl⟩
  rw [byteOf_toNat (by omega), taggedControlByte_toNat, BitVec.toNat_ofNat, BitVec.toNat_ofNat]
  omega

/-- More than 31 pending literals have the long RAW head (R177). -/
theorem rawHead_long {k : Nat} (h1 : 32 ≤ k) (h2 : k ≤ 8191) :
    rawHead k = encodeToken (.rawl (BitVec.ofNat 5 (k / 256)) (BitVec.ofNat 8 k)) := by
  have hor : 0x20 ||| k / 256 = 0x20 + k / 256 :=
    (Nat.two_pow_add_eq_or_of_lt (i := 5) (by omega) 1).symm
  rw [rawHead, if_neg (by omega), if_neg (by omega), encodeToken_rawl, byteOf_and_0xFF, Nat.shiftRight_eq_div_pow,
    List.cons.injEq]
  refine ⟨BitVec.eq_of_toNat_eq ?_, rfl⟩
  rw [hor, byteOf_toNat (by omega), taggedControlByte_toNat, BitVec.toNat_ofNat, BitVec.toNat_ofNat]
  omega

/-- The long head's length is the pending count in Wide13, and in Byte8 up to 255 (R94, R177). -/
theorem rawlLength_ofNat {mode : RawLongMode} {k : Nat} (h : k ≤ 8191) (h8 : mode = .byte8 → k ≤ 255) :
    rawlLength mode (BitVec.ofNat 5 (k / 256)) (BitVec.ofNat 8 k) = k := by
  cases mode with
  | wide13 =>
    rw [rawlLength, toNat_append_eq_mul_add, BitVec.toNat_ofNat, BitVec.toNat_ofNat]
    omega
  | byte8 =>
    have hk := h8 rfl
    rw [rawlLength, BitVec.toNat_ofNat]
    omega

/-- Counts up to 19 have the short RLE form (R178). -/
theorem rleBytes_short {n : Nat} (h : n ≤ 19) (v : Byte) :
    rleBytes n v = encodeToken (.rles 0#1 (BitVec.ofNat 4 (n - 4)) v) := by
  have hor : 0x40 ||| (n - 4) = 0x40 + (n - 4) :=
    (Nat.two_pow_add_eq_or_of_lt (i := 4) (by omega) 4).symm
  rw [rleBytes, if_pos (by omega), encodeToken_rles, List.cons.injEq]
  refine ⟨BitVec.eq_of_toNat_eq ?_, rfl⟩
  rw [hor, byteOf_toNat (by omega), rleControlByte_toNat]
  simp only [BitVec.toNat_ofNat]
  omega

/-- Counts of 20 to 4099 have the long RLE form (R178). -/
theorem rleBytes_long {n : Nat} (h1 : 20 ≤ n) (h2 : n ≤ 4099) (v : Byte) :
    rleBytes n v = encodeToken (.rlel 0#1 (BitVec.ofNat 12 (n - 4)) v) := by
  have hor : 0x50 ||| (n - 4) / 256 = 0x50 + (n - 4) / 256 :=
    (Nat.two_pow_add_eq_or_of_lt (i := 4) (by omega) 5).symm
  rw [rleBytes, if_neg (by omega), encodeToken_rlel, byteOf_and_0xFF, extractLsb'_low_ofNat (by decide),
    Nat.shiftRight_eq_div_pow, List.cons.injEq]
  refine ⟨BitVec.eq_of_toNat_eq ?_, rfl⟩
  rw [hor, byteOf_toNat (by omega), rleControlByte_toNat, toNat_extractLsb'_eq_div_mod]
  simp only [BitVec.toNat_ofNat]
  omega

/-- The counts of the LZC bytes that `contBytes` emits (R179). -/
def contCounts : Nat → Nat → List (BitVec 5)
  | 0, _ => []
  | fuel + 1, r => if r = 0 then [] else BitVec.ofNat 5 (min r 31) :: contCounts fuel (r - min r 31)

theorem contBytes_eq (fuel r : Nat) : contBytes fuel r = (contCounts fuel r).flatMap fun k => encodeToken (.lzc k) := by
  induction fuel generalizing r with
  | zero => rfl
  | succ fuel ih =>
    rw [contBytes, contCounts]
    split
    · rfl
    · have hor : 0x60 ||| min r 31 = 0x60 + min r 31 :=
        (Nat.two_pow_add_eq_or_of_lt (i := 5) (by omega) 3).symm
      rw [List.flatMap_cons, ← ih, encodeToken_lzc, List.singleton_append, List.cons.injEq]
      refine ⟨BitVec.eq_of_toNat_eq ?_, rfl⟩
      rw [hor, byteOf_toNat (by omega), taggedControlByte_toNat, BitVec.toNat_ofNat, BitVec.toNat_ofNat]
      omega

/-- The LZC bytes add up to what is left of the length, where the fuel allows one for each byte of it (R179). -/
theorem contCounts_sum {fuel r : Nat} (h : r ≤ fuel) : ((contCounts fuel r).map BitVec.toNat).sum = r := by
  induction fuel generalizing r with
  | zero => exact (Nat.le_zero.mp h).symm
  | succ fuel ih =>
    rw [contCounts]
    split
    next h0 => exact h0.symm
    next h0 =>
      rw [List.map_cons, List.sum_cons, ih (by omega), BitVec.toNat_ofNat]
      omega

/-- EmitLZ is an LZ token and its LZC bytes (R179). -/
theorem lzBytes_eq {len off : Nat} (hoff : off ≤ 8191) :
    lzBytes len off = encodeToken (.lz (BitVec.ofNat 2 (min (len - 4) 3)) (BitVec.ofNat 13 off)) ++
      (contCounts len (len - 4 - min (len - 4) 3)).flatMap fun k => encodeToken (.lzc k) := by
  have hcount : 0x80 ||| min (len - 4) 3 <<< 5 = 2 ^ 5 * (4 + min (len - 4) 3) := by
    have hadd : 0x80 + min (len - 4) 3 * 2 ^ 5 = 0x80 ||| min (len - 4) 3 * 2 ^ 5 :=
      Nat.two_pow_add_eq_or_of_lt (i := 7) (by omega) 1
    rw [Nat.shiftLeft_eq, ← hadd]
    omega
  have hor : 2 ^ 5 * (4 + min (len - 4) 3) ||| off / 256 = 2 ^ 5 * (4 + min (len - 4) 3) + off / 256 :=
    (Nat.two_pow_add_eq_or_of_lt (by omega) _).symm
  rw [lzBytes, contBytes_eq, encodeToken_lz, byteOf_and_0xFF, extractLsb'_low_ofNat (by decide), hcount,
    Nat.shiftRight_eq_div_pow, hor, List.cons_append, List.cons_append, List.nil_append, List.cons.injEq]
  refine ⟨BitVec.eq_of_toNat_eq ?_, rfl⟩
  rw [byteOf_toNat (by omega), lzControlByte_toNat, toNat_extractLsb'_eq_div_mod]
  simp only [BitVec.toNat_ofNat]
  omega

end Sys2Proof.Machine
end

section
/-! SUPPORT. The round trip: what ENCODE has written at each position is a stream whose meaning is the input before it
(42_encoder.md R170 to R191), which DECODE gives back (41_decoder.md R148). -/

namespace Sys2Proof.Machine

/-! ## Item lists that a writer may put anywhere in a stream -/

/-- The items' bytes are `bs`; each has the literals its token says, none is RAWS 0, and they stand in order whatever token
comes before them. -/
structure Emits (mode : RawLongMode) (items : List Item) (bs : List Byte) : Prop where
  bytes : bodyBytes items = bs
  fits : items.all (Item.fits mode) = true
  order : ∀ cont, Token.orderWf cont (items.map Item.tok) = true
  nonzero : ∀ i ∈ items, i.tok ≠ .raws 0#5

theorem orderWf_append {cont : Bool} {ts us : List Token} (h : Token.orderWf cont ts = true)
    (h' : ∀ c, Token.orderWf c us = true) : Token.orderWf cont (ts ++ us) = true := by
  induction ts generalizing cont with
  | nil => exact h' cont
  | cons t ts ih =>
    rw [Token.orderWf, Bool.and_eq_true] at h
    rw [List.cons_append, Token.orderWf, Bool.and_eq_true]
    exact ⟨h.1, ih h.2⟩

theorem applyItems_append (is is' : List Item) (st : List Byte × Nat) :
    applyItems (is ++ is') st = (applyItems is st).bind (applyItems is') := by
  induction is generalizing st with
  | nil => rfl
  | cons i is ih =>
    rw [List.cons_append, applyItems, applyItems]
    cases i.apply st with
    | none => rfl
    | some st1 => exact ih st1

section
variable {mode : RawLongMode} {items items' : List Item} {bs bs' : List Byte}

theorem Emits.nil (mode : RawLongMode) : Emits mode [] [] :=
  ⟨rfl, rfl, fun _ => rfl, fun _ hi => absurd hi List.not_mem_nil⟩

theorem Emits.append (h : Emits mode items bs) (h' : Emits mode items' bs') :
    Emits mode (items ++ items') (bs ++ bs') where
  bytes := by rw [bodyBytes, List.flatMap_append, ← bodyBytes, ← bodyBytes, h.bytes, h'.bytes]
  fits := by rw [List.all_append, h.fits, h'.fits]; rfl
  order cont := by rw [List.map_append]; exact orderWf_append (h.order cont) h'.order
  nonzero i hi := (List.mem_append.mp hi).elim (h.nonzero i) (h'.nonzero i)

theorem Emits.single {i : Item} (hfit : i.fits mode = true) (horder : ∀ cont, i.tok.fitsAfter cont = true)
    (hne : i.tok ≠ .raws 0#5) : Emits mode [i] i.bytes where
  bytes := List.append_nil _
  fits := by rw [List.all_cons, hfit]; rfl
  order cont := by simp only [List.map_cons, List.map_nil, Token.orderWf, horder cont, Bool.and_self]
  nonzero j hj := by rw [List.mem_singleton.mp hj]; exact hne

/-- Such a list may stand at the head of a stream. -/
theorem Emits.streamWf (h : Emits mode items bs) : Token.streamWf (items.map Item.tok) = true := by
  rw [Token.streamWf, h.order false]
  cases items with
  | nil => rfl
  | cons i is => simpa using h.nonzero i List.mem_cons_self

end

/-! ## What the encoder emits, and what it means -/

/-- The RAW token of the pending literals, none where none are pending (R177). -/
theorem emits_raw {c : Config} {lits : List Byte} (h : lits.length ≤ c.rawMax) :
    ∃ items, Emits c.rawLongMode items (rawHead lits.length ++ lits) ∧
      ∀ st, applyItems items st = some (st.1 ++ lits, st.2) := by
  have hmax := (rawMax_le c).2
  by_cases h0 : lits.length = 0
  · obtain rfl := List.length_eq_zero_iff.mp h0
    exact ⟨[], .nil _, fun st => by rw [List.append_nil]; rfl⟩
  by_cases hshort : lits.length ≤ 31
  · refine ⟨[⟨.raws (BitVec.ofNat 5 lits.length), lits⟩], ?_, fun _ => rfl⟩
    rw [rawHead_short (by omega) hshort]
    have hlen : (BitVec.ofNat 5 lits.length).toNat = lits.length := by rw [BitVec.toNat_ofNat]; omega
    refine .single ?_ (fun _ => rfl) fun hz => ?_
    · rw [Item.fits, literalLength, rawsLength, hlen, beq_self_eq_true]
    · rw [Token.raws.inj hz] at hlen
      exact h0 hlen.symm
  · refine ⟨[⟨.rawl (BitVec.ofNat 5 (lits.length / 256)) (BitVec.ofNat 8 lits.length), lits⟩], ?_, fun _ => rfl⟩
    rw [rawHead_long (by omega) (by omega)]
    have h8 : c.rawLongMode = .byte8 → lits.length ≤ 255 := fun hmode => by
      rw [Config.rawMax, hmode] at h
      exact h
    refine .single ?_ (fun _ => rfl) fun hz => by cases hz
    rw [Item.fits, literalLength, rawlLength_ofNat (by omega) h8, beq_self_eq_true]

theorem fitsAfter_of_bit_clear (cont : Bool) : (!(cont && (0#1 : BitVec 1) == 1#1)) = true := by
  cases cont <;> rfl

/-- The RLE token of a run (R178). -/
theorem emits_rle (mode : RawLongMode) {n : Nat} (h4 : 4 ≤ n) (h : n ≤ 4099) (v : Byte) :
    ∃ items, Emits mode items (rleBytes n v) ∧
      ∀ st, applyItems items st = some (st.1 ++ List.replicate n v, st.2) := by
  by_cases hshort : n ≤ 19
  · have hcount : rlesCount (BitVec.ofNat 4 (n - 4)) = n := by rw [rlesCount, BitVec.toNat_ofNat]; omega
    refine ⟨[⟨.rles 0#1 (BitVec.ofNat 4 (n - 4)) v, []⟩], ?_, fun st => ?_⟩
    · rw [rleBytes_short hshort, ← List.append_nil (encodeToken _)]
      exact .single (i := ⟨.rles 0#1 _ v, []⟩) rfl fitsAfter_of_bit_clear fun hz => by cases hz
    · simp only [applyItems, Item.apply, hcount]
  · have hcount : rlelCount (BitVec.ofNat 12 (n - 4)) = n := by rw [rlelCount, BitVec.toNat_ofNat]; omega
    refine ⟨[⟨.rlel 0#1 (BitVec.ofNat 12 (n - 4)) v, []⟩], ?_, fun st => ?_⟩
    · rw [rleBytes_long (by omega) h, ← List.append_nil (encodeToken _)]
      exact .single (i := ⟨.rlel 0#1 _ v, []⟩) rfl fitsAfter_of_bit_clear fun hz => by cases hz
    · simp only [applyItems, Item.apply, hcount]

theorem copyOut_add (pos m n : Nat) (out : List Byte) :
    copyOut pos (m + n) out = (copyOut pos m out).bind (copyOut pos n) := by
  induction m generalizing out with
  | zero => rw [Nat.zero_add]; rfl
  | succ m ih =>
    rw [Nat.add_right_comm, copyOut, copyOut]
    split
    · exact ih _
    · rfl

/-- An LZC byte as an item. -/
def lzcItem (k : BitVec 5) : Item := ⟨.lzc k, []⟩

theorem applyItems_lzcItems (ks : List (BitVec 5)) (out : List Byte) (pos : Nat) :
    applyItems (ks.map lzcItem) (out, pos) = (copyOut pos (ks.map BitVec.toNat).sum out).map fun out' => (out', pos) := by
  induction ks generalizing out with
  | nil => rfl
  | cons k ks ih =>
    rw [List.map_cons, List.map_cons, List.sum_cons, copyOut_add, applyItems, lzcItem]
    simp only [Item.apply, lzcCount]
    cases copyOut pos k.toNat out with
    | none => rfl
    | some out1 => exact ih out1

theorem orderWf_lzcs (ks : List (BitVec 5)) : Token.orderWf true ((ks.map lzcItem).map Item.tok) = true := by
  induction ks with
  | nil => rfl
  | cons k ks ih => exact ih

/-- An LZ token and the LZC bytes behind it (R179). -/
theorem emits_lz (mode : RawLongMode) {len off : Nat} (h4 : 4 ≤ len) (hoff : off ≤ 8191) :
    ∃ items, Emits mode items (lzBytes len off) ∧
      ∀ st, applyItems items st = (copyOut off len st.1).map fun out => (out, off) := by
  have hpos : (BitVec.ofNat 13 off).toNat = off := by rw [BitVec.toNat_ofNat]; omega
  have hsum := contCounts_sum (fuel := len) (r := len - 4 - min (len - 4) 3) (by omega)
  generalize hks : contCounts len (len - 4 - min (len - 4) 3) = ks at hsum
  have hcount : lzCount (BitVec.ofNat 2 (min (len - 4) 3)) + (ks.map BitVec.toNat).sum = len := by
    rw [lzCount, BitVec.toNat_ofNat]
    omega
  refine ⟨⟨.lz (BitVec.ofNat 2 (min (len - 4) 3)) (BitVec.ofNat 13 off), []⟩ :: ks.map lzcItem, ⟨?_, ?_, fun cont => ?_, ?_⟩,
    fun st => ?_⟩
  · rw [lzBytes_eq hoff, hks, bodyBytes, List.flatMap_cons, List.flatMap_map, Item.bytes, List.append_nil]
    rfl
  · rw [List.all_cons, List.all_map]
    exact Bool.and_eq_true_iff.mpr ⟨rfl, List.all_eq_true.mpr fun k _ => rfl⟩
  · exact orderWf_lzcs ks
  · intro i hi hz
    rcases List.mem_cons.mp hi with rfl | hi
    · cases hz
    · obtain ⟨k, -, rfl⟩ := List.mem_map.mp hi
      cases hz
  · have hsplit := copyOut_add off (lzCount (BitVec.ofNat 2 (min (len - 4) 3))) (ks.map BitVec.toNat).sum st.1
    rw [hcount] at hsplit
    rw [hsplit, applyItems]
    simp only [Item.apply, hpos]
    cases copyOut off (lzCount (BitVec.ofNat 2 (min (len - 4) 3))) st.1 with
    | none => rfl
    | some out1 => exact applyItems_lzcItems ks out1 off

/-! ## The input as a byte list -/

theorem Memory.bytes_eq_replicate {m : Memory} {a n : Nat} {v : Byte} (h : ∀ k, k < n → m.read (a + k) = v) :
    m.bytes a n = List.replicate n v := by
  induction n generalizing a with
  | zero => rfl
  | succ n ih =>
    have hrest : ∀ k, k < n → m.read (a + 1 + k) = v := fun k hk => by
      rw [Nat.add_right_comm]
      exact h (k + 1) (Nat.succ_lt_succ hk)
    rw [Memory.bytes, List.replicate_succ, ih hrest, show m.read a = v from h 0 (Nat.zero_lt_succ n)]

/-- A match copies the input's own bytes on (R136, R174). -/
theorem copyOut_bytes {m : Memory} {p off n : Nat} (h1 : 1 ≤ off) (h2 : off ≤ p)
    (h : ∀ k, k < n → m.read (p + k) = m.read (p - off + k)) :
    copyOut off n (m.bytes 0 p) = some (m.bytes 0 (p + n)) := by
  induction n generalizing p with
  | zero => rfl
  | succ n ih =>
    have hbyte : (m.bytes 0 p).getD (p - off) 0#8 = m.read p := by
      rw [Memory.bytes_getD _ _ _ _ _ (by omega), Nat.zero_add]
      exact (h 0 (Nat.zero_lt_succ n)).symm
    have hone : m.bytes 0 p ++ [m.read p] = m.bytes 0 (p + 1) := by
      rw [Memory.bytes_add, Nat.zero_add]
      rfl
    rw [copyOut, Memory.bytes_length, if_pos ⟨h1, h2⟩, hbyte, hone, ih (p := p + 1) (Nat.le_succ_of_le h2),
      Nat.add_assoc, Nat.add_comm 1]
    intro k hk
    have hk' := h (k + 1) (Nat.succ_lt_succ hk)
    rw [Nat.add_right_comm, Nat.add_assoc, hk']
    congr 1
    omega

/-! ## What a running ENCODE has written -/

/-- Behind the header's two bytes OUT holds tokens that mean the first q bytes of the input. -/
def Written (s0 s : State) (q : Nat) : Prop :=
  ∃ items body pos, s.HoldsOut (0x00#8 :: 0x00#8 :: body) ∧ Emits s0.cfg.rawLongMode items body ∧
    applyItems items ([], 0) = some (s0.inMem.bytes 0 q, pos)

section
variable {s0 s t : State} {p q : Nat}

theorem State.HoldsOut.of_appendAll {out bs : List Byte} (h : s.HoldsOut out) (happ : s.appendAll bs = .ok t) :
    t.HoldsOut (out ++ bs) := by
  by_cases hroom : (out ++ bs).length ≤ s.cfg.outCap.toNat
  · obtain ⟨u, hu, hres⟩ := h.appendAll bs hroom
    rw [happ] at hu
    cases hu
    exact hres
  · rw [List.length_append, ← h.length, Nat.not_le] at hroom
    rw [State.appendAll_overflow (by rw [h.length]; exact h.room) hroom] at happ
    cases happ

/-- Tokens that mean the next n bytes of the input. -/
theorem Written.emit {n : Nat} {items : List Item} {bs : List Byte} (h : Written s0 s q)
    (hem : Emits s0.cfg.rawLongMode items bs)
    (hmean : ∀ pos, ∃ pos', applyItems items (s0.inMem.bytes 0 q, pos) = some (s0.inMem.bytes 0 (q + n), pos'))
    (happ : s.appendAll bs = .ok t) : Written s0 t (q + n) := by
  obtain ⟨items0, body, pos, hout, hem0, happ0⟩ := h
  obtain ⟨pos', hpos'⟩ := hmean pos
  refine ⟨items0 ++ items, body ++ bs, pos', hout.of_appendAll happ, hem0.append hem, ?_⟩
  rw [applyItems_append, happ0]
  exact hpos'

theorem Written.of_out (h : Written s0 s q) (hmem : t.outMem = s.outMem) (hlen : t.outLen = s.outLen)
    (hcfg : t.cfg = s.cfg) : Written s0 t q := by
  obtain ⟨items, body, pos, hout, hem, happ⟩ := h
  exact ⟨items, body, pos, hout.of_out hmem hlen hcfg, hem, happ⟩

/-- An ENCODE of s0 at position p: OUT means the input before the pending literals, and the window holds those (R176). -/
structure EncodedUpTo (s0 s : State) (p : Nat) : Prop where
  inputs : s0.SameInputs s
  wf : s.win.wf = true
  limit : s.winCur.toNat ≤ s.cfg.rawMax
  behind : s.winCur.toNat ≤ p
  pending : ∀ k, k < s.winCur.toNat → s.win.read k = s0.inByte (p - s.winCur.toNat + k)
  out : Written s0 s (p - s.winCur.toNat)

theorem EncodedUpTo.pendingLiterals (h : EncodedUpTo s0 s p) :
    s.pendingLiterals = s0.inMem.bytes (p - s.winCur.toNat) s.winCur.toNat := by
  rw [State.pendingLiterals, Memory.bytes_eq_iff]
  intro k hk
  rw [Nat.zero_add]
  exact h.pending k hk

/-- A flush writes the pending literals (R177). -/
theorem EncodedUpTo.flush (h : EncodedUpTo s0 s p) (hf : s.flush = .ok t) :
    EncodedUpTo s0 t p ∧ t.winCur = 0#13 := by
  obtain ⟨hmove, hcur⟩ := State.flush_ok hf
  refine ⟨⟨h.inputs.trans hmove.sameInputs, ?_, by rw [hcur]; exact Nat.zero_le _, by rw [hcur]; exact Nat.zero_le _,
    fun k hk => ?_, ?_⟩, hcur⟩
  · unfold State.flush at hf
    split at hf <;> cases hf
    rfl
  · rw [hcur] at hk
    exact absurd hk (Nat.not_lt_zero k)
  · rw [State.flush, h.pendingLiterals] at hf
    have hlen := Memory.bytes_length s0.inMem (p - s.winCur.toNat) s.winCur.toNat
    have hlimit : (s0.inMem.bytes (p - s.winCur.toNat) s.winCur.toNat).length ≤ s0.cfg.rawMax := by
      rw [hlen, ← h.inputs.cfg]
      exact h.limit
    obtain ⟨items, hem, hmean⟩ := emits_raw hlimit
    rw [hlen] at hem
    split at hf
    next s1 happ =>
      cases hf
      have hwritten := h.out.emit (n := s.winCur.toNat) hem (fun pos => ⟨pos, ?_⟩) happ
      · rw [Nat.sub_add_cancel h.behind] at hwritten
        exact hwritten.of_out rfl rfl rfl
      · rw [hmean, Memory.bytes_add, Nat.zero_add]
    next => cases hf

/-- Tokens behind a flush that mean the next n bytes (R172). -/
theorem EncodedUpTo.flushAndEmit {n : Nat} {items : List Item} {bs : List Byte} (h : EncodedUpTo s0 s p)
    (hem : Emits s0.cfg.rawLongMode items bs)
    (hmean : ∀ pos, ∃ pos', applyItems items (s0.inMem.bytes 0 p, pos) = some (s0.inMem.bytes 0 (p + n), pos'))
    (hf : s.flushAndEmit bs = .ok t) : EncodedUpTo s0 t (p + n) := by
  unfold State.flushAndEmit at hf
  split at hf
  next s1 hflush =>
    obtain ⟨h1, hcur1⟩ := h.flush hflush
    have hout := State.appendAll_outOnly hf
    have hcur : t.winCur = 0#13 := hout.winCur.trans hcur1
    have hwritten := h1.out
    rw [hcur1] at hwritten
    refine ⟨h1.inputs.trans hout.sameInputs, by rw [hout.win]; exact h1.wf, by rw [hcur]; exact Nat.zero_le _,
      by rw [hcur]; exact Nat.zero_le _, fun k hk => ?_, ?_⟩
    · rw [hcur] at hk
      exact absurd hk (Nat.not_lt_zero k)
    · rw [hcur]
      exact hwritten.emit hem hmean hf
  next => cases hf

/-- One more pending literal (R111, R176). -/
theorem EncodedUpTo.winAppend (h : EncodedUpTo s0 s p) (hlt : s.winCur.toNat < s.cfg.rawMax) :
    EncodedUpTo s0 (s.winAppend (s0.inByte p)) (p + 1) := by
  have hmax := (rawMax_le s.cfg).2
  have hcur : (s.winAppend (s0.inByte p)).winCur.toNat = s.winCur.toNat + 1 := by
    rw [State.winAppend_winCur_toNat]
    omega
  have hbehind := h.behind
  refine ⟨h.inputs.winAppend _, State.winAppend_win_wf h.wf _, by rw [hcur]; exact hlt, by rw [hcur]; omega,
    fun k hk => ?_, ?_⟩
  · rw [hcur] at hk ⊢
    rw [State.winAppend_win_read h.wf, Nat.add_sub_add_right]
    split
    next heq => rw [heq, Nat.sub_add_cancel hbehind]
    next hne => exact h.pending k (by omega)
  · rw [hcur, Nat.add_sub_add_right]
    exact h.out.of_out rfl rfl rfl

theorem EncodedUpTo.literal (h : EncodedUpTo s0 s p) (hl : s.literal (s0.inByte p) = .ok t) : EncodedUpTo s0 t (p + 1) := by
  unfold State.literal at hl
  split at hl
  · split at hl
    next s1 hflush =>
      obtain ⟨h1, hcur⟩ := h.flush hflush
      cases hl
      exact h1.winAppend (by rw [hcur]; exact (rawMax_le s1.cfg).1)
    next => cases hl
  next hne =>
    cases hl
    exact h.winAppend (Nat.lt_of_le_of_ne h.limit hne)

/-! ## One position -/

theorem choose_eq_rle {rl ml : Nat} (h : choose rl ml = .rle) : 4 ≤ rl := by
  have hmin : Config.minRun = 4 := rfl
  unfold choose at h
  split at h
  · cases h
  · split at h
    · omega
    · cases h

theorem choose_eq_lz {rl ml : Nat} (h : choose rl ml = .lz) : 4 ≤ ml := by
  have hmin : Config.minRun = 4 := rfl
  unfold choose at h
  split at h
  · cases h
  · split at h
    · cases h
    · omega

/-- Whatever the decision, OUT and the pending literals then mean the input up to where P has moved (R172). -/
theorem EncodedUpTo.encodeAt (h : EncodedUpTo s0 s p) (hp : p < s.inLen.toNat) (hat : encodeAt p s = .ok t) :
    EncodedUpTo s0 t (p + choiceLength (rleLen s p) (bestMatch s p).1) := by
  have hbyte : ∀ a, s.inByte a = s0.inByte a := fun a => by rw [State.inByte, h.inputs.inMem]; rfl
  unfold Machine.encodeAt at hat
  unfold choiceLength
  split at hat
  next hc =>
    rw [hbyte] at hat
    exact h.literal hat
  next hc =>
    obtain ⟨-, hmax, -⟩ := rleLen_bounds hp
    obtain ⟨items, hem, hmean⟩ := emits_rle s0.cfg.rawLongMode (choose_eq_rle hc) hmax (s.inByte p)
    have hrun : s0.inMem.bytes p (rleLen s p) = List.replicate (rleLen s p) (s.inByte p) :=
      Memory.bytes_eq_replicate fun k hk => (hbyte (p + k)).symm.trans (rleLen_spec s p k hk)
    exact h.flushAndEmit hem (fun pos => ⟨pos, by rw [hmean, Memory.bytes_add, Nat.zero_add, hrun]⟩) hat
  next hc =>
    have hlen := choose_eq_lz hc
    obtain ⟨hoff, hle, hmax, heq⟩ := bestMatch_spec (s := s) (p := p) (by omega)
    obtain ⟨items, hem, hmean⟩ := emits_lz s0.cfg.rawLongMode hlen hmax
    have hcopy := copyOut_bytes (m := s0.inMem) hoff hle fun k hk =>
      (hbyte _).symm.trans ((heq k hk).trans (hbyte _))
    exact h.flushAndEmit hem (fun pos => ⟨_, by rw [hmean, hcopy]; rfl⟩) hat

/-! ## The finish -/

/-- OUT holds a stream that means the whole input, and its trailer (R190, R191). -/
def HoldsStream (s0 t : State) : Prop :=
  ∃ items pos, t.HoldsOut (streamBytes items ++ [0x00#8]) ∧ Emits s0.cfg.rawLongMode items (bodyBytes items) ∧
    declaredLength items ≤ 0xFFFF ∧ applyItems items ([], 0) = some (s0.inMem.bytes 0 s0.inLen.toNat, pos)

theorem streamBytes_length (items : List Item) : (streamBytes items).length = declaredLength items := by
  rw [declaredLength, Nat.add_comm]
  rfl

/-- The header takes the place of the two bytes that were kept for it (R190). -/
theorem State.HoldsOut.patchHeader {b0 b1 : Byte} {body : List Byte} (h : s.HoldsOut (b0 :: b1 :: body)) (l : Nat) :
    (s.patchHeader l).HoldsOut (byteOf l :: byteOf (l >>> 8) :: body) where
  wf := Memory.wf_write (Memory.wf_write h.wf _ _) _ _
  length := h.length
  room := h.room
  bytes i hi := by
    rw [State.outByte, State.patchHeader_outMem, Memory.read_write (Memory.wf_write h.wf _ _), Memory.read_write h.wf]
    match i with
    | 0 => rfl
    | 1 => rfl
    | i + 2 => exact h.bytes (i + 2) hi

theorem EncodedUpTo.encodeFinish (h : EncodedUpTo s0 s s0.inLen.toNat) (hf : s.encodeFinish = .ok t) :
    HoldsStream s0 t := by
  unfold State.encodeFinish at hf
  split at hf
  next => cases hf
  next s1 hflush =>
    split at hf
    next => cases hf
    next hmax =>
      obtain ⟨h1, hcur⟩ := h.flush hflush
      obtain ⟨items, body, pos, hout, hem, happ⟩ := h1.out
      rw [hcur] at happ
      obtain rfl := hem.bytes
      have hlen : s1.outLen.toNat = declaredLength items := by
        rw [hout.length, ← streamBytes_length]
        rfl
      rw [← State.appendAll_singleton, hlen] at hf
      refine ⟨items, pos, (hout.patchHeader _).of_appendAll hf, hem, ?_, happ⟩
      rw [← hlen]
      exact Nat.not_lt.mp hmax

/-! ## The run -/

/-- A running ENCODE of s0 has encoded the input up to P, and one that has succeeded all of it. -/
def EncodesInput (s0 s : State) : Prop :=
  match s.engine with
  | .encoding r => EncodedUpTo s0 s r.p.toNat ∧ r.p.toNat ≤ s.inLen.toNat
  | .decoding _ => True
  | .idle => s.status = .done → HoldsStream s0 s

theorem EncodedUpTo.withEncoder (h : EncodedUpTo s0 s p) (r : EncoderRegs) : EncodedUpTo s0 (s.withEncoder r) p :=
  ⟨h.inputs.withEncoder r, h.wf, h.limit, h.behind, h.pending, h.out.of_out rfl rfl rfl⟩

theorem raiseError_encodesInput {r : EncoderRegs} (he : s.engine = .encoding r) (e : ErrKind) :
    EncodesInput s0 (raiseError e .encodeRunning s) := by
  have hidle : (raiseError e .encodeRunning s).engine = .idle := by simp only [raiseError, he, Engine.fail]
  rw [EncodesInput, hidle]
  intro hs
  rw [raiseError_status] at hs
  cases hs

theorem encoderStep_encodesInput {r : EncoderRegs} (he : s.engine = .encoding r) (h : EncodesInput s0 s) :
    EncodesInput s0 (encoderStep r s) := by
  rw [EncodesInput, he] at h
  obtain ⟨hup, hle⟩ := h
  unfold encoderStep
  split
  next hp =>
    split
    next t hat =>
      have hnext := EncoderRegs.after_p hp
      have hbound := choiceLength_bounds hp
      refine ⟨?_, ?_⟩
      · rw [hnext]
        exact (hup.encodeAt hp hat).withEncoder _
      · rw [hnext, State.withEncoder_inLen, (encodeAt_sameInputs hat).inLen]
        exact hbound.2
    next e _ => exact raiseError_encodesInput he e
  next hp =>
    split
    next t hfin =>
      have hend : r.p.toNat = s0.inLen.toNat := by rw [← hup.inputs.inLen]; omega
      rw [hend] at hup
      obtain ⟨items, pos, hout, hrest⟩ := hup.encodeFinish hfin
      exact fun _ => ⟨items, pos, hout.of_out rfl rfl rfl, hrest⟩
    next e _ => exact raiseError_encodesInput he e

/-- Behind its entry an ENCODE has encoded nothing (R171). -/
theorem encodeEntry_encodesInput {u : State} (hwf : s.outMem.wf = true) (h : encodeEntry s = .ok u) :
    EncodesInput s u := by
  have hsame := encodeEntry_sameInputs h
  unfold encodeEntry at h
  split at h
  · cases h
  · split at h
    · cases h
    next s1 happ =>
      cases h
      have hempty : ({ s with outLen := 0#32 } : State).HoldsOut [] :=
        ⟨hwf, rfl, Nat.zero_le _, fun i hi => absurd hi (Nat.not_lt_zero i)⟩
      have hwritten : Written s s1 0 := ⟨[], [], 0, hempty.of_appendAll happ, .nil _, rfl⟩
      exact ⟨⟨hsame, rfl, Nat.zero_le _, Nat.zero_le _, fun k hk => absurd hk (Nat.not_lt_zero k),
        hwritten.of_out rfl rfl rfl⟩, Nat.zero_le _⟩

/-- An ENCODE that succeeds leaves a stream that means its input (R148, R194). -/
theorem exec_encode_holdsStream (hwf : s.outMem.wf = true) (h : exec .encode s = .next t) (hdone : t.status = .done) :
    HoldsStream s t ∧ s.inLen ≠ 0#32 := by
  simp only [exec, execEncode] at h
  split at h
  next e _ =>
    cases h
    rw [raiseError_status] at hdone
    cases hdone
  next u hu =>
    cases h
    obtain ⟨hne, hframe⟩ := encodeEntry_ok hu
    have hidle := encoderRun_ends (encodeFuel s) (encodeEntry_left hu) (fun q hq => by rw [hframe] at hq; cases hq)
      (fun _ => encodeEntry_winOk hu)
    have hend := encoderRun_keeps (P := EncodesInput s) (fun _ _ he hs => encoderStep_encodesInput he hs) (encodeFuel s)
      (encodeEntry_encodesInput hwf hu)
    rw [EncodesInput, hidle] at hend
    exact ⟨hend hdone, hne⟩

end

/-- Settles O56: ENCODE leaves a stream that means its input, and DECODE of a stream gives its meaning; the trailer 0x00
behind it is no LZC byte. -/
theorem roundTrip : Obligations.RoundTrip := by
  unfold Obligations.RoundTrip
  intro s t u _ hwf henc hdone hidle huwf hmode hroom harg hlen hbytes
  obtain ⟨⟨items, pos, hout, hem, hmax, happ⟩, hne⟩ := exec_encode_holdsStream hwf henc hdone
  have hstream := streamBytes_length items
  have htotal : u.inLen.toNat = declaredLength items + 1 := by
    rw [hlen, hout.length, List.length_append, hstream, List.length_singleton]
  have hin : ∀ i, i < declaredLength items + 1 → u.inByte i = (streamBytes items ++ [0x00#8]).getD i 0#8 := fun i hi => by
    rw [hbytes i (by rw [← hlen, htotal]; exact hi), hout.bytes i (by rw [List.length_append, hstream]; exact hi)]
  have harg0 : u.arg.toNat = 0 := by rw [harg]; rfl
  have hheld : u.holdsAt u.arg.toNat (streamBytes items) := by
    refine (Memory.bytes_eq_list_iff _ _ _).mpr fun k hk => ?_
    rw [harg0, Nat.zero_add, ← List.getD_append _ [0x00#8] _ _ hk]
    exact hin k (by rw [hstream] at hk; exact Nat.lt_succ_of_lt hk)
  have htrailer : u.inByte (declaredLength items) = 0x00#8 := by
    rw [hin _ (Nat.lt_succ_self _), List.getD_append_right _ _ _ _ (Nat.le_of_eq hstream), hstream, Nat.sub_self]
    rfl
  have hitems : items ≠ [] := by
    rintro rfl
    have hzero := congrArg (fun st => (st.map fun p => p.1.length).getD 0) happ
    rw [applyItems] at hzero
    exact hne (BitVec.eq_of_toNat_eq (by simpa using hzero.symm))
  obtain ⟨v, hv, hframe, hvlen, hvout, -⟩ := decodeOfAStream u items (s.inMem.bytes 0 s.inLen.toNat) pos hidle huwf hitems
    hem.streamWf (by rw [hmode]; exact hem.fits) hmax (by rw [harg0, htotal]; omega) hheld
    (fun _ => ⟨by rw [harg0, htotal]; omega, by rw [harg0, Nat.zero_add, htrailer]; rfl⟩) happ
    (by rw [Memory.bytes_length]; exact hroom)
  rw [Memory.bytes_length] at hvlen hvout
  refine ⟨v, hv, by rw [hframe], BitVec.eq_of_toNat_eq hvlen, fun i hi => ?_⟩
  have hbyte := (Memory.bytes_eq_iff _ _ 0 0 _).mp hvout i hi
  rw [Nat.zero_add] at hbyte
  exact hbyte

end Sys2Proof.Machine
end

section
/-! SUPPORT. The transitions of a running ENCODE by their outcome, and the one induction over its run: it moves on position by
position, and ends at the finish or by an error (42_encoder.md R172, R191; 60_exceptions.md R245). -/

namespace Sys2Proof.Machine

/-! ## One transition -/

section
variable {r : EncoderRegs} {s t : State} {e : ErrKind}

theorem encoderStep_of_encodeAt_ok (hp : r.p.toNat < s.inLen.toNat) (h : encodeAt r.p.toNat s = .ok t) :
    encoderStep r s = t.withEncoder (EncoderRegs.after s r.p.toNat) := by
  rw [encoderStep, if_pos hp, h]

theorem encoderStep_of_encodeFinish_ok (hp : s.inLen.toNat ≤ r.p.toNat) (h : s.encodeFinish = .ok t) :
    encoderStep r s = t.succeed.endCommand := by
  rw [encoderStep, if_neg (Nat.not_lt.mpr hp), h]

/-- The transition of an ENCODE raises e: at a position of the input, or at the finish. -/
def EncoderRaises (r : EncoderRegs) (s : State) (e : ErrKind) : Prop :=
  (r.p.toNat < s.inLen.toNat ∧ encodeAt r.p.toNat s = .error e) ∨ (s.inLen.toNat ≤ r.p.toNat ∧ s.encodeFinish = .error e)

theorem encoderStep_of_raises (h : EncoderRaises r s e) : encoderStep r s = raiseError e .encodeRunning s := by
  rcases h with ⟨hp, he⟩ | ⟨hp, he⟩
  · rw [encoderStep, if_pos hp, he]
  · rw [encoderStep, if_neg (Nat.not_lt.mpr hp), he]

theorem EncoderRaises.kind (h : EncoderRaises r s e) : e = .outputOverflow ∨ e = .invalidInput := by
  rcases h with ⟨-, he⟩ | ⟨-, he⟩
  · exact .inl (encodeAt_error he)
  · exact State.encodeFinish_error he

theorem raiseError_encodeRunning_engine (he : s.engine = .encoding r) (e : ErrKind) :
    (raiseError e .encodeRunning s).engine = .idle := by
  simp only [raiseError, he, Engine.fail]

end

/-! ## The run -/

/-- `P` holds of the registers and the state of an ENCODE behind every position, and `Q` of every state it ends in. -/
structure EncodeRule (P : EncoderRegs → State → Prop) (Q : State → Prop) : Prop where
  moves : ∀ {r s t}, P r s → r.p.toNat < s.inLen.toNat → encodeAt r.p.toNat s = .ok t →
    P (EncoderRegs.after s r.p.toNat) (t.withEncoder (EncoderRegs.after s r.p.toNat))
  ends : ∀ {r s t}, P r s → s.inLen.toNat ≤ r.p.toNat → s.encodeFinish = .ok t → Q t.succeed.endCommand
  fails : ∀ {r s e}, P r s → EncoderRaises r s e → Q (raiseError e .encodeRunning s)

section
variable {P : EncoderRegs → State → Prop} {Q : State → Prop} {s u : State}

/-- What a rule says of a state of the run: `P` while the ENCODE runs, `Q` where it has ended. -/
def EncodeRule.Holds (P : EncoderRegs → State → Prop) (Q : State → Prop) (s : State) : Prop :=
  match s.engine with
  | .encoding r => P r s
  | .decoding _ => False
  | .idle => Q s

theorem EncodeRule.step {r : EncoderRegs} (h : EncodeRule P Q) (he : s.engine = .encoding r) (hP : P r s) :
    Holds P Q (encoderStep r s) := by
  have hfails : ∀ {e}, EncoderRaises r s e → Holds P Q (encoderStep r s) := fun {e} hr => by
    rw [encoderStep_of_raises hr, Holds, raiseError_encodeRunning_engine he]
    exact h.fails hP hr
  by_cases hp : r.p.toNat < s.inLen.toNat
  · cases hat : encodeAt r.p.toNat s with
    | ok t =>
      rw [encoderStep_of_encodeAt_ok hp hat]
      exact h.moves hP hp hat
    | error e => exact hfails (.inl ⟨hp, hat⟩)
  · have hge := Nat.not_lt.mp hp
    cases hfin : s.encodeFinish with
    | ok t =>
      rw [encoderStep_of_encodeFinish_ok hge hfin]
      exact h.ends hP hge hfin
    | error e => exact hfails (.inr ⟨hge, hfin⟩)

theorem encoderRun_idle_of_entry (hu : encodeEntry s = .ok u) : (encoderRun (encodeFuel s) u).engine = .idle := by
  obtain ⟨-, hframe⟩ := encodeEntry_ok hu
  exact encoderRun_ends _ (encodeEntry_left hu) (fun q hq => by rw [hframe] at hq; cases hq) fun _ => encodeEntry_winOk hu

/-- The run behind the entry ends, in a state of which `Q` holds. -/
theorem EncodeRule.exec (h : EncodeRule P Q) (hu : encodeEntry s = .ok u) (h0 : P EncoderRegs.enter u) :
    ∃ t, exec .encode s = .next t ∧ t.engine = .idle ∧ Q t := by
  obtain ⟨-, hframe⟩ := encodeEntry_ok hu
  have hidle := encoderRun_idle_of_entry hu
  have hentry : Holds P Q u := by
    rw [hframe] at h0 ⊢
    exact h0
  have hend := encoderRun_keeps (P := Holds P Q)
    (fun r v he hv => h.step he (by rw [Holds, he] at hv; exact hv)) (encodeFuel s) hentry
  rw [Holds, hidle] at hend
  exact ⟨_, exec_encode_of_entry hu, hidle, hend⟩

theorem exec_encode_of_entry_error {e : ErrKind} (h : encodeEntry s = .error e) :
    exec .encode s = .next (raiseError e .encodeEntry s) := by
  simp only [exec, execEncode, h]

end

/-! ## ENCODE ends -/

/-- What an ENCODE that has ended shows (R191, R245). -/
def State.ShowsEncodeEnd (t : State) : Prop :=
  (t.status = .done ∧ t.errCode = none) ∨
    (t.status = .error ∧ t.outLen = 0#32 ∧ (t.errCode = some .invalidInput ∨ t.errCode = some .outputOverflow))

theorem encodeRule_showsEncodeEnd : EncodeRule (fun _ _ => True) State.ShowsEncodeEnd where
  moves _ _ _ := trivial
  ends _ _ _ := .inl ⟨rfl, rfl⟩
  fails _ hr := .inr ⟨rfl, rfl, hr.kind.symm.imp (congrArg some) (congrArg some)⟩

/-- Settles O49: the entry fails by one of its two errors, or the run behind it ends within its fuel. -/
theorem encodeAlwaysEnds : Obligations.EncodeAlwaysEnds := by
  unfold Obligations.EncodeAlwaysEnds
  intro s hidle
  cases hentry : encodeEntry s with
  | ok u => exact encodeRule_showsEncodeEnd.exec hentry trivial
  | error e =>
    have hkind : e = .invalidInput ∨ e = .outputOverflow := (encodeEntry_error hentry).imp And.right id
    exact ⟨_, exec_encode_of_entry_error hentry, hidle,
      .inr ⟨rfl, rfl, hkind.imp (congrArg some) (congrArg some)⟩⟩

end Sys2Proof.Machine
end

section
/-! SUPPORT. Two runs of ENCODE on the same input: a simulation along the transitions of both (42_encoder.md R193). -/

namespace Sys2Proof.Machine

/-! ## The run detector and the match finder read the input alone -/

theorem runAt_congr {m m' : Memory} {a n : Nat} (v : Byte) (h : ∀ k, k < n → m'.read (a + k) = m.read (a + k)) :
    runAt m' v a n = runAt m v a n := by
  induction n generalizing a with
  | zero => rfl
  | succ n ih =>
    have hrest : ∀ k, k < n → m'.read (a + 1 + k) = m.read (a + 1 + k) := fun k hk => by
      rw [Nat.add_assoc, Nat.add_comm 1]
      exact h (k + 1) (Nat.succ_lt_succ hk)
    rw [runAt, runAt, ih hrest, show m'.read a = m.read a from h 0 (Nat.zero_lt_succ n)]

theorem matchAt_congr {m m' : Memory} {a b n : Nat} (ha : ∀ k, k < n → m'.read (a + k) = m.read (a + k))
    (hb : ∀ k, k < n → m'.read (b + k) = m.read (b + k)) : matchAt m' a b n = matchAt m a b n := by
  induction n generalizing a b with
  | zero => rfl
  | succ n ih =>
    have hrest : ∀ {c}, (∀ k, k < n + 1 → m'.read (c + k) = m.read (c + k)) →
        ∀ k, k < n → m'.read (c + 1 + k) = m.read (c + 1 + k) := fun {c} hc k hk => by
      rw [Nat.add_assoc, Nat.add_comm 1]
      exact hc (k + 1) (Nat.succ_lt_succ hk)
    rw [matchAt, matchAt, ih (hrest ha) (hrest hb), show m'.read a = m.read a from ha 0 (Nat.zero_lt_succ n),
      show m'.read b = m.read b from hb 0 (Nat.zero_lt_succ n)]

section
variable {s s' t t' : State} {p : Nat}

theorem sameBuffer_of_sameInputs (h : SameBuffer s s') (hs : s.SameInputs t) (hs' : s'.SameInputs t') : SameBuffer t t' := by
  simp only [SameBuffer, State.inByte, hs.inLen, hs.inMem, hs'.inLen, hs'.inMem]
  exact h

theorem rleLen_of_sameBuffer (h : SameBuffer s s') (hp : p < s.inLen.toNat) : rleLen s' p = rleLen s p := by
  rw [rleLen, rleLen, h.1, h.2 p hp]
  exact congrArg (· + 1) (runAt_congr _ fun k hk => h.2 _ (by omega))

theorem matchLen_of_sameBuffer (h : SameBuffer s s') {i : Nat} (hi : 1 ≤ i) (hip : i ≤ p) :
    matchLen s' p i = matchLen s p i := by
  rw [matchLen, matchLen, h.1]
  exact matchAt_congr (fun k hk => h.2 _ (by omega)) fun k hk => h.2 _ (by omega)

theorem bestMatch_of_sameBuffer (h : SameBuffer s s') (p : Nat) : bestMatch s' p = bestMatch s p := by
  refine List.foldl_ext _ _ _ fun best i hi => ?_
  rw [List.mem_range'_1] at hi
  rw [betterMatch, betterMatch, matchLen_of_sameBuffer h hi.1 (by omega)]

theorem EncoderRegs.after_of_sameBuffer (h : SameBuffer s s') (hp : p < s.inLen.toNat) :
    EncoderRegs.after s' p = EncoderRegs.after s p := by
  rw [after, after, rleLen_of_sameBuffer h hp, bestMatch_of_sameBuffer h p]

/-! ## States that agree on what an ENCODE reads -/

/-- Two states that agree on the input, the pending literals, the output so far (the header's place in front) and the two
parameters an ENCODE looks at. -/
structure State.EncodeTwin (s s' : State) : Prop where
  buffer : SameBuffer s s'
  outCap : s'.cfg.outCap = s.cfg.outCap
  mode : s'.cfg.rawLongMode = s.cfg.rawLongMode
  winCur : s'.winCur = s.winCur
  winWf : s.win.wf = true
  winWf' : s'.win.wf = true
  literals : ∀ k, k < s.winCur.toNat → s'.win.read k = s.win.read k
  out : ∃ b0 b1 body, s.HoldsOut (b0 :: b1 :: body) ∧ s'.HoldsOut (b0 :: b1 :: body)

/-- Two results of one operation: states that agree, or the same error. -/
def EncodeTwinResult (x x' : Except ErrKind State) : Prop :=
  (∃ t t', x = .ok t ∧ x' = .ok t' ∧ t.EncodeTwin t') ∨ ∃ e, x = .error e ∧ x' = .error e

theorem State.EncodeTwin.inLen (h : s.EncodeTwin s') : s'.inLen = s.inLen := h.buffer.1

theorem State.EncodeTwin.inByte (h : s.EncodeTwin s') (hp : p < s.inLen.toNat) : s'.inByte p = s.inByte p := h.buffer.2 p hp

theorem State.EncodeTwin.rawMax (h : s.EncodeTwin s') : s'.cfg.rawMax = s.cfg.rawMax := by
  rw [Config.rawMax, Config.rawMax, h.mode]

theorem State.EncodeTwin.pendingLiterals (h : s.EncodeTwin s') : s'.pendingLiterals = s.pendingLiterals := by
  rw [State.pendingLiterals, State.pendingLiterals, h.winCur, Memory.bytes_eq_iff]
  intro k hk
  rw [Nat.zero_add]
  exact h.literals k hk

/-- Both OUTs hold the same bytes below the same OUT_LEN. -/
theorem State.EncodeTwin.sameOut (h : s.EncodeTwin s') :
    s'.outLen = s.outLen ∧ ∀ i, i < s.outLen.toNat → s'.outByte i = s.outByte i := by
  obtain ⟨b0, b1, body, hout, hout'⟩ := h.out
  refine ⟨BitVec.eq_of_toNat_eq (by rw [hout.length, hout'.length]), fun i hi => ?_⟩
  rw [hout.length] at hi
  rw [hout.bytes i hi, hout'.bytes i hi]

theorem State.EncodeTwin.withEncoder (h : s.EncodeTwin s') (r r' : EncoderRegs) :
    (s.withEncoder r).EncodeTwin (s'.withEncoder r') := by
  obtain ⟨b0, b1, body, hout, hout'⟩ := h.out
  exact { h with out := ⟨b0, b1, body, hout.of_out rfl rfl rfl, hout'.of_out rfl rfl rfl⟩ }

/-! ## The operations of an ENCODE keep the agreement -/

theorem State.EncodeTwin.of_outOnly (h : s.EncodeTwin s') (hs : s.OutOnly t) (hs' : s'.OutOnly t')
    (hout : ∃ b0 b1 body, t.HoldsOut (b0 :: b1 :: body) ∧ t'.HoldsOut (b0 :: b1 :: body)) : t.EncodeTwin t' where
  buffer := sameBuffer_of_sameInputs h.buffer hs.sameInputs hs'.sameInputs
  outCap := by rw [hs.cfg, hs'.cfg, h.outCap]
  mode := by rw [hs.cfg, hs'.cfg, h.mode]
  winCur := by rw [hs.winCur, hs'.winCur, h.winCur]
  winWf := by rw [hs.win]; exact h.winWf
  winWf' := by rw [hs'.win]; exact h.winWf'
  literals := by rw [hs.win, hs'.win, hs.winCur]; exact h.literals
  out := hout

theorem State.EncodeTwin.appendAll (h : s.EncodeTwin s') (bs : List Byte) :
    EncodeTwinResult (s.appendAll bs) (s'.appendAll bs) := by
  obtain ⟨b0, b1, body, hout, hout'⟩ := h.out
  by_cases hroom : (b0 :: b1 :: body ++ bs).length ≤ s.cfg.outCap.toNat
  · obtain ⟨t, ht, hres⟩ := hout.appendAll bs hroom
    obtain ⟨t', ht', hres'⟩ := hout'.appendAll bs (by rw [h.outCap]; exact hroom)
    exact .inl ⟨t, t', ht, ht', h.of_outOnly (State.appendAll_outOnly ht) (State.appendAll_outOnly ht')
      ⟨b0, b1, body ++ bs, hres, hres'⟩⟩
  · have hover := Nat.not_le.mp hroom
    rw [List.length_append] at hover
    refine .inr ⟨.outputOverflow, State.appendAll_overflow ?_ ?_, State.appendAll_overflow ?_ ?_⟩
    · rw [hout.length]; exact hout.room
    · rw [hout.length]; exact hover
    · rw [hout'.length]; exact hout'.room
    · rw [hout'.length, h.outCap]; exact hover

theorem State.EncodeTwin.resetWindow (h : s.EncodeTwin s') : s.resetWindow.EncodeTwin s'.resetWindow := by
  obtain ⟨b0, b1, body, hout, hout'⟩ := h.out
  exact { h with
    winCur := rfl, winWf := rfl, winWf' := rfl, literals := fun k hk => absurd hk (Nat.not_lt_zero k)
    out := ⟨b0, b1, body, hout.of_out rfl rfl rfl, hout'.of_out rfl rfl rfl⟩ }

theorem State.EncodeTwin.flush (h : s.EncodeTwin s') : EncodeTwinResult s.flush s'.flush := by
  rw [State.flush, State.flush, h.winCur, h.pendingLiterals]
  rcases h.appendAll (rawHead s.winCur.toNat ++ s.pendingLiterals) with ⟨t, t', ht, ht', htwin⟩ | ⟨e, he, he'⟩
  · rw [ht, ht']
    exact .inl ⟨_, _, rfl, rfl, htwin.resetWindow⟩
  · rw [he, he']
    exact .inr ⟨e, rfl, rfl⟩

theorem State.EncodeTwin.winAppend (h : s.EncodeTwin s') (b : Byte) : (s.winAppend b).EncodeTwin (s'.winAppend b) := by
  obtain ⟨b0, b1, body, hout, hout'⟩ := h.out
  refine { h with
    winCur := congrArg (· + 1#13) h.winCur, winWf := State.winAppend_win_wf h.winWf b
    winWf' := State.winAppend_win_wf h.winWf' b, literals := fun k hk => ?_
    out := ⟨b0, b1, body, hout.of_out rfl rfl rfl, hout'.of_out rfl rfl rfl⟩ }
  rw [State.winAppend_winCur_toNat] at hk
  rw [State.winAppend_win_read h.winWf, State.winAppend_win_read h.winWf', h.winCur]
  split
  · rfl
  · exact h.literals k (by omega)

theorem State.EncodeTwin.literal (h : s.EncodeTwin s') (b : Byte) : EncodeTwinResult (s.literal b) (s'.literal b) := by
  rw [State.literal, State.literal, h.winCur, h.rawMax]
  split
  · rcases h.flush with ⟨t, t', ht, ht', htwin⟩ | ⟨e, he, he'⟩
    · rw [ht, ht']
      exact .inl ⟨_, _, rfl, rfl, htwin.winAppend b⟩
    · rw [he, he']
      exact .inr ⟨e, rfl, rfl⟩
  · exact .inl ⟨_, _, rfl, rfl, h.winAppend b⟩

theorem State.EncodeTwin.flushAndEmit (h : s.EncodeTwin s') (bs : List Byte) :
    EncodeTwinResult (s.flushAndEmit bs) (s'.flushAndEmit bs) := by
  rw [State.flushAndEmit, State.flushAndEmit]
  rcases h.flush with ⟨t, t', ht, ht', htwin⟩ | ⟨e, he, he'⟩
  · rw [ht, ht']
    exact htwin.appendAll bs
  · rw [he, he']
    exact .inr ⟨e, rfl, rfl⟩

theorem State.EncodeTwin.encodeAt (h : s.EncodeTwin s') (hp : p < s.inLen.toNat) :
    EncodeTwinResult (encodeAt p s) (encodeAt p s') := by
  rw [Machine.encodeAt, Machine.encodeAt, rleLen_of_sameBuffer h.buffer hp, bestMatch_of_sameBuffer h.buffer p, h.inByte hp]
  split
  · exact h.literal _
  · exact h.flushAndEmit _
  · exact h.flushAndEmit _

theorem State.EncodeTwin.patchHeader (h : s.EncodeTwin s') (l : Nat) : (s.patchHeader l).EncodeTwin (s'.patchHeader l) := by
  obtain ⟨b0, b1, body, hout, hout'⟩ := h.out
  exact h.of_outOnly ⟨rfl⟩ ⟨rfl⟩ ⟨_, _, body, hout.patchHeader l, hout'.patchHeader l⟩

theorem State.EncodeTwin.encodeFinish (h : s.EncodeTwin s') : EncodeTwinResult s.encodeFinish s'.encodeFinish := by
  rw [State.encodeFinish, State.encodeFinish]
  rcases h.flush with ⟨t, t', ht, ht', htwin⟩ | ⟨e, he, he'⟩
  · obtain ⟨hlen, -⟩ := htwin.sameOut
    simp only [ht, ht', hlen]
    split
    · exact .inr ⟨.invalidInput, rfl, rfl⟩
    · rw [← State.appendAll_singleton, ← State.appendAll_singleton]
      exact (htwin.patchHeader _).appendAll _
  · rw [he, he']
    exact .inr ⟨e, rfl, rfl⟩

/-! ## Two ENCODEs side by side -/

/-- What the host sees of the outcome of an ENCODE (R193). -/
structure State.SameOutput (t t' : State) : Prop where
  status : t'.status = t.status
  errCode : t'.errCode = t.errCode
  outLen : t'.outLen = t.outLen
  out : ∀ i, i < t.outLen.toNat → t'.outByte i = t.outByte i

theorem raiseError_sameOutput {p : RaisePoint} (hp : p ≠ .command) (e : ErrKind) (s s' : State) :
    (raiseError e p s).SameOutput (raiseError e p s') := by
  have hzero : ∀ u, (raiseError e p u).outLen = 0#32 := fun u => by
    cases p with
    | command => exact absurd rfl hp
    | decodeEntry => rfl
    | decodeRunning => rfl
    | encodeEntry => rfl
    | encodeRunning => rfl
  refine ⟨by rw [raiseError_status, raiseError_status], by rw [raiseError_errCode, raiseError_errCode],
    by rw [hzero, hzero], fun i hi => ?_⟩
  rw [hzero] at hi
  exact absurd hi (Nat.not_lt_zero i)

theorem State.EncodeTwin.sameOutput (h : s.EncodeTwin s') : s.succeed.endCommand.SameOutput s'.succeed.endCommand := by
  obtain ⟨hlen, hout⟩ := h.sameOut
  exact ⟨rfl, rfl, hlen, hout⟩

/-- Two ENCODEs after the same number of transitions. -/
inductive EncodePaired (s s' : State) : Prop
  | running (r : EncoderRegs) (he : s.engine = .encoding r) (he' : s'.engine = .encoding r) (h : s.EncodeTwin s')
  | ended (he : s.engine = .idle) (he' : s'.engine = .idle) (h : s.SameOutput s')

theorem EncodePaired.raise {r : EncoderRegs} {e : ErrKind} (he : s.engine = .encoding r) (he' : s'.engine = .encoding r)
    (hr : EncoderRaises r s e) (hr' : EncoderRaises r s' e) : EncodePaired (encoderStep r s) (encoderStep r s') := by
  rw [encoderStep_of_raises hr, encoderStep_of_raises hr']
  exact .ended (raiseError_encodeRunning_engine he e) (raiseError_encodeRunning_engine he' e)
    (raiseError_sameOutput (fun hp => by cases hp) e s s')

theorem State.EncodeTwin.encoderStep {r : EncoderRegs} (h : s.EncodeTwin s') (he : s.engine = .encoding r)
    (he' : s'.engine = .encoding r) : EncodePaired (encoderStep r s) (encoderStep r s') := by
  by_cases hp : r.p.toNat < s.inLen.toNat
  · have hp' : r.p.toNat < s'.inLen.toNat := by rw [h.inLen]; exact hp
    rcases h.encodeAt hp with ⟨t, t', ht, ht', htwin⟩ | ⟨e, hat, hat'⟩
    · rw [encoderStep_of_encodeAt_ok hp ht, encoderStep_of_encodeAt_ok hp' ht', EncoderRegs.after_of_sameBuffer h.buffer hp]
      exact .running _ rfl rfl (htwin.withEncoder _ _)
    · exact .raise he he' (.inl ⟨hp, hat⟩) (.inl ⟨hp', hat'⟩)
  · have hge := Nat.not_lt.mp hp
    have hge' : s'.inLen.toNat ≤ r.p.toNat := by rw [h.inLen]; exact hge
    rcases h.encodeFinish with ⟨t, t', ht, ht', htwin⟩ | ⟨e, hfin, hfin'⟩
    · rw [encoderStep_of_encodeFinish_ok hge ht, encoderStep_of_encodeFinish_ok hge' ht']
      exact .ended rfl rfl htwin.sameOutput
    · exact .raise he he' (.inr ⟨hge, hfin⟩) (.inr ⟨hge', hfin'⟩)

theorem encoderRun_of_idle (n : Nat) (he : s.engine = .idle) : encoderRun n s = s := by
  cases n with
  | zero => rfl
  | succ n => simp only [encoderRun, he]

theorem encoderRun_succ {r : EncoderRegs} (n : Nat) (he : s.engine = .encoding r) :
    encoderRun (n + 1) s = encoderRun n (encoderStep r s) := by
  simp only [encoderRun, he]

theorem EncodePaired.encoderRun (n : Nat) (h : EncodePaired s s') : EncodePaired (encoderRun n s) (encoderRun n s') := by
  induction n generalizing s s' with
  | zero => exact h
  | succ n ih =>
    cases h with
    | running r he he' htwin =>
      rw [encoderRun_succ n he, encoderRun_succ n he']
      exact ih (htwin.encoderStep he he')
    | ended he he' hsame =>
      rw [encoderRun_of_idle _ he, encoderRun_of_idle _ he']
      exact .ended he he' hsame

theorem EncodePaired.sameOutput (h : EncodePaired s s') (hidle : s.engine = .idle) : s.SameOutput s' := by
  cases h with
  | running r he _ _ => rw [hidle] at he; cases he
  | ended _ _ h => exact h

/-! ## The entries -/

theorem encodeEntry_of_empty (h : s.inLen = 0#32) : encodeEntry s = .error .invalidInput := by
  rw [encodeEntry, if_pos h]

theorem encodeEntry_of_full (hne : s.inLen ≠ 0#32) (hcap : s.cfg.outCap.toNat < 2) :
    encodeEntry s = .error .outputOverflow := by
  have hover := State.appendAll_overflow (bs := [0x00#8, 0x00#8]) (s := { s with outLen := 0#32 }) (Nat.zero_le _) hcap
  simp only [encodeEntry, if_neg hne, hover]

/-- Where there is input and room for it, the header's place is all that OUT holds behind the entry (R171). -/
theorem encodeEntry_holdsOut (hwf : s.outMem.wf = true) (hne : s.inLen ≠ 0#32) (hcap : 2 ≤ s.cfg.outCap.toNat) :
    ∃ u, encodeEntry s = .ok u ∧ u.HoldsOut [0x00#8, 0x00#8] := by
  have hempty : ({ s with outLen := 0#32 } : State).HoldsOut [] :=
    ⟨hwf, rfl, Nat.zero_le _, fun i hi => absurd hi (Nat.not_lt_zero i)⟩
  obtain ⟨t, ht, hout⟩ := hempty.appendAll [0x00#8, 0x00#8] hcap
  exact ⟨t.resetWindow.withEncoder EncoderRegs.enter, by simp only [encodeEntry, if_neg hne, ht], hout.of_out rfl rfl rfl⟩

/-- Behind their entries the two ENCODEs agree. -/
theorem encodePaired_entry {u u' : State} (hbuf : SameBuffer s s') (hcap : s'.cfg.outCap = s.cfg.outCap)
    (hmode : s'.cfg.rawLongMode = s.cfg.rawLongMode) (hu : encodeEntry s = .ok u) (hu' : encodeEntry s' = .ok u')
    (hout : u.HoldsOut [0x00#8, 0x00#8]) (hout' : u'.HoldsOut [0x00#8, 0x00#8]) : EncodePaired u u' := by
  obtain ⟨-, hframe⟩ := encodeEntry_ok hu
  obtain ⟨-, hframe'⟩ := encodeEntry_ok hu'
  rw [hframe] at hout ⊢
  rw [hframe'] at hout' ⊢
  exact .running _ rfl rfl
    { buffer := hbuf, outCap := hcap, mode := hmode, winCur := rfl, winWf := rfl, winWf' := rfl
      literals := fun k hk => absurd hk (Nat.not_lt_zero k), out := ⟨_, _, [], hout, hout'⟩ }

theorem exec_encode_sameOutput (hwf : s.outMem.wf = true) (hwf' : s'.outMem.wf = true) (hbuf : SameBuffer s s')
    (hcap : s'.cfg.outCap = s.cfg.outCap) (hmode : s'.cfg.rawLongMode = s.cfg.rawLongMode)
    (h : exec .encode s = .next t) (h' : exec .encode s' = .next t') : t.SameOutput t' := by
  have hlen : s'.inLen = s.inLen := hbuf.1
  have hraise : ∀ {e}, encodeEntry s = .error e → encodeEntry s' = .error e → t.SameOutput t' := fun {e} he he' => by
    rw [exec_encode_of_entry_error he] at h
    rw [exec_encode_of_entry_error he'] at h'
    cases h
    cases h'
    exact raiseError_sameOutput (fun hp => by cases hp) e s s'
  by_cases hin : s.inLen = 0#32
  · exact hraise (encodeEntry_of_empty hin) (encodeEntry_of_empty (hlen.trans hin))
  have hin' : s'.inLen ≠ 0#32 := fun hz => hin (hlen.symm.trans hz)
  by_cases hroom : 2 ≤ s.cfg.outCap.toNat
  · obtain ⟨u, hu, hout⟩ := encodeEntry_holdsOut hwf hin hroom
    obtain ⟨u', hu', hout'⟩ := encodeEntry_holdsOut hwf' hin' (by rw [hcap]; exact hroom)
    rw [exec_encode_of_entry hu] at h
    rw [exec_encode_of_entry hu', encodeFuel, hlen, ← encodeFuel] at h'
    cases h
    cases h'
    exact ((encodePaired_entry hbuf hcap hmode hu hu' hout hout').encoderRun _).sameOutput (encoderRun_idle_of_entry hu)
  · have hfull := Nat.not_le.mp hroom
    exact hraise (encodeEntry_of_full hin hfull) (encodeEntry_of_full hin' (by rw [hcap]; exact hfull))

end

/-- Settles O55: the two runs go through states that agree on all a transition reads, until both end alike. -/
theorem encodeDependsOnItsInputAlone : Obligations.EncodeDependsOnItsInputAlone := by
  unfold Obligations.EncodeDependsOnItsInputAlone
  intro s s' t t' _ _ hwf hwf' hbuf hcap hmode h h'
  obtain ⟨hstatus, hcode, hlen, hout⟩ := exec_encode_sameOutput hwf hwf' hbuf hcap hmode h h'
  exact ⟨hstatus, hcode, hlen, hout⟩

end Sys2Proof.Machine
end

section
/-! SUPPORT. Where a run and a match stop, and which match is the best (42_encoder.md R173, R174); the tokens of EmitRLE and
EmitLZ (R178, R179). -/

namespace Sys2Proof.Machine

/-! ## Run detector and match finder -/

/-- A run shorter than its limit stops at a byte that differs. -/
theorem runAt_stops {m : Memory} {v : Byte} {a n : Nat} (h : runAt m v a n < n) : m.read (a + runAt m v a n) ≠ v := by
  induction n generalizing a with
  | zero => exact absurd h (Nat.not_lt_zero _)
  | succ n ih =>
    unfold runAt at h ⊢
    split at h
    next heq =>
      rw [if_pos heq, Nat.add_comm _ 1, ← Nat.add_assoc]
      exact ih (Nat.lt_of_succ_lt_succ h)
    next hne =>
      rw [if_neg hne]
      exact hne

/-- A match shorter than its limit stops at two bytes that differ. -/
theorem matchAt_stops {m : Memory} {a b n : Nat} (h : matchAt m a b n < n) :
    m.read (a + matchAt m a b n) ≠ m.read (b + matchAt m a b n) := by
  induction n generalizing a b with
  | zero => exact absurd h (Nat.not_lt_zero _)
  | succ n ih =>
    unfold matchAt at h ⊢
    split at h
    next heq =>
      rw [if_pos heq, Nat.add_comm _ 1, ← Nat.add_assoc, ← Nat.add_assoc]
      exact ih (Nat.lt_of_succ_lt_succ h)
    next hne =>
      rw [if_neg hne]
      exact hne

/-- The longest match of the offsets 1 to n, of equal ones the one with the largest offset. -/
structure LongestMatch (s : State) (p n : Nat) (best : Nat × Nat) : Prop where
  offset : 1 ≤ best.2 ∧ best.2 ≤ n
  length : best.1 = matchLen s p best.2
  longest : ∀ i, 1 ≤ i → i ≤ n → matchLen s p i ≤ best.1 ∧ (matchLen s p i = best.1 → i ≤ best.2)

section
variable {s : State} {p n : Nat} {best : Nat × Nat}

/-- The first offset is taken, however short its match. -/
theorem longestMatch_first (s : State) (p : Nat) : LongestMatch s p 1 (betterMatch s p (0, 0) 1) := by
  rw [betterMatch, if_pos (Nat.zero_le _)]
  refine ⟨⟨Nat.le_refl 1, Nat.le_refl 1⟩, rfl, fun i h1 hn => ?_⟩
  obtain rfl : i = 1 := Nat.le_antisymm hn h1
  exact ⟨Nat.le_refl _, fun _ => Nat.le_refl 1⟩

/-- The next offset is taken where its match is no shorter than the best so far. -/
theorem LongestMatch.next (h : LongestMatch s p n best) : LongestMatch s p (n + 1) (betterMatch s p best (n + 1)) := by
  obtain ⟨⟨hpos, hle⟩, hlen, hlong⟩ := h
  unfold betterMatch
  split
  next hbetter =>
    refine ⟨⟨Nat.le_add_left 1 n, Nat.le_refl _⟩, rfl, fun i h1 hi => ⟨?_, fun _ => hi⟩⟩
    rcases Nat.lt_succ_iff_lt_or_eq.mp (Nat.lt_succ_of_le hi) with hlt | rfl
    · exact Nat.le_trans (hlong i h1 (Nat.le_of_lt_succ hlt)).1 hbetter
    · exact Nat.le_refl _
  next hworse =>
    refine ⟨⟨hpos, Nat.le_succ_of_le hle⟩, hlen, fun i h1 hi => ?_⟩
    rcases Nat.lt_succ_iff_lt_or_eq.mp (Nat.lt_succ_of_le hi) with hlt | rfl
    · exact hlong i h1 (Nat.le_of_lt_succ hlt)
    · exact ⟨by omega, fun heq => absurd (Nat.le_of_eq heq.symm) hworse⟩

theorem longestMatch_foldl (s : State) (p n : Nat) :
    LongestMatch s p (n + 1) ((List.range' 1 (n + 1)).foldl (betterMatch s p) (0, 0)) := by
  induction n with
  | zero => exact longestMatch_first s p
  | succ n ih =>
    rw [List.range'_1_concat, List.foldl_append, Nat.add_comm 1 (n + 1)]
    exact ih.next

theorem bestMatch_longest (h : 1 < min Config.searchLimit p) :
    LongestMatch s p (min Config.searchLimit p - 1) (bestMatch s p) := by
  obtain ⟨n, hn⟩ : ∃ n, min Config.searchLimit p - 1 = n + 1 := ⟨min Config.searchLimit p - 2, by omega⟩
  rw [bestMatch, hn]
  exact longestMatch_foldl s p n

theorem bestMatch_none (h : min Config.searchLimit p ≤ 1) : bestMatch s p = (0, 0) := by
  rw [bestMatch, Nat.sub_eq_zero_of_le h]
  rfl

end

/-- Settles O42: the run counts bytes equal to IN[p] only, and where it is not cut it stops at one that differs. -/
theorem runDetector : Obligations.RunDetector := by
  unfold Obligations.RunDetector
  intro s p hp
  have hmax : Config.rleMax = 4099 := rfl
  obtain ⟨hpos, hle, hin⟩ := rleLen_bounds hp
  refine ⟨hpos, by omega, fun k hk => rleLen_spec s p k hk, fun hcut => ?_⟩
  unfold rleLen at hcut ⊢
  rw [Nat.add_comm _ 1, ← Nat.add_assoc]
  exact runAt_stops (by omega)

/-- Settles O43: the fold keeps the longest match of the offsets it has seen. -/
theorem matchFinder : Obligations.MatchFinder := by
  unfold Obligations.MatchFinder
  intro s p hp
  refine ⟨fun hnone => bestMatch_none hnone, fun hsome => ?_, fun i h1 hi => ?_⟩
  · obtain ⟨⟨hpos, hle⟩, hlen, hlong⟩ := bestMatch_longest (s := s) (p := p) hsome
    have hlimit : Config.searchLimit = 0x1FFF := rfl
    rw [hlimit] at hle hlong
    exact ⟨hpos, by omega, hlen, fun i h1 hi => hlong i h1 (by omega)⟩
  · have hle := matchAt_le s.inMem p (p - i) (s.inLen.toNat - p)
    rw [← matchLen] at hle
    exact ⟨by omega, fun k hk => matchAt_spec s.inMem p (p - i) _ k hk, fun hcut => matchAt_stops (by rw [← matchLen]; omega)⟩

/-! ## Token emission -/

/-- Settles O47: the short form holds counts up to 19, the long form those above. -/
theorem emitRle : Obligations.EmitRle := by
  unfold Obligations.EmitRle
  intro n v h4 hmax
  refine ⟨fun hn => ⟨_, ?_, rleBytes_short hn v⟩, fun hn => ⟨_, ?_, rleBytes_long hn hmax v⟩⟩
  · rw [BitVec.toNat_ofNat]; omega
  · rw [BitVec.toNat_ofNat]; omega

theorem contCounts_pos {fuel r : Nat} : ∀ k ∈ contCounts fuel r, 1 ≤ k.toNat := by
  induction fuel generalizing r with
  | zero => exact fun k hk => absurd hk List.not_mem_nil
  | succ fuel ih =>
    rw [contCounts]
    split
    next => exact fun k hk => absurd hk List.not_mem_nil
    next hr =>
      rw [List.forall_mem_cons, BitVec.toNat_ofNat]
      exact ⟨by omega, ih⟩

/-- Only the last chunk is shorter than 31: where more follow, it was cut at 31. -/
theorem contCounts_dropLast {fuel r : Nat} : ∀ k ∈ (contCounts fuel r).dropLast, k.toNat = 31 := by
  induction fuel generalizing r with
  | zero => exact fun k hk => absurd hk List.not_mem_nil
  | succ fuel ih =>
    rw [contCounts]
    split
    next => exact fun k hk => absurd hk List.not_mem_nil
    next =>
      by_cases hlast : contCounts fuel (r - min r 31) = []
      · rw [hlast]
        exact fun k hk => absurd hk List.not_mem_nil
      · have hmore : 31 ≤ r := by
          by_contra hlt
          refine hlast ?_
          rw [show r - min r 31 = 0 by omega]
          cases fuel <;> rfl
        rw [List.dropLast_cons_of_ne_nil hlast, List.forall_mem_cons, Nat.min_eq_right hmore]
        exact ⟨rfl, ih⟩

/-- Settles O48: an LZ token of at most 7 bytes, and the rest of the length in chunks of at most 31. -/
theorem emitLz : Obligations.EmitLz := by
  unfold Obligations.EmitLz
  intro len off h4 _ hoff
  refine ⟨_, _, _, lzBytes_eq hoff, ?_, ?_, ?_, contCounts_pos, contCounts_dropLast⟩
  · rw [BitVec.toNat_ofNat]; omega
  · rw [BitVec.toNat_ofNat]; omega
  · rw [contCounts_sum (by omega)]; omega

end Sys2Proof.Machine
end

section
/-! SUPPORT. The operations of ENCODE by their outcome: flush, literal accumulator, tokens behind a flush, one position, entry
and finish (42_encoder.md R171 to R191). -/

namespace Sys2Proof.Machine

/-! ## Flush -/

section
variable {s t u : State} {e : ErrKind}

theorem State.flushed_length (s : State) :
    (rawHead s.winCur.toNat ++ s.pendingLiterals).length = (rawHead s.winCur.toNat).length + s.winCur.toNat := by
  rw [List.length_append, State.pendingLiterals, Memory.bytes_length]

theorem State.flush_of_appendAll_ok (h : s.appendAll (rawHead s.winCur.toNat ++ s.pendingLiterals) = .ok u) :
    s.flush = .ok u.resetWindow := by
  rw [State.flush, h]

theorem State.flush_of_appendAll_error (h : s.appendAll (rawHead s.winCur.toNat ++ s.pendingLiterals) = .error e) :
    s.flush = .error e := by
  rw [State.flush, h]

/-- A flush that succeeds changes OUT, and resets the window (R177). -/
theorem State.flush_frame (h : s.flush = .ok t) :
    t = { s with outMem := t.outMem, outLen := t.outLen, win := Memory.fillAll s.cfg.fill, winCur := 0#13 } := by
  unfold State.flush at h
  split at h
  next u happ =>
    cases h
    have hsame := (State.appendAll_outOnly happ).same
    rw [hsame]
    rfl
  next => cases h

theorem State.flush_of_room (hwf : s.outMem.wf = true)
    (hroom : s.outLen.toNat + ((rawHead s.winCur.toNat).length + s.winCur.toNat) ≤ s.cfg.outCap.toNat) :
    ∃ t, s.flush = .ok t ∧ s.Appended t ((rawHead s.winCur.toNat).length + s.winCur.toNat)
      fun k => (rawHead s.winCur.toNat ++ s.pendingLiterals).getD k 0#8 := by
  obtain ⟨u, hu, happ, -⟩ := State.appendAll_spec hwf (by rw [State.flushed_length]; exact hroom)
  rw [State.flushed_length] at happ
  exact ⟨u.resetWindow, State.flush_of_appendAll_ok hu, { happ with }⟩

theorem State.flush_of_full (hle : s.outLen.toNat ≤ s.cfg.outCap.toNat)
    (hfull : s.cfg.outCap.toNat < s.outLen.toNat + ((rawHead s.winCur.toNat).length + s.winCur.toNat)) :
    s.flush = .error .outputOverflow :=
  State.flush_of_appendAll_error (State.appendAll_overflow hle (by rw [State.flushed_length]; exact hfull))

end

/-- Settles O45: a flush appends its bytes by the room in OUT, and its head is a RAW token's. -/
theorem flush : Obligations.Flush := by
  unfold Obligations.Flush
  refine ⟨fun s hwf hle => ⟨fun hroom => ?_, State.flush_of_full hle⟩, rfl, fun k rest h1 h2 => ?_, fun k rest h1 h2 => ?_⟩
  · obtain ⟨t, ht, happ⟩ := State.flush_of_room hwf hroom
    have hframe := State.flush_frame ht
    exact ⟨t, ht, happ, by rw [hframe], fun j => by rw [hframe]; rfl⟩
  · rw [rawHead_short h1 h2]
    exact ⟨_, decodeToken_encodeToken (.raws _) rest, by rw [BitVec.toNat_ofNat]; omega⟩
  · rw [rawHead_long h1 h2]
    exact ⟨_, _, decodeToken_encodeToken (.rawl _ _) rest, rawlLength_ofNat h2 (fun hm => by cases hm),
      fun h8 => rawlLength_ofNat h2 fun _ => h8⟩

/-! ## Literal accumulator -/

section
variable {s u : State} {e : ErrKind} {b : Byte}

theorem State.literal_of_ne (h : s.winCur.toNat ≠ s.cfg.rawMax) : s.literal b = .ok (s.winAppend b) := by
  rw [State.literal, if_neg h]

theorem State.literal_of_flush_ok (h : s.winCur.toNat = s.cfg.rawMax) (hf : s.flush = .ok u) :
    s.literal b = .ok (u.winAppend b) := by
  rw [State.literal, if_pos h, hf]

theorem State.literal_of_flush_error (h : s.winCur.toNat = s.cfg.rawMax) (hf : s.flush = .error e) :
    s.literal b = .error e := by
  rw [State.literal, if_pos h, hf]

/-- Where fewer than RAW_MAX literals are pending, one more does not wrap the cursor (R176). -/
theorem State.winAppend_winCur_of_lt (h : s.winCur.toNat < s.cfg.rawMax) (b : Byte) :
    (s.winAppend b).winCur.toNat = s.winCur.toNat + 1 := by
  obtain ⟨-, hmax⟩ := rawMax_le s.cfg
  rw [State.winAppend_winCur_toNat]
  omega

end

/-- Settles O46: one more literal, behind a flush where RAW_MAX are pending. -/
theorem literalAccumulator : Obligations.LiteralAccumulator := by
  unfold Obligations.LiteralAccumulator
  intro s b hwf
  refine ⟨fun hlt => ?_, fun u hfull hf => ?_, fun e hfull hf => State.literal_of_flush_error hfull hf⟩
  · have hcur := State.winAppend_winCur_of_lt hlt b
    exact ⟨_, State.literal_of_ne (Nat.ne_of_lt hlt), rfl, hcur, by rw [hcur]; exact hlt, State.winAppend_win_read hwf b⟩
  · refine ⟨_, State.literal_of_flush_ok hfull hf, ?_, fun j => ?_⟩
    · rw [State.flush_frame hf]
      rfl
    · rw [State.flush_frame hf]
      exact State.winAppend_win_read (Memory.wf_fillAll _) b j

/-! ## One position -/

section
variable {s u v : State} {r : EncoderRegs} {e : ErrKind} {bs : List Byte} {p rl ml : Nat}

theorem State.flushAndEmit_of_flush_ok (h : s.flush = .ok v) : s.flushAndEmit bs = v.appendAll bs := by
  rw [State.flushAndEmit, h]

theorem State.flushAndEmit_of_flush_error (h : s.flush = .error e) : s.flushAndEmit bs = .error e := by
  rw [State.flushAndEmit, h]

theorem choose_of_short (hr : rl < 4) (hm : ml < 4) : choose rl ml = .literal := if_pos ⟨hr, hm⟩

theorem choose_of_run (hr : 4 ≤ rl) (hle : ml ≤ rl) : choose rl ml = .rle := by
  rw [choose, if_neg fun h => Nat.not_lt.mpr hr h.1, if_pos hle]

theorem choose_of_match (hm : 4 ≤ ml) (hlt : rl < ml) : choose rl ml = .lz := by
  rw [choose, if_neg fun h => Nat.not_lt.mpr hm h.2, if_neg (Nat.not_le.mpr hlt)]

/-- What an ENCODE does at position p, and how far P moves. -/
structure ActsAt (p : Nat) (s : State) (act : Except ErrKind State) (n : Nat) : Prop where
  act : encodeAt p s = act
  length : choiceLength (rleLen s p) (bestMatch s p).1 = n

theorem actsAt_literal (hr : rleLen s p < 4) (hm : (bestMatch s p).1 < 4) : ActsAt p s (s.literal (s.inByte p)) 1 where
  act := by rw [encodeAt, choose_of_short hr hm]
  length := by rw [choiceLength, choose_of_short hr hm]

theorem actsAt_rle (hr : 4 ≤ rleLen s p) (hle : (bestMatch s p).1 ≤ rleLen s p) :
    ActsAt p s (s.flushAndEmit (rleBytes (rleLen s p) (s.inByte p))) (rleLen s p) where
  act := by rw [encodeAt, choose_of_run hr hle]
  length := by rw [choiceLength, choose_of_run hr hle]

theorem actsAt_lz (hm : 4 ≤ (bestMatch s p).1) (hlt : rleLen s p < (bestMatch s p).1) :
    ActsAt p s (s.flushAndEmit (lzBytes (bestMatch s p).1 (bestMatch s p).2)) (bestMatch s p).1 where
  act := by rw [encodeAt, choose_of_match hm hlt]
  length := by rw [choiceLength, choose_of_match hm hlt]

theorem step_of_actsAt_ok {n : Nat} (he : s.engine = .encoding r) (hp : r.p.toNat < s.inLen.toNat)
    (h : ActsAt r.p.toNat s (.ok u) n) : ∃ r', step s = .next (u.withEncoder r') ∧ r'.p.toNat = r.p.toNat + n :=
  ⟨EncoderRegs.after s r.p.toNat, by rw [step_of_encoding he, encoderStep_of_encodeAt_ok hp h.act],
    by rw [EncoderRegs.after_p hp, h.length]⟩

theorem step_of_raises (he : s.engine = .encoding r) (h : EncoderRaises r s e) :
    step s = .next (raiseError e .encodeRunning s) := by
  rw [step_of_encoding he, encoderStep_of_raises h]

theorem step_of_actsAt_error {n : Nat} (he : s.engine = .encoding r) (hp : r.p.toNat < s.inLen.toNat)
    (h : ActsAt r.p.toNat s (.error e) n) : step s = .next (raiseError e .encodeRunning s) :=
  step_of_raises he (.inl ⟨hp, h.act⟩)

end

/-- Settles O44: the three cases of the decision, each by the result of what it does; and what is emitted behind a flush, by the
room it leaves. -/
theorem encoderPosition : Obligations.EncoderPosition := by
  unfold Obligations.EncoderPosition
  refine ⟨fun s r he hp => ?_, fun s bs hwf hle => ⟨fun v hf hroom => ?_, fun v hf hfull => ?_, fun e hf => ?_⟩⟩
  · exact ⟨fun u hr hm h => step_of_actsAt_ok he hp (h ▸ actsAt_literal hr hm),
      fun u hr hle h => step_of_actsAt_ok he hp (h ▸ actsAt_rle hr hle),
      fun u hm hlt h => step_of_actsAt_ok he hp (h ▸ actsAt_lz hm hlt),
      fun e hr hm h => step_of_actsAt_error he hp (h ▸ actsAt_literal hr hm),
      fun e hr hle h => step_of_actsAt_error he hp (h ▸ actsAt_rle hr hle),
      fun e hm hlt h => step_of_actsAt_error he hp (h ▸ actsAt_lz hm hlt)⟩
  · obtain ⟨hwfv, -⟩ := State.flush_keeps_out hwf hle hf
    obtain ⟨t, ht, happ, -⟩ := State.appendAll_spec (bs := bs) hwfv hroom
    exact ⟨t, (State.flushAndEmit_of_flush_ok hf).trans ht, happ, (State.appendAll_outOnly ht).same⟩
  · obtain ⟨-, hlev⟩ := State.flush_keeps_out hwf hle hf
    exact (State.flushAndEmit_of_flush_ok hf).trans (State.appendAll_overflow hlev hfull)
  · exact State.flushAndEmit_of_flush_error hf

/-! ## Entry -/

/-- Settles O50: the entry by input and room; its errors are raised before the window reset. -/
theorem encodeEntry_holds : Obligations.EncodeEntry := by
  unfold Obligations.EncodeEntry
  intro s hwf
  refine ⟨fun hempty => ?_, fun hin hfull => ?_, fun hin hroom => ?_⟩
  · exact ⟨_, exec_encode_of_entry_error (encodeEntry_of_empty (BitVec.eq_of_toNat_eq hempty)), rfl⟩
  · exact ⟨_, exec_encode_of_entry_error (encodeEntry_of_full (fun hz => hin (by rw [hz]; rfl)) hfull), rfl⟩
  · obtain ⟨u, hu, hout⟩ := encodeEntry_holdsOut hwf (fun hz => hin (by rw [hz]; rfl)) hroom
    obtain ⟨-, hframe⟩ := encodeEntry_ok hu
    have hlen : u.outLen = 2#32 := BitVec.eq_of_toNat_eq hout.length
    refine ⟨u, EncoderRegs.enter, hu, exec_encode_of_entry hu, ?_, rfl, hout.bytes 0 (by decide), hout.bytes 1 (by decide),
      fun j => ?_⟩
    · rw [← hlen, hframe]
    · rw [hframe]
      rfl

/-! ## Finish -/

section
variable {s t u : State} {e : ErrKind}

theorem State.encodeFinish_of_flush_error (h : s.flush = .error e) : s.encodeFinish = .error e := by
  rw [State.encodeFinish, h]

theorem State.encodeFinish_of_too_long (h : s.flush = .ok u) (hlong : 0xFFFF < u.outLen.toNat) :
    s.encodeFinish = .error .invalidInput := by
  have hmax : Config.hdrMax < u.outLen.toNat := hlong
  simp only [State.encodeFinish, h, if_pos hmax]

theorem State.encodeFinish_of_fits (h : s.flush = .ok u) (hfits : u.outLen.toNat ≤ 0xFFFF) :
    s.encodeFinish = (u.patchHeader u.outLen.toNat).outAppend 0x00#8 := by
  have hmax : ¬ Config.hdrMax < u.outLen.toNat := Nat.not_lt.mpr hfits
  simp only [State.encodeFinish, h, if_neg hmax]

theorem State.patchHeader_outByte (hwf : u.outMem.wf = true) (l i : Nat) :
    (u.patchHeader l).outByte i = if i = 1 then byteOf (l >>> 8) else if i = 0 then byteOf l else u.outByte i := by
  rw [State.outByte, State.patchHeader_outMem, Memory.read_write (Memory.wf_write hwf _ _), Memory.read_write hwf]
  rfl

/-- A finish that succeeds changes OUT, and resets the window (R177, R190, R191). -/
theorem State.encodeFinish_frame (h : s.encodeFinish = .ok t) :
    t = { s with outMem := t.outMem, outLen := t.outLen, win := Memory.fillAll s.cfg.fill, winCur := 0#13 } := by
  cases hf : s.flush with
  | error e => rw [State.encodeFinish_of_flush_error hf] at h; cases h
  | ok u =>
    by_cases hfits : u.outLen.toNat ≤ 0xFFFF
    · rw [State.encodeFinish_of_fits hf hfits] at h
      have hsame := (State.OutOnly.appended h).same
      rw [State.patchHeader, State.flush_frame hf] at hsame
      exact hsame
    · rw [State.encodeFinish_of_too_long hf (Nat.not_le.mp hfits)] at h
      cases h

/-- Where the stream and its trailer fit, they stand in OUT with the header in front (R186, R190). -/
theorem State.encodeFinish_of_room (h : s.flush = .ok u) (hwf : u.outMem.wf = true) (hfits : u.outLen.toNat ≤ 0xFFFF)
    (hroom : u.outLen.toNat < u.cfg.outCap.toNat) :
    ∃ t, s.encodeFinish = .ok t ∧ u.OutOnly t ∧ t.outLen.toNat = u.outLen.toNat + 1 ∧
      ∀ i, t.outByte i = if i = u.outLen.toNat then 0x00#8 else (u.patchHeader u.outLen.toNat).outByte i := by
  have hwf1 : (u.patchHeader u.outLen.toNat).outMem.wf = true := Memory.wf_write (Memory.wf_write hwf _ _) _ _
  obtain ⟨t, happ⟩ : ∃ t, (u.patchHeader u.outLen.toNat).outAppend 0x00#8 = .ok t := ⟨_, State.outAppend_of_room _ hroom⟩
  obtain ⟨hlen, -, hread⟩ := State.outAppend_appended hwf1 (Nat.le_of_lt hroom) happ
  have hpatch : u.OutOnly (u.patchHeader u.outLen.toNat) := ⟨rfl⟩
  exact ⟨t, (State.encodeFinish_of_fits h hfits).trans happ, hpatch.trans (.appended happ), hlen, hread⟩

end

/-- Settles O51: the finish by the flush, the header limit and the room for the trailer. -/
theorem encoderFinish : Obligations.EncoderFinish := by
  unfold Obligations.EncoderFinish
  intro s r he hp
  refine ⟨fun e hf => step_of_raises he (.inr ⟨hp, State.encodeFinish_of_flush_error hf⟩),
    fun u hf hlong => step_of_raises he (.inr ⟨hp, State.encodeFinish_of_too_long hf hlong⟩),
    fun u hf hfits hfull => step_of_raises he (.inr ⟨hp, ?_⟩), fun u hf h2 hfits hroom hwf => ?_⟩
  · rw [State.encodeFinish_of_fits hf hfits]
    exact State.outAppend_full _ hfull
  · have hpatched := State.patchHeader_outByte hwf u.outLen.toNat
    obtain ⟨t, hfin, hsame, hlen, hread⟩ := State.encodeFinish_of_room hf hwf hfits hroom
    refine ⟨t.succeed.endCommand, by rw [step_of_encoding he, encoderStep_of_encodeFinish_ok hp hfin], ?_, hlen, ?_, ?_, ?_,
      fun i h2i hne => ?_⟩
    · rw [hsame.same]
      rfl
    · refine (congrArg BitVec.toNat (hread 0)).trans ?_
      rw [if_neg (by omega), hpatched]
      exact BitVec.toNat_ofNat _ _
    · refine (congrArg BitVec.toNat (hread 1)).trans ?_
      rw [if_neg (by omega), hpatched, if_pos rfl, Nat.shiftRight_eq_div_pow, byteOf_toNat (by omega)]
    · exact (hread _).trans (if_pos rfl)
    · refine (hread i).trans ?_
      rw [if_neg hne, hpatched, if_neg (by omega), if_neg (by omega)]

end Sys2Proof.Machine
end

section
/-! SUPPORT. What an ENCODE that succeeds leaves (42_encoder.md R191), and inputs so small that it does (R176 to R180). -/

namespace Sys2Proof.Machine

/-! ## Success -/

/-- A running ENCODE of s0 has changed OUT, the window and its own registers only. -/
structure EncodesFrom (s0 : State) (r : EncoderRegs) (s : State) : Prop where
  frame : s = { s0 with outMem := s.outMem, outLen := s.outLen, win := s.win, winCur := s.winCur, engine := .encoding r }
  winOk : s.WinOk

/-- An ENCODE of s0 that has ended, and with success, has changed OUT, reset the window, and set the status (R191). -/
def EncodedFrom (s0 t : State) : Prop :=
  t.status = .done →
    t = { s0 with outMem := t.outMem, outLen := t.outLen, win := Memory.fillAll s0.cfg.fill, winCur := 0#13,
                  status := .done, errCode := none, engine := .idle }

theorem encodeRule_encodedFrom (s0 : State) : EncodeRule (EncodesFrom s0) (EncodedFrom s0) where
  moves {r s t} h _ hat := by
    have hmove := encodeAt_ok h.winOk.pending hat
    have hwin := hmove.winOk h.winOk
    have hframe := hmove.frame
    rw [h.frame] at hframe
    exact ⟨congrArg (State.withEncoder _) hframe, hwin.wf, hwin.below, hwin.pending, hwin.drawn⟩
  ends {r s t} h _ hfin _ := by
    have hframe := State.encodeFinish_frame hfin
    rw [h.frame] at hframe
    exact congrArg (fun u : State => u.succeed.endCommand) hframe
  fails _ _ hdone := by
    rw [raiseError_status] at hdone
    cases hdone

theorem exec_encode_encodedFrom {s t : State} (h : exec .encode s = .next t) (hdone : t.status = .done) :
    t = { s with outMem := t.outMem, outLen := t.outLen, win := Memory.fillAll s.cfg.fill, winCur := 0#13,
                 status := .done, errCode := none, engine := .idle } := by
  cases hentry : encodeEntry s with
  | ok u =>
    obtain ⟨-, hframe⟩ := encodeEntry_ok hentry
    have hstart : EncodesFrom s EncoderRegs.enter u := ⟨by rw [hframe], encodeEntry_winOk hentry⟩
    obtain ⟨v, hv, -, hend⟩ := (encodeRule_encodedFrom s).exec hentry hstart
    rw [h] at hv
    cases hv
    exact hend hdone
  | error e =>
    rw [exec_encode_of_entry_error hentry] at h
    cases h
    rw [raiseError_status] at hdone
    cases hdone

/-- The header of a stream that fits is its length, low byte first (R81, R190). -/
theorem streamBytes_header {items : List Item} (h : declaredLength items ≤ 0xFFFF) :
    ((streamBytes items ++ [0x00#8]).getD 0 0#8).toNat + 256 * ((streamBytes items ++ [0x00#8]).getD 1 0#8).toNat =
      declaredLength items := by
  show (BitVec.ofNat 8 (declaredLength items)).toNat + 256 * (BitVec.ofNat 8 (declaredLength items >>> 8)).toNat = _
  rw [BitVec.toNat_ofNat, BitVec.toNat_ofNat, Nat.shiftRight_eq_div_pow]
  omega

/-- Settles O52: OUT holds a stream that means the input and its trailer, and the rest is as the run's frame says. -/
theorem encodeSuccess : Obligations.EncodeSuccess := by
  unfold Obligations.EncodeSuccess
  intro s t hidle hwf h hdone
  obtain ⟨⟨items, pos, hout, -, hmax, -⟩, -⟩ := exec_encode_holdsStream hwf h hdone
  have hframe := exec_encode_encodedFrom h hdone
  have hlen := streamBytes_length items
  have htotal : (streamBytes items ++ [0x00#8]).length = declaredLength items + 1 := by
    rw [List.length_append, hlen, List.length_singleton]
  have h2 : 2 ≤ declaredLength items := Nat.le_add_right 2 _
  refine ⟨declaredLength items, h2, hmax, hout.length.trans htotal, ?_, ?_, fun j => ?_, ?_⟩
  · rw [hout.bytes 0 (by omega), hout.bytes 1 (by omega)]
    exact streamBytes_header hmax
  · rw [hout.bytes _ (by omega), List.getD_append_right _ _ _ _ (Nat.le_of_eq hlen), hlen, Nat.sub_self]
    rfl
  · rw [hframe]
    rfl
  · rw [← hidle] at hframe
    rw [hframe]

/-! ## Small inputs -/

section
variable {s t : State} {p : Nat} {bs : List Byte}

theorem rawHead_length_le (k : Nat) : (rawHead k).length ≤ 2 * k := by
  unfold rawHead
  split
  next => exact Nat.zero_le _
  next hk =>
    split
    · simp only [List.length_singleton]; omega
    · simp only [List.length_cons, List.length_nil]; omega

theorem rleBytes_length_le (n : Nat) (v : Byte) : (rleBytes n v).length ≤ 3 := by
  unfold rleBytes
  split
  · exact Nat.le_succ 2
  · exact Nat.le_refl 3

theorem contBytes_length_le (fuel r : Nat) : (contBytes fuel r).length ≤ fuel := by
  induction fuel generalizing r with
  | zero => exact Nat.le_refl 0
  | succ fuel ih =>
    rw [contBytes]
    split
    · exact Nat.zero_le _
    · exact Nat.succ_le_succ (ih _)

theorem lzBytes_length_le (len off : Nat) : (lzBytes len off).length ≤ len + 2 := by
  rw [lzBytes, List.length_cons, List.length_cons]
  exact Nat.succ_le_succ (Nat.succ_le_succ (contBytes_length_le _ _))

/-- A list that fits is appended and makes OUT as much longer, whatever OUT holds. -/
theorem State.appendAll_of_room_outLen (h : s.outLen.toNat + bs.length ≤ s.cfg.outCap.toNat) :
    ∃ t, s.appendAll bs = .ok t ∧ t.outLen.toNat = s.outLen.toNat + bs.length := by
  induction bs generalizing s with
  | nil => exact ⟨s, rfl, rfl⟩
  | cons b bs ih =>
    rw [List.length_cons] at h ⊢
    have hlt : s.outLen.toNat < s.cfg.outCap.toNat := by omega
    have happ := State.outAppend_of_room b hlt
    have hone := toNat_succ hlt
    obtain ⟨t, ht, hlen⟩ := ih (s := { s with outMem := s.outMem.write s.outLen.toNat b, outLen := s.outLen + 1#32 })
      (by simp only [hone]; omega)
    refine ⟨t, by simp only [State.appendAll, happ, ht], ?_⟩
    rw [hlen]
    simp only [hone]
    omega

/-- The input is so small that three bytes of output for each of its bytes, the header and the trailer fit. -/
structure State.SmallInput (s : State) : Prop where
  header : 3 * s.inLen.toNat + 2 ≤ 0xFFFF
  room : 3 * s.inLen.toNat + 3 ≤ s.cfg.outCap.toNat

/-- At position p an ENCODE has written, and will write for the pending literals, at most three bytes for each byte of the
input before p. -/
structure State.Compact (s : State) (p : Nat) : Prop where
  small : s.SmallInput
  inside : p ≤ s.inLen.toNat
  pending : s.winCur.toNat ≤ s.cfg.rawMax
  size : s.outLen.toNat + 3 * s.winCur.toNat ≤ 3 * p + 2

theorem State.SmallInput.of_sameInputs (h : s.SmallInput) (hsame : s.SameInputs t) : t.SmallInput :=
  ⟨by rw [hsame.inLen]; exact h.header, by rw [hsame.inLen, hsame.cfg]; exact h.room⟩

/-- A flush writes at most three bytes for each pending literal (R177). -/
theorem State.Compact.flush (h : s.Compact p) : ∃ t, s.flush = .ok t ∧ t.Compact p ∧ t.winCur = 0#13 := by
  have hhead := rawHead_length_le s.winCur.toNat
  have hflushed := State.flushed_length s
  have hroom := h.small.room
  have hinside := h.inside
  have hsize := h.size
  obtain ⟨u, hu, hlen⟩ := State.appendAll_of_room_outLen (s := s) (bs := rawHead s.winCur.toNat ++ s.pendingLiterals)
    (by omega)
  have hsame := (EncMove.appendAll hu).trans (.resetWindow u)
  refine ⟨u.resetWindow, State.flush_of_appendAll_ok hu, ⟨h.small.of_sameInputs hsame.sameInputs, ?_, Nat.zero_le _, ?_⟩, rfl⟩
  · rw [hsame.sameInputs.inLen]; exact hinside
  · show u.outLen.toNat + 0 ≤ 3 * p + 2
    omega

theorem State.Compact.winAppend (h : s.Compact p) (hlt : s.winCur.toNat < s.cfg.rawMax) (hp : p < s.inLen.toNat) (b : Byte) :
    (s.winAppend b).Compact (p + 1) := by
  have hcur := State.winAppend_winCur_of_lt hlt b
  have hsize := h.size
  refine ⟨h.small.of_sameInputs ((State.SameInputs.refl s).winAppend b), hp, by rw [hcur]; exact hlt, ?_⟩
  rw [hcur, State.winAppend_outLen]
  omega

theorem State.Compact.literal (h : s.Compact p) (hp : p < s.inLen.toNat) (b : Byte) :
    ∃ t, s.literal b = .ok t ∧ t.Compact (p + 1) := by
  by_cases hfull : s.winCur.toNat = s.cfg.rawMax
  · obtain ⟨t, ht, hcompact, hcur⟩ := h.flush
    have hpos : t.winCur.toNat < t.cfg.rawMax := by rw [hcur]; exact (rawMax_le t.cfg).1
    have hlen : t.inLen = s.inLen := by rw [State.flush_frame ht]
    exact ⟨_, State.literal_of_flush_ok hfull ht, hcompact.winAppend hpos (by rw [hlen]; exact hp) b⟩
  · exact ⟨_, State.literal_of_ne hfull, h.winAppend (Nat.lt_of_le_of_ne h.pending hfull) hp b⟩

theorem State.Compact.flushAndEmit {n : Nat} (h : s.Compact p) (hbs : bs.length ≤ 3 * n) (hp : p + n ≤ s.inLen.toNat) :
    ∃ t, s.flushAndEmit bs = .ok t ∧ t.Compact (p + n) := by
  obtain ⟨u, hu, hcompact, hcur⟩ := h.flush
  have hin : u.inLen = s.inLen := by rw [State.flush_frame hu]
  have hsize := hcompact.size
  have hroom := hcompact.small.room
  rw [← hin] at hp
  obtain ⟨t, ht, hlen⟩ := State.appendAll_of_room_outLen (s := u) (bs := bs) (by omega)
  have hsame := State.appendAll_outOnly ht
  refine ⟨t, (State.flushAndEmit_of_flush_ok hu).trans ht, hcompact.small.of_sameInputs hsame.sameInputs, ?_, ?_, ?_⟩
  · rw [hsame.inLen]; exact hp
  · rw [hsame.winCur, hsame.cfg]; exact hcompact.pending
  · rw [hsame.winCur]; omega

/-- No position fails, and each writes at most three bytes for each byte it takes (R172). -/
theorem State.Compact.encodeAt (h : s.Compact p) (hp : p < s.inLen.toNat) :
    ∃ t, encodeAt p s = .ok t ∧ t.Compact (p + choiceLength (rleLen s p) (bestMatch s p).1) := by
  obtain ⟨hpos, -, hrun⟩ := rleLen_bounds hp
  have hmatch := bestMatch_le s p
  by_cases hshort : rleLen s p < 4 ∧ (bestMatch s p).1 < 4
  · have hact := actsAt_literal hshort.1 hshort.2
    rw [hact.act, hact.length]
    exact h.literal hp _
  by_cases hle : (bestMatch s p).1 ≤ rleLen s p
  · have hact := actsAt_rle (s := s) (p := p) (by omega) hle
    have hbytes := rleBytes_length_le (rleLen s p) (s.inByte p)
    rw [hact.act, hact.length]
    exact h.flushAndEmit (by omega) hrun
  · have hact := actsAt_lz (s := s) (p := p) (by omega) (Nat.not_le.mp hle)
    have hbytes := lzBytes_length_le (bestMatch s p).1 (bestMatch s p).2
    rw [hact.act, hact.length]
    exact h.flushAndEmit (by omega) (by omega)

/-- At the end of the input the finish does not fail: the stream fits the header, and the trailer fits OUT. -/
theorem State.Compact.encodeFinish (h : s.Compact s.inLen.toNat) : ∃ t, s.encodeFinish = .ok t := by
  obtain ⟨u, hu, hcompact, -⟩ := h.flush
  have hin : u.inLen = s.inLen := by rw [State.flush_frame hu]
  have hsize := hcompact.size
  have hheader := hcompact.small.header
  have hroom := hcompact.small.room
  rw [← hin] at hsize
  exact ⟨_, (State.encodeFinish_of_fits hu (by omega)).trans
    (State.outAppend_of_room _ (by rw [State.patchHeader_outLen, State.patchHeader_cfg]; omega))⟩

theorem State.Compact.at_end (h : s.Compact p) (hp : s.inLen.toNat ≤ p) : s.Compact s.inLen.toNat := by
  rwa [Nat.le_antisymm hp h.inside]

theorem State.Compact.not_raises {r : EncoderRegs} {e : ErrKind} (h : s.Compact r.p.toNat) : ¬ EncoderRaises r s e := by
  rintro (⟨hp, he⟩ | ⟨hp, he⟩)
  · obtain ⟨t, ht, -⟩ := h.encodeAt hp
    rw [ht] at he
    cases he
  · obtain ⟨t, ht⟩ := (h.at_end hp).encodeFinish
    rw [ht] at he
    cases he

/-- An ENCODE that has succeeded. -/
structure State.EncodeDone (t : State) : Prop where
  status : t.status = .done
  errCode : t.errCode = none
  winCur : t.winCur = 0#13

theorem encodeRule_encodeDone : EncodeRule (fun r s => s.Compact r.p.toNat) State.EncodeDone where
  moves {r s t} h hp hat := by
    obtain ⟨u, hu, hcompact⟩ := h.encodeAt hp
    rw [hat] at hu
    cases hu
    rw [EncoderRegs.after_p hp]
    exact ⟨⟨hcompact.small.header, hcompact.small.room⟩, hcompact.inside, hcompact.pending, hcompact.size⟩
  ends _ _ hfin := ⟨rfl, rfl, by rw [State.encodeFinish_frame hfin]; rfl⟩
  fails h hr := absurd hr h.not_raises

theorem encodeEntry_compact (hin : 1 ≤ s.inLen.toNat) (hsmall : s.SmallInput) :
    ∃ u, encodeEntry s = .ok u ∧ u.Compact 0 := by
  have hne : s.inLen ≠ 0#32 := fun hz => by rw [hz] at hin; exact absurd hin (by decide)
  have hroom := hsmall.room
  obtain ⟨v, hv, hlen⟩ := State.appendAll_of_room_outLen (s := { s with outLen := 0#32 }) (bs := [0x00#8, 0x00#8])
    (show 0 + 2 ≤ s.cfg.outCap.toNat by omega)
  have hu : encodeEntry s = .ok (v.resetWindow.withEncoder EncoderRegs.enter) := by simp only [encodeEntry, if_neg hne, hv]
  exact ⟨_, hu, hsmall.of_sameInputs (encodeEntry_sameInputs hu), Nat.zero_le _, Nat.zero_le _, Nat.le_of_eq hlen⟩

end

/-- Settles O53: no position and no finish of such an input fails, and the run ends. -/
theorem encodeCompletes : Obligations.EncodeCompletes := by
  unfold Obligations.EncodeCompletes
  intro s _ hin hheader hroom
  obtain ⟨u, hu, hstart⟩ := encodeEntry_compact hin ⟨hheader, hroom⟩
  obtain ⟨t, ht, hidle, hdone⟩ := encodeRule_encodeDone.exec hu hstart
  exact ⟨t, ht, hdone.status, hdone.errCode, hidle, hdone.winCur⟩

end Sys2Proof.Machine
end

section
/-! SUPPORT. What a step of an idle block makes of the host's next action (43_commands.md R210, R219 to R223), and that a running
command keeps the host out (R210, R11). -/

namespace Sys2Proof.Machine

/-! ## The step that takes a host action -/

section
variable {s : State}

theorem step_of_action {a : HostAction} {rest : List HostAction} (he : s.engine = .idle) (hp : s.pending = a :: rest) :
    step s = hostStep a (s.takeAction rest) := by
  simp only [step, machineStep, he, hp]

/-! ## Command words -/

theorem issueCommand_of_ok {w : Word} {i : Instr} (h : decodeCommand w = .ok i) : issueCommand w s = exec i s := by
  rw [issueCommand, h]

theorem issueCommand_of_error {w : Word} {e : DecodeReject} (h : decodeCommand w = .error e) :
    issueCommand w s = .next (s.failWith .badCommand) := by
  rw [issueCommand, h]
  rfl

theorem widthOf_eq_reserved {w : Word} (h : w.toNat / 32 % 4 = 3) : widthOf w = .reserved := by
  have hcode := (widthOf_code_toNat w).trans h
  cases hw : widthOf w with
  | reserved => rfl
  | w8 | w16 | w32 => rw [hw] at hcode; exact absurd hcode (by decide)

theorem decodeCommand_of_srcRead {w : Word} (h : w.toNat % 16 = 4) :
    decodeCommand w = .ok (.srcRead (widthOf w) (endianOf w)) := by
  simp only [decodeCommand, opCode_toNat, h]

theorem exec_srcRead_reserved (e : Endian) (s : State) :
    exec (.srcRead .reserved e) s = .next (s.failWith .badCommand) := by
  rw [exec, execSrcRead, if_pos rfl]
  rfl

/-- A reserved code is rejected by the decoder, the reserved width by SRC_READ itself (R102, R214, R219). -/
theorem issueCommand_reserved {w : Word}
    (h : w.toNat % 16 = 0 ∨ 9 ≤ w.toNat % 16 ∨ (w.toNat % 16 = 4 ∧ w.toNat / 32 % 4 = 3)) :
    issueCommand w s = .next (s.failWith .badCommand) := by
  rcases h with h0 | h9 | ⟨h4, hwidth⟩
  · exact issueCommand_of_error (decodeCommand_reserved (.inl h0))
  · exact issueCommand_of_error (decodeCommand_reserved (.inr h9))
  · rw [issueCommand_of_ok (decodeCommand_of_srcRead h4), widthOf_eq_reserved hwidth, exec_srcRead_reserved]

/-! ## Register writes, loads and reads -/

theorem State.writeInLen_of_le {w : Word} (h : w.toNat ≤ s.cfg.inCap.toNat) : s.writeInLen w = { s with inLen := w } :=
  if_pos h

theorem State.writeInLen_of_gt {w : Word} (h : s.cfg.inCap.toNat < w.toNat) : s.writeInLen w = s :=
  if_neg (Nat.not_le.mpr h)

theorem writeRegister_ignored {index : Nat} (h2 : index ≠ 2) (h7 : index ≠ 7) (h8 : index ≠ 8) (w : Word) (s : State) :
    writeRegister index w s = .next s := by
  unfold writeRegister
  split
  · exact absurd rfl h2
  · exact absurd rfl h7
  · exact absurd rfl h8
  · rfl

theorem State.regValue_of_ge {index : Nat} (h : 8 ≤ index) (s : State) : s.regValue index = 0#32 := by
  unfold State.regValue
  split
  case h_9 => rfl
  all_goals omega

theorem State.loadIn_frame (a : Word) (v : Byte) (s : State) :
    s.loadIn a v = { s with inMem := (s.loadIn a v).inMem } := by
  unfold State.loadIn
  split <;> rfl

theorem State.loadIn_inByte (h : s.inMem.wf = true) (a : Word) (v : Byte) (x : Nat) :
    (s.loadIn a v).inByte x = if x = a.toNat ∧ a.toNat < s.cfg.inCap.toNat then v else s.inByte x := by
  by_cases ha : a.toNat < s.cfg.inCap.toNat
  · rw [State.loadIn, if_pos ha]
    simp only [ha, and_true]
    exact Memory.read_write h a.toNat x v
  · rw [State.loadIn, if_neg ha, if_neg fun hx => ha hx.2]

theorem State.readOutAt_of_lt {i : Word} (h : i.toNat < s.outLen.toNat) :
    s.readOutAt i = { s with reply := some ((s.outByte i.toNat).setWidth 32) } :=
  if_pos h

theorem State.readOutAt_of_ge {i : Word} (h : s.outLen.toNat ≤ i.toNat) :
    s.readOutAt i =
      { s with reply := some ((Config.freeByte s.draws i.toNat).setWidth 32), draws := s.draws + 1 } :=
  if_neg (Nat.not_lt.mpr h)

end

/-! ## The obligations -/

/-- Settles O13: the step of a running command is a transition of its codec, which leaves its inputs alone. -/
theorem runningCommandKeepsTheHostOut : Obligations.RunningCommandKeepsTheHostOut := by
  unfold Obligations.RunningCommandKeepsTheHostOut
  intro s t hrun h
  cases he : s.engine with
  | idle => exact absurd he hrun
  | decoding r =>
    rw [step_of_decoding he] at h
    exact decoderStep_sameInputs he h
  | encoding r =>
    rw [step_of_encoding he] at h
    cases h
    exact encoderStep_sameInputs r s

/-- Settles O10: a write of index 8 issues the command. -/
theorem stepRunsTheCommand : Obligations.StepRunsTheCommand := by
  unfold Obligations.StepRunsTheCommand
  intro s w rest i he hp hdec
  exact (step_of_action he hp).trans (issueCommand_of_ok hdec)

/-- Settles O11: the reserved codes and the reserved width, both as `issueCommand_reserved` says. -/
theorem reservedCommandWords : Obligations.ReservedCommandWords := by
  unfold Obligations.ReservedCommandWords
  intro s w rest he hp hres
  exact (step_of_action he hp).trans (issueCommand_reserved hres)

/-- Settles O16: the reply is the register's value, index by index. -/
theorem hostReadsRegisters : Obligations.HostReadsRegisters := by
  unfold Obligations.HostReadsRegisters
  intro s index rest he hp
  refine ⟨s.regValue index, step_of_action he hp, ?status, ?code, ?inLen, ?srcCur, ?outLen, ?winCur, ?result, ?arg,
    fun h => State.regValue_of_ge h s⟩
  case status =>
    rintro rfl
    show s.status.word = _
    cases s.status <;> rfl
  case code =>
    rintro rfl
    show errWord s.errCode = _
    match s.errCode with
    | none => rfl
    | some e => cases e <;> rfl
  case winCur =>
    rintro rfl
    exact BitVec.toNat_setWidth_of_le (by decide)
  all_goals
    rintro rfl
    rfl

/-- Settles O17: IN_LEN by its capacity, ARG, CMD, and the indices that ignore a write. -/
theorem hostWritesRegisters : Obligations.HostWritesRegisters := by
  unfold Obligations.HostWritesRegisters
  intro s index w rest he hp
  have hstep : step s = writeRegister index w (s.takeAction rest) := step_of_action he hp
  refine ⟨?_, ?_, ?_, ?_, fun h2 h7 h8 => hstep.trans (writeRegister_ignored h2 h7 h8 w _)⟩
  · rintro rfl hle
    exact hstep.trans (congrArg Host.Outcome.next (State.writeInLen_of_le hle))
  · rintro rfl hgt
    exact hstep.trans (congrArg Host.Outcome.next (State.writeInLen_of_gt hgt))
  · rintro rfl
    exact hstep
  · rintro i rfl hdec
    exact hstep.trans (issueCommand_of_ok hdec)

/-- Settles O18: the load writes its cell where that is below IN_CAP, and only IN. -/
theorem hostLoadsIn : Obligations.HostLoadsIn := by
  unfold Obligations.HostLoadsIn
  intro s a v rest he hp hwf
  exact ⟨(s.takeAction rest).loadIn a v, step_of_action he hp, State.loadIn_frame a v _,
    State.loadIn_inByte (s := s.takeAction rest) hwf a v⟩

/-- Settles O19: the two branches of a read of OUT. -/
theorem hostReadsOut : Obligations.HostReadsOut := by
  unfold Obligations.HostReadsOut
  intro s i rest he hp
  have hstep : step s = .next ((s.takeAction rest).readOutAt i) := step_of_action he hp
  exact ⟨fun hlt => hstep.trans (congrArg Host.Outcome.next (State.readOutAt_of_lt hlt)),
    fun hge => ⟨Config.freeByte s.draws i.toNat, hstep.trans (congrArg Host.Outcome.next (State.readOutAt_of_ge hge))⟩⟩

end Sys2Proof.Machine
end

section
/-! SUPPORT. The port and window commands by their outcome (43_commands.md R213 to R218; 20_memory.md R53 to R60). -/

namespace Sys2Proof.Machine

/-! ## The value of port bytes (R55, R56; log 11) -/

/-- Big-endian is little-endian of the bytes in reverse. -/
theorem portValue_be (bs : List Byte) : portValue .be bs = portValue .le bs.reverse := rfl

theorem portValue_singleton (e : Endian) (b : Byte) : portValue e [b] = b.setWidth 32 := by
  cases e <;> exact BitVec.ofNat_toNat 32 b

theorem portValue_le_two (b0 b1 : Byte) : portValue .le [b0, b1] = (b1 ++ b0).setWidth 32 := by
  have h0 := b0.isLt
  have h1 := b1.isLt
  apply BitVec.eq_of_toNat_eq
  simp only [portValue, littleEndian, BitVec.toNat_ofNat, BitVec.toNat_setWidth, toNat_append_eq_mul_add]
  omega

theorem portValue_le_four (b0 b1 b2 b3 : Byte) : portValue .le [b0, b1, b2, b3] = b3 ++ b2 ++ b1 ++ b0 := by
  have h0 := b0.isLt
  have h1 := b1.isLt
  have h2 := b2.isLt
  have h3 := b3.isLt
  apply BitVec.eq_of_toNat_eq
  simp only [portValue, littleEndian, BitVec.toNat_ofNat, toNat_append_eq_mul_add]
  omega

/-! ## The port commands -/

section
variable {s t : State} {w : Width} {e : Endian}

theorem exec_srcSeek_of_le (h : s.arg.toNat ≤ s.inLen.toNat) :
    exec .srcSeek s = .next ({ s with srcCur := s.arg } : State).succeed := by
  rw [exec, execSrcSeek, State.setCursor, if_pos h]

theorem exec_srcSeek_of_gt (h : s.inLen.toNat < s.arg.toNat) : exec .srcSeek s = .next (s.failWith .outOfBounds) := by
  rw [exec, execSrcSeek, State.setCursor, if_neg (Nat.not_le.mpr h)]
  rfl

/-- A port read that is there gives its bytes' value and moves the cursor past them (R54 to R56). -/
theorem State.portReadOf_of_le (hw : w ≠ .reserved) (h : s.srcCur.toNat + widthBytes w ≤ s.inLen.toNat) (e : Endian) :
    s.portReadOf w e =
      some (portValue e (s.inMem.bytes s.srcCur.toNat (widthBytes w)), s.advance (widthBytes w)) := by
  cases w with
  | w8 =>
    simp only [State.portReadOf, State.readU8_of_lt h, widthBytes, Memory.bytes, portValue_singleton]
    rfl
  | w16 =>
    rw [State.portReadOf, State.readU16, State.portRead_of_le (n := 2) h]
    rfl
  | w32 =>
    rw [State.portReadOf, State.readU32, State.portRead_of_le (n := 4) h]
    rfl
  | reserved => exact absurd rfl hw

theorem State.portReadOf_of_gt (h : s.inLen.toNat < s.srcCur.toNat + widthBytes w) (e : Endian) :
    s.portReadOf w e = none := by
  cases w with
  | w8 => simp only [State.portReadOf, State.readU8_of_ge (Nat.lt_succ_iff.mp h)]
  | w16 => rw [State.portReadOf, State.readU16, State.portRead_of_gt (n := 2) h]
  | w32 => rw [State.portReadOf, State.readU32, State.portRead_of_gt (n := 4) h]
  | reserved => rfl

theorem exec_srcRead_of_some {v : Word} (hw : w ≠ .reserved) (h : s.portReadOf w e = some (v, t)) :
    exec (.srcRead w e) s = .next ({ t with result := v } : State).succeed := by
  rw [exec, execSrcRead, if_neg hw, h]

theorem exec_srcRead_of_none (hw : w ≠ .reserved) (h : s.portReadOf w e = none) :
    exec (.srcRead w e) s = .next (s.failWith .outOfBounds) := by
  rw [exec, execSrcRead, if_neg hw, h]
  rfl

end

/-! ## Operands of the window commands -/

theorem State.argByte_toNat (s : State) : s.argByte.toNat = s.arg.toNat % 256 := by
  rw [State.argByte, toNat_extractLsb'_eq_div_mod]
  omega

/-- The floor modulo N of a signed word is its low 13 bits, since N divides 2^32 (R112; log 11). -/
theorem toInt_emod_winSize_toNat (x : Word) : (x.toInt % 8192).toNat = x.toNat % 8192 := by
  rw [BitVec.toInt_eq_toNat_cond]
  split <;> omega

theorem State.winGet_argInt (s : State) : s.winGet s.argInt = s.win.read (s.arg.toNat % 8192) :=
  congrArg s.win.read (toInt_emod_winSize_toNat s.arg)

theorem State.winSeek_winCur_toNat (c : Nat) (s : State) : (s.winSeek c).winCur.toNat = c % 8192 := by
  rw [State.winSeek_winCur, BitVec.toNat_ofNat]
  exact Nat.mod_mod c 8192

/-! ## The obligations -/

/-- Settles O20: the two branches of the seek. -/
theorem srcSeek : Obligations.SrcSeek := by
  unfold Obligations.SrcSeek
  exact fun s => ⟨exec_srcSeek_of_le, exec_srcSeek_of_gt⟩

/-- Settles O21: the reserved width, the overrun, and the value of the bytes that are there by width and byte order. -/
theorem srcRead : Obligations.SrcRead := by
  unfold Obligations.SrcRead
  intro s w e
  refine ⟨?_, fun hw hgt => exec_srcRead_of_none hw (State.portReadOf_of_gt hgt e), fun hw hle => ?_⟩
  · rintro rfl
    exact exec_srcRead_reserved e s
  · refine ⟨_, exec_srcRead_of_some hw (State.portReadOf_of_le hw hle e), rfl, State.advance_srcCur_toNat hle,
      ?_, ?_, ?_, ?_, ?_⟩
    · rintro rfl
      exact portValue_singleton e _
    · rintro rfl rfl
      exact portValue_le_two _ _
    · rintro rfl rfl
      exact (portValue_be _).trans (portValue_le_two _ _)
    · rintro rfl rfl
      exact portValue_le_four _ _ _ _
    · rintro rfl rfl
      exact (portValue_be _).trans (portValue_le_four _ _ _ _)

/-- Settles O22: one append to the window, of ARG's low byte. -/
theorem winAppend : Obligations.WinAppend := by
  unfold Obligations.WinAppend
  intro s hwf
  refine ⟨(s.winAppend s.argByte).succeed, rfl, rfl, fun j => ?_, State.winAppend_winCur_toNat s.argByte s⟩
  rw [State.succeed_win, State.winAppend_win_read hwf, apply_ite BitVec.toNat, State.argByte_toNat]

/-- Settles O23: the cell is ARG modulo N, whatever ARG's sign. -/
theorem winGet : Obligations.WinGet := by
  unfold Obligations.WinGet
  intro s
  refine ⟨_, rfl, rfl, ?_, toInt_emod_winSize_toNat s.arg⟩
  rw [State.succeed_result, State.winGet_argInt]
  exact BitVec.toNat_setWidth_of_le (by decide)

/-- Settles O24: a fill sets every cell to ARG's low byte, a seek the cursor to ARG modulo N. -/
theorem winFillAndSeek : Obligations.WinFillAndSeek := by
  unfold Obligations.WinFillAndSeek
  exact ⟨fun s => ⟨(s.winFill s.argByte).succeed, rfl, rfl, fun _ => State.argByte_toNat s⟩,
    fun s => ⟨(s.winSeek s.argNat).succeed, rfl, rfl, State.winSeek_winCur_toNat s.argNat s⟩⟩

end Sys2Proof.Machine
end

section
/-! SUPPORT. ENCODE of one byte (43_commands.md R212): the byte is a literal, and the finish writes it behind its RAW head. -/

namespace Sys2Proof.Machine

section
variable {s t u : State} {out body : List Byte} {b0 b1 : Byte} {p : Nat}

/-- At the last byte of the input no run and no match reaches MIN_RUN (R173 to R175). -/
theorem actsAt_last (hp : p + 1 = s.inLen.toNat) : ActsAt p s (s.literal (s.inByte p)) 1 := by
  obtain ⟨-, -, hrun⟩ := rleLen_bounds (s := s) (p := p) (by omega)
  have hmatch := bestMatch_le s p
  exact actsAt_literal (by omega) (by omega)

/-- A flush that fits appends the pending literals behind their RAW head (R177). -/
theorem State.HoldsOut.flush (h : s.HoldsOut out)
    (hroom : (out ++ (rawHead s.winCur.toNat ++ s.pendingLiterals)).length ≤ s.cfg.outCap.toNat) :
    ∃ t, s.flush = .ok t ∧ t.HoldsOut (out ++ (rawHead s.winCur.toNat ++ s.pendingLiterals)) := by
  obtain ⟨v, hv, hout⟩ := h.appendAll _ hroom
  exact ⟨v.resetWindow, State.flush_of_appendAll_ok hv, hout.of_out rfl rfl rfl⟩

/-- Behind its flush a finish that fits writes the header and the trailer (R186, R190). -/
theorem State.HoldsOut.encodeFinish (h : u.HoldsOut (b0 :: b1 :: body)) (hflush : s.flush = .ok u)
    (hfits : u.outLen.toNat ≤ 0xFFFF) (hroom : (b0 :: b1 :: body).length < u.cfg.outCap.toNat) :
    ∃ t, s.encodeFinish = .ok t ∧
      t.HoldsOut (byteOf u.outLen.toNat :: byteOf (u.outLen.toNat >>> 8) :: body ++ [0x00#8]) := by
  rw [State.encodeFinish_of_fits hflush hfits, ← State.appendAll_singleton]
  refine (h.patchHeader u.outLen.toNat).appendAll [0x00#8] ?_
  rw [List.length_append]
  exact hroom

/-- The stream of one pending literal (R177, R190). -/
theorem State.HoldsOut.encodeFinish_one_literal (h : s.HoldsOut [b0, b1]) (hcur : s.winCur = 1#13)
    (hroom : 5 ≤ s.cfg.outCap.toNat) :
    ∃ t, s.encodeFinish = .ok t ∧ t.HoldsOut [0x04#8, 0x00#8, 0x01#8, s.win.read 0, 0x00#8] := by
  have hbytes : rawHead s.winCur.toNat ++ s.pendingLiterals = [0x01#8, s.win.read 0] := by
    rw [State.pendingLiterals, hcur]
    rfl
  obtain ⟨u, hu, hout⟩ := h.flush (by rw [hbytes]; exact Nat.le_of_succ_le hroom)
  have hcfg : u.cfg = s.cfg := by rw [State.flush_frame hu]
  rw [hbytes] at hout
  have hlen : u.outLen.toNat = 4 := hout.length
  obtain ⟨t, ht, hend⟩ := hout.encodeFinish hu (by omega) (by rw [hcfg]; exact hroom)
  rw [hlen] at hend
  exact ⟨t, ht, hend⟩

/-- An ENCODE of one byte behind its first transition: the byte is a pending literal (R176). -/
def State.oneBytePending (s : State) : State := (s.winAppend (s.inByte 0)).withEncoder (EncoderRegs.after s 0)

theorem encoderStep_one_byte (hin : s.inLen.toNat = 1) (hcur : s.winCur = 0#13) :
    encoderStep EncoderRegs.enter s = s.oneBytePending := by
  have hlt : EncoderRegs.enter.p.toNat < s.inLen.toNat := by rw [hin]; decide
  have hroom : s.winCur.toNat ≠ s.cfg.rawMax := by
    rw [hcur]
    exact Nat.ne_of_lt (rawMax_le s.cfg).1
  have hat : encodeAt EncoderRegs.enter.p.toNat s = .ok (s.winAppend (s.inByte 0)) :=
    (actsAt_last (p := 0) hin.symm).act.trans (State.literal_of_ne hroom)
  exact encoderStep_of_encodeAt_ok hlt hat

/-- Behind its entry an ENCODE of one byte takes two transitions: the byte, and the finish. -/
theorem encoderRun_one_byte (hin : s.inLen.toNat = 1) (he : s.engine = .encoding EncoderRegs.enter) (hcur : s.winCur = 0#13)
    (hfin : s.oneBytePending.encodeFinish = .ok t) : encoderRun 2 s = t.succeed.endCommand := by
  have hnext : (EncoderRegs.after s 0).p.toNat = 1 := by
    rw [EncoderRegs.after_p (by omega), (actsAt_last (p := 0) hin.symm).length]
  have hlast : s.oneBytePending.inLen.toNat ≤ (EncoderRegs.after s 0).p.toNat := Nat.le_of_eq (hin.trans hnext.symm)
  rw [encoderRun_succ 1 he, encoderStep_one_byte hin hcur]
  exact (encoderRun_succ 0 rfl).trans (encoderStep_of_encodeFinish_ok hlast hfin)

theorem State.oneBytePending_winCur (hcur : s.winCur = 0#13) : s.oneBytePending.winCur = 1#13 := by
  show s.winCur + 1#13 = 1#13
  rw [hcur]
  rfl

theorem State.oneBytePending_win_read (hwf : s.win.wf = true) (hcur : s.winCur = 0#13) :
    s.oneBytePending.win.read 0 = s.inByte 0 :=
  (State.winAppend_win_read hwf _ 0).trans (if_pos (by rw [hcur]; rfl))

end

/-- Settles O54: the entry, the literal and the finish, one after another. -/
theorem encodeOfOneByte : Obligations.EncodeOfOneByte := by
  unfold Obligations.EncodeOfOneByte
  intro s _ hwf hin hroom
  have hne : s.inLen ≠ 0#32 := by rw [hin]; decide
  obtain ⟨u, hu, hout⟩ := encodeEntry_holdsOut hwf hne (Nat.le_trans (by decide) hroom)
  obtain ⟨-, hframe⟩ := encodeEntry_ok hu
  have hsame := encodeEntry_sameInputs hu
  have hcur : u.winCur = 0#13 := by rw [hframe]
  have hengine : u.engine = .encoding EncoderRegs.enter := by rw [hframe]
  have hone : u.inLen.toNat = 1 := by rw [hsame.inLen, hin]; rfl
  have hbyte : u.inByte 0 = s.inByte 0 := congrArg (Memory.read · 0) hsame.inMem
  have hpending : u.oneBytePending.HoldsOut [0x00#8, 0x00#8] := hout.of_out rfl rfl rfl
  have hcap : 5 ≤ u.cfg.outCap.toNat := by rw [hsame.cfg]; exact hroom
  obtain ⟨t, ht, hend⟩ := hpending.encodeFinish_one_literal (State.oneBytePending_winCur hcur) hcap
  rw [State.oneBytePending_win_read (encodeEntry_winOk hu).wf hcur, hbyte] at hend
  refine ⟨t.succeed.endCommand, ?_, rfl, BitVec.eq_of_toNat_eq hend.length, hend.bytes_eq⟩
  rw [exec_encode_of_entry hu, encodeFuel, hin]
  exact congrArg Host.Outcome.next (encoderRun_one_byte hone hengine hcur ht)

end Sys2Proof.Machine
end

section
/-! SUPPORT. Errors (60_exceptions.md R245): what a raised error leaves, by the command that raises it, and that every step answers
a next state, the errors among them (93_implementation_defined.md). -/

namespace Sys2Proof.Machine

/-! ## What an error of DECODE or ENCODE leaves -/

section
variable {p : RaisePoint}

theorem raiseError_outLen (hp : p ≠ .command) (e : ErrKind) (s : State) : (raiseError e p s).outLen = 0#32 := by
  cases p with
  | command => exact absurd rfl hp
  | decodeEntry | decodeRunning | encodeEntry | encodeRunning => rfl

theorem raiseError_outMem (hp : p ≠ .command) (e : ErrKind) (s : State) :
    (raiseError e p s).outMem = Memory.unwritten s.draws := by
  cases p with
  | command => exact absurd rfl hp
  | decodeEntry | decodeRunning | encodeEntry | encodeRunning => rfl

/-- The lost OUT takes at least one new draw. -/
theorem raiseError_draws_lt (hp : p ≠ .command) (e : ErrKind) (s : State) : s.draws < (raiseError e p s).draws := by
  cases p with
  | command => exact absurd rfl hp
  | decodeEntry | encodeEntry => exact Nat.lt_succ_self s.draws
  | decodeRunning => exact Nat.lt_add_of_pos_right (n := s.draws) (k := 2) (by decide)
  | encodeRunning => exact Nat.lt_add_of_pos_right (n := s.draws) (k := 3) (by decide)

theorem raiseError_entry_frame (hp : p = .decodeEntry ∨ p = .encodeEntry) (e : ErrKind) (s : State) :
    (raiseError e p s).srcCur = s.srcCur ∧ (raiseError e p s).win = s.win ∧ (raiseError e p s).winCur = s.winCur := by
  rcases hp with rfl | rfl <;> exact ⟨rfl, rfl, rfl⟩

end

/-- The window of a failed ENCODE is the draw behind the one OUT has taken. -/
theorem raiseError_encodeRunning_win (e : ErrKind) (s : State) :
    (raiseError e .encodeRunning s).win = Memory.unwritten (s.draws + 1) := rfl

theorem raiseError_encodeRunning_draws (e : ErrKind) (s : State) :
    (raiseError e .encodeRunning s).draws = s.draws + 3 := rfl

/-! ## A command word runs no token -/

/-- The tokens are the stream's (R84): no command word decodes to one. -/
theorem decodeCommand_ne_token {w : Word} {i : Instr} (h : decodeCommand w = .ok i) (tok : Token) : i ≠ tok.toInstr := by
  rintro rfl
  unfold decodeCommand at h
  split at h
  all_goals cases tok <;> cases h

/-! ## Every command answers a next state -/

theorem exec_decode_next (s : State) : ∃ t, exec .decode s = .next t := by
  by_cases hle : s.arg.toNat ≤ s.inLen.toNat
  · obtain ⟨t, ht, -⟩ := exec_decode_ends hle
    exact ⟨t, ht⟩
  · exact ⟨_, exec_decode_of_gt (Nat.not_le.mp hle)⟩

theorem exec_encode_next (s : State) : ∃ t, exec .encode s = .next t := by
  cases h : encodeEntry s with
  | ok u => exact ⟨_, exec_encode_of_entry h⟩
  | error e => exact ⟨_, exec_encode_of_entry_error h⟩

theorem exec_srcSeek_next (s : State) : ∃ t, exec .srcSeek s = .next t := by
  by_cases hle : s.arg.toNat ≤ s.inLen.toNat
  · exact ⟨_, exec_srcSeek_of_le hle⟩
  · exact ⟨_, exec_srcSeek_of_gt (Nat.not_le.mp hle)⟩

theorem exec_srcRead_next (w : Width) (e : Endian) (s : State) : ∃ t, exec (.srcRead w e) s = .next t := by
  by_cases hw : w = .reserved
  · subst hw
    exact ⟨_, exec_srcRead_reserved e s⟩
  · cases h : s.portReadOf w e with
    | some vt => exact ⟨_, exec_srcRead_of_some hw h⟩
    | none => exact ⟨_, exec_srcRead_of_none hw h⟩

/-- Only a token can be out of place (log 8): every other instruction answers a next state. -/
theorem exec_next_of_ne_token {i : Instr} (h : ∀ tok : Token, i ≠ tok.toInstr) (s : State) : ∃ t, exec i s = .next t := by
  cases i with
  | lz c pos => exact absurd rfl (h (.lz c pos))
  | lzc k => exact absurd rfl (h (.lzc k))
  | rles x n v => exact absurd rfl (h (.rles x n v))
  | rlel x n v => exact absurd rfl (h (.rlel x n v))
  | raws l => exact absurd rfl (h (.raws l))
  | rawl lh ll => exact absurd rfl (h (.rawl lh ll))
  | decode => exact exec_decode_next s
  | encode => exact exec_encode_next s
  | srcSeek => exact exec_srcSeek_next s
  | srcRead w e => exact exec_srcRead_next w e s
  | winAppend | winGet | winFill | winSeek => exact ⟨_, rfl⟩

/-! ## Every host action answers a next state -/

theorem issueCommand_next (w : Word) (s : State) : ∃ t, issueCommand w s = .next t := by
  cases h : decodeCommand w with
  | ok i =>
    rw [issueCommand_of_ok h]
    exact exec_next_of_ne_token (decodeCommand_ne_token h) s
  | error e => exact ⟨_, issueCommand_of_error h⟩

theorem writeRegister_next (index : Nat) (w : Word) (s : State) : ∃ t, writeRegister index w s = .next t := by
  unfold writeRegister
  split
  · exact ⟨_, rfl⟩
  · exact ⟨_, rfl⟩
  · exact issueCommand_next w s
  · exact ⟨_, rfl⟩

theorem hostStep_next (a : HostAction) (s : State) : ∃ t, hostStep a s = .next t := by
  cases a with
  | writeReg index w => exact writeRegister_next index w s
  | loadIn | readReg | readOut | reset => exact ⟨_, rfl⟩

/-- The block waits where the host asks for nothing more (R271). -/
theorem step_of_waiting {s : State} (he : s.engine = .idle) (hp : s.pending = []) : step s = .next s := by
  simp only [step, machineStep, he, hp]

/-! ## The obligations -/

/-- Settles O12: a running command's transition answers a next state, its tokens run in their handling state; an idle block waits
or takes a host action, and no host action runs a token. -/
theorem stepAlwaysAnswersNext : Obligations.StepAlwaysAnswersNext := by
  unfold Obligations.StepAlwaysAnswersNext
  intro s
  cases he : s.engine with
  | decoding r =>
    rw [step_of_decoding he]
    exact decoderStep_next he
  | encoding r => exact ⟨_, step_of_encoding he⟩
  | idle =>
    cases hp : s.pending with
    | nil => exact ⟨s, step_of_waiting he hp⟩
    | cons a rest =>
      rw [step_of_action he hp]
      exact hostStep_next a _

/-- Settles O57: an error of DECODE or ENCODE loses OUT to a new draw; behind its entry DECODE loses its cursor besides, and
ENCODE the window. -/
theorem raiseError_holds : Obligations.RaiseError := by
  unfold Obligations.RaiseError
  intro e s
  refine ⟨rfl, fun p hp => ?_, fun p hp => raiseError_entry_frame hp e s, ?_, ?_⟩
  · refine ⟨raiseError_status e p s, raiseError_errCode e p s, raiseError_outLen hp e s, fun i => ?_,
      raiseError_draws_lt hp e s, raiseError_sameInputs e p s, raiseError_result e p s⟩
    rw [State.outByte, raiseError_outMem hp, Memory.read_unwritten]
  · exact ⟨((s.failWith e).dropOut).freeCursor_le, rfl, rfl⟩
  · refine ⟨rfl, BitVec.isLt _, s.draws + 1, Nat.le_succ _, ?_, fun j => ?_⟩
    · rw [raiseError_encodeRunning_draws]
      omega
    · rw [raiseError_encodeRunning_win, Memory.read_unwritten]

end Sys2Proof.Machine
end

section
/-! SUPPORT. The empty escape (70_reset_and_hazards.md R277; 41_decoder.md R133), and the state after reset (R270, R271). -/

namespace Sys2Proof.Machine

/-! ## The empty escape -/

section
variable {s : State}

/-- A third byte 0x00 takes the header to Done, with SRC_CUR behind DECL (R133). -/
theorem decodeEntry_step_of_emptyEscape (h : s.arg.toNat + 3 ≤ s.inLen.toNat) (hz : s.inByte (s.arg.toNat + 2) = 0x00#8) :
    ∃ r : DecoderRegs, r.dstate = .done ∧ DecodeStep (decodeEntry s) (((decodeEntry s).advance 2).withDecoder r) := by
  have hthird : nextByte (decodeEntry s) 2 = 0x00#8 := hz
  have hstep := readHeader_of_le (s := decodeEntry s) (r := DecoderRegs.enter s.arg) h
  rw [if_pos hthird] at hstep
  exact ⟨_, rfl, DecoderRegs.enter s.arg, rfl, hstep⟩

/-- From Done the next transition ends the command with success (R143). -/
theorem decodeStep_of_done {r : DecoderRegs} (he : s.engine = .decoding r) (hd : r.dstate = .done) :
    DecodeStep s s.succeed.endCommand :=
  ⟨r, he, by rw [decoderStep, hd]⟩

end

/-- Settles O36: the header goes to Done without a look at END, and Done ends the command. -/
theorem emptyEscape : Obligations.EmptyEscape := by
  unfold Obligations.EmptyEscape
  intro s he hin hz
  obtain ⟨r, hd, hheader⟩ := decodeEntry_step_of_emptyEscape hin hz
  have hexec := exec_decode_of_reaches (Nat.le_of_add_right_le hin) (.head hheader (.single (decodeStep_of_done rfl hd))) rfl
  refine ⟨_, hexec, ?_, State.advance_srcCur_toNat (s := decodeEntry s) (n := 2) (Nat.le_of_succ_le hin)⟩
  rw [he]
  rfl

/-! ## Reset -/

theorem step_of_reset {s : State} {rest : List HostAction} (he : s.engine = .idle) (hp : s.pending = .reset :: rest) :
    step s = .next (State.resetWith s.cfg s.draws rest) :=
  step_of_action he hp

/-- Settles O15: the registers are the fields of the state after reset, whose memories list no byte and so read as their free
draws; the host's reset makes that state of what `takeAction` leaves, and with no action to come the block waits. -/
theorem reset : Obligations.Reset := by
  unfold Obligations.Reset
  refine ⟨fun c d todo => ⟨rfl, rfl, rfl, rfl, rfl, rfl, rfl, rfl, ?_, ?_, ?_⟩, fun _ _ => step_of_reset,
    fun c d => step_of_waiting rfl rfl⟩
  · exact Memory.read_unwritten d
  · exact Memory.read_unwritten (d + 1)
  · exact Memory.read_unwritten (d + 2)

end Sys2Proof.Machine
end

section
/-! SUPPORT. The canonical form is unique: what a memory reads as determines its cells (log 2). -/

namespace Sys2Proof.Machine

/-! ## What a rising cell list reads as determines it -/

theorem cellsRead_cons_self (a : Nat) (b : Byte) (cs : List Host.Cell) : cellsRead a ((a, b) :: cs) = some b :=
  if_pos rfl

theorem cellsRead_cons_of_ne {a x : Nat} (h : a ≠ x) (b : Byte) (cs : List Host.Cell) :
    cellsRead x ((a, b) :: cs) = cellsRead x cs :=
  if_neg h

theorem mem_of_cellsRead {a : Nat} {b : Byte} {cs : List Host.Cell} (h : cellsRead a cs = some b) : (a, b) ∈ cs := by
  induction cs with
  | nil => cases h
  | cons c t ih =>
    obtain ⟨x, v⟩ := c
    by_cases hx : x = a
    · subst hx
      rw [cellsRead_cons_self, Option.some.injEq] at h
      simp [h]
    · rw [cellsRead_cons_of_ne hx] at h
      exact List.mem_cons_of_mem _ (ih h)

/-- A rising list lists nothing below its first address. -/
theorem head_le_of_cellsRead {lo : Option Nat} {a x : Nat} {b v : Byte} {t : List Host.Cell}
    (hr : cellsRising lo ((x, v) :: t) = true) (h : cellsRead a ((x, v) :: t) = some b) : x ≤ a := by
  by_contra hlt
  have hnone : cellsRead a t = none := cellsRead_of_rising (cellsRising_tail hr) (by omega)
  rw [cellsRead_cons_of_ne (by omega), hnone] at h
  cases h

/-- Behind its first cell, a rising list reads as the list without the cells up to that address. -/
theorem cellsRead_tail {lo : Option Nat} {x : Nat} {v : Byte} {t : List Host.Cell}
    (hr : cellsRising lo ((x, v) :: t) = true) (a : Nat) :
    cellsRead a t = if x = a then none else cellsRead a ((x, v) :: t) := by
  split
  next h => exact cellsRead_of_rising (cellsRising_tail hr) h.ge
  next h => exact (cellsRead_cons_of_ne h v t).symm

/-- Two rising lists that list the same byte or none at every address are the same list: each first address is listed in the
other list, so neither is below the other. -/
theorem cells_eq_of_cellsRead {lo lo' : Option Nat} {cs cs' : List Host.Cell} (hr : cellsRising lo cs = true)
    (hr' : cellsRising lo' cs' = true) (h : ∀ a, cellsRead a cs = cellsRead a cs') : cs = cs' := by
  induction cs generalizing lo lo' cs' with
  | nil =>
    cases cs' with
    | nil => rfl
    | cons c' t' => cases (h c'.1).trans (cellsRead_cons_self ..)
  | cons c t ih =>
    obtain ⟨x, v⟩ := c
    have hx : cellsRead x cs' = some v := (h x).symm.trans (cellsRead_cons_self ..)
    cases cs' with
    | nil => cases hx
    | cons c' t' =>
      obtain ⟨y, w⟩ := c'
      have hy : cellsRead y ((x, v) :: t) = some w := (h y).trans (cellsRead_cons_self ..)
      obtain rfl : x = y := Nat.le_antisymm (head_le_of_cellsRead hr hy) (head_le_of_cellsRead hr' hx)
      obtain rfl : w = v := Option.some.inj ((cellsRead_cons_self ..).symm.trans hx)
      have htail : t = t' :=
        ih (cellsRising_tail hr) (cellsRising_tail hr') fun a => by
          rw [cellsRead_tail hr, cellsRead_tail hr', h a]
      rw [htail]

/-! ## What a canonical memory reads as determines it -/

theorem Memory.fill_ne_of_mem {m : Memory} {c : Host.Cell} (h : m.wf = true) (hc : c ∈ m.cells) :
    m.background ≠ .filled c.2 := by
  simp only [Memory.wf, Bool.and_eq_true, List.all_eq_true] at h
  simpa using h.2 c hc

/-- Over a fill, a canonical memory lists exactly the cells that do not read as the fill. -/
theorem Memory.cellsRead_of_filled {m : Memory} {v : Byte} (h : m.wf = true) (hv : m.background = .filled v) (a : Nat) :
    cellsRead a m.cells = if m.read a = v then none else some (m.read a) := by
  unfold Memory.read
  split
  next b hb =>
    have hne : b ≠ v := by
      rintro rfl
      exact Memory.fill_ne_of_mem h (mem_of_cellsRead hb) hv
    rw [if_neg hne, hb]
  next hnone =>
    rw [hv, hnone]
    exact (if_pos rfl).symm

theorem Memory.eq_of_cellsRead {m m' : Memory} (h : m.wf = true) (h' : m'.wf = true)
    (hbg : m.background = m'.background) (hcells : ∀ a, cellsRead a m.cells = cellsRead a m'.cells) : m = m' := by
  have heq := cells_eq_of_cellsRead (Memory.rising_of_wf h) (Memory.rising_of_wf h') hcells
  cases m
  cases m'
  exact (Memory.mk.injEq ..).mpr ⟨hbg, heq⟩

/-- Settles O14: over a fill, what a canonical memory reads as fixes what it lists; and over any background, what it lists
fixes its cells, because their addresses rise. -/
theorem equalMemoriesAreEqualData : Obligations.EqualMemoriesAreEqualData := by
  unfold Obligations.EqualMemoriesAreEqualData
  intro m m' h h' hbg
  refine ⟨?_, Memory.eq_of_cellsRead h h' hbg⟩
  rintro ⟨v, hv⟩ hread
  refine Memory.eq_of_cellsRead h h' hbg fun a => ?_
  rw [Memory.cellsRead_of_filled h hv, Memory.cellsRead_of_filled h' (hbg ▸ hv), hread a]

end Sys2Proof.Machine
end
